-- ==== Sys2Proof/Word.lean ====
section
/-! DEFINITION. The byte, the port words of the request and response records, and the names of host buffers. -/

namespace Sys2Proof

/-- One byte of an operand buffer or of a RawBlock; bit 7 is its most significant bit (R10). -/
abbrev Byte := BitVec 8

/-- A byte sequence: an operand buffer (R27), a RawBlock (R28) or a byte-sequence field of a record. -/
abbrev Bytes := List Byte

/-- The port widths among the parameters of R7. -/
structure PortWidths where
  /-- `RESULT_BITS`: the codec's read result port. -/
  resultBits : Nat
  /-- `VALUE_BITS`: the codec's write value port, two's complement. -/
  valueBits  : Nat
  /-- `OFFSET_BITS`: the bit-offset operand, unsigned. -/
  offsetBits : Nat
  /-- `POS_BITS`: a RawBlock's stream position. -/
  posBits    : Nat

/-- The port widths of the machine, at the defaults of R7. Every port word's type is computed from them. -/
abbrev portWidths : PortWidths where
  resultBits := 32
  valueBits  := 64
  offsetBits := 32
  posBits    := 64

/-- The name of a host buffer (R33): an identifier, carried as a natural number
(DESIGN CHOICE, notes/assumptions/3.md). -/
abbrev Name := Nat

/-- The `op` field of a request, u4 (R50). -/
abbrev OpWord := BitVec 4

/-- The `width` field of a request, u6 (R50). -/
abbrev WidthWord := BitVec 6

/-- The `offset` field of a request, `OFFSET_BITS` wide, unsigned (R7, R50). -/
abbrev OffsetWord := BitVec portWidths.offsetBits

/-- The `value` field of a request, `VALUE_BITS` wide, two's complement (R7, R50). -/
abbrev ValueWord := BitVec portWidths.valueBits

/-- The `pos` field of a request, `POS_BITS` wide, unsigned (R7, R50). -/
abbrev PosWord := BitVec portWidths.posBits

/-- The `result` field of a response, `RESULT_BITS` wide (R7, R51). -/
abbrev ResultWord := BitVec portWidths.resultBits

/-- The `status` field of a response, u4 (R51). -/
abbrev StatusWord := BitVec 4

end Sys2Proof
end

