-- ==== Sys2Proof/Machine/Bits.lean ====
section
/-! DEFINITION. The bit-field primitives: reading and replacing a packed field of a byte buffer, most significant bit
first (R10, R77, R81), the two's-complement reading (R80), and MemRead and MemWrite (R12). -/

namespace Sys2Proof.Machine

/-- `BitAt(buf, k)` (R12): offset `k` names bit `7 - k mod 8` of byte `k div 8`. Used for `k < 8*len(buf)`. -/
def bitAt (buf : Bytes) (k : Nat) : Nat :=
  ((buf.getD (k / 8) 0).toNat >>> (7 - k % 8)) % 2

/-- The number whose `w` bits are `f 0 .. f (w-1)`, `f 0` the most significant: the sum of R77. -/
def natOfBits (w : Nat) (f : Nat → Nat) : Nat :=
  ((List.range w).map fun i => f i * 2 ^ (w - 1 - i)).sum

/-- `FieldBits(buf, o, w)` (R77), the bit at offset `o` the most significant. Used for `o + w <= 8*len(buf)`.
With `putBits` it makes the laws of R87: a field put in place reads as what was put there, and a disjoint one as before. -/
def fieldBits (buf : Bytes) (o w : Nat) : Nat := natOfBits w fun i => bitAt buf (o + i)

/-- Byte `b`, whose first bit has offset `k0`, with the bits that lie in the field `o .. o+w-1` replaced by the
field's bits of `raw` (R81). -/
def spliceByte (k0 o w raw : Nat) (b : Byte) : Byte :=
  BitVec.ofNat 8 (natOfBits 8 fun j =>
    if o ≤ k0 + j ∧ k0 + j < o + w then (raw >>> (w - 1 - (k0 + j - o))) % 2
    else (b.toNat >>> (7 - j)) % 2)

/-- The bytes from offset `k0` on, with the field's bits replaced; a byte outside the field is kept as it is. -/
def putBitsFrom (o w raw : Nat) : Nat → Bytes → Bytes
  | _, [] => []
  | k0, b :: bs =>
    (if k0 + 8 ≤ o ∨ o + w ≤ k0 then b else spliceByte k0 o w raw b) :: putBitsFrom o w raw (k0 + 8) bs

/-- `PutBits(buf, o, w, raw)` (R81): the bits of the field and no others change, which makes the laws of R87 with `fieldBits`.
Used for `o + w <= 8*len(buf)` and `raw < 2^w`. -/
def putBits (buf : Bytes) (o w raw : Nat) : Bytes := putBitsFrom o w raw 0 buf

/-- The two's-complement value of `w` raw bits (R80): the sign bit is the field's first bit. -/
def signedValue (w raw : Nat) : Int :=
  if 2 ^ (w - 1) ≤ raw then (raw : Int) - 2 ^ w else raw

/-- The `w` raw bits of a two's-complement value in range (R85). -/
def signedRaw (w : Nat) (v : Int) : Nat :=
  if v < 0 then (v + 2 ^ w).toNat else v.toNat

/-- `MemRead(buf, a, n)` (R12): bytes `a .. a+n-1`. -/
def memRead (buf : Bytes) (a n : Nat) : Bytes := (buf.drop a).take n

/-- `MemWrite(buf, a, n, v)` (R12): a copy of `buf` with bytes `a .. a+n-1` replaced by the `n` bytes `v`. -/
def memWrite (buf : Bytes) (a n : Nat) (v : Bytes) : Bytes := buf.take a ++ v ++ buf.drop (a + n)

end Sys2Proof.Machine
end

