-- ==== Sys2Proof/Syntax.lean ====
section
/-! DEFINITION. The request and response records, the DecodedBlock record, the instructions (one constructor
per row of spec/opcode_table.json) and the lines of a host program, as data. -/

namespace Sys2Proof

/-! ## Names of standards, block types and fields -/

/-- The video standard `STD` (R7): `NTSC` is 525/60, `PAL` is 625/50. -/
inductive Std where
  | ntsc
  | pal
  deriving DecidableEq, Repr, Inhabited

/-- The five section types (R56). -/
inductive BlockType where
  | header
  | subcode
  | vaux
  | audio
  | video
  deriving DecidableEq, Repr, Inhabited

/-- The seven ID fields of format `DIFID` (R54). -/
inductive IdField where
  | sct
  | res0
  | seq
  | dseq
  | fsc
  | res1
  | dbn
  deriving DecidableEq, Repr, Inhabited

/-- The fourteen fields of format `HDR` (R59). -/
inductive HeaderField where
  | dsf
  | zero
  | res3
  | res4
  | apt
  | tf1
  | res5
  | ap1
  | tf2
  | res6
  | ap2
  | tf3
  | res7
  | ap3
  deriving DecidableEq, Repr, Inhabited

/-- The integer fields of one subcode sync block outside its pack (R58). -/
inductive SsybField where
  | fr
  | ap
  | id0lo
  | id1hi
  | syb
  | idp
  deriving DecidableEq, Repr, Inhabited

/-- The five bytes of a pack (R57). -/
inductive PackByte where
  | pc0
  | pc1
  | pc2
  | pc3
  | pc4
  deriving DecidableEq, Repr, Inhabited

/-- Where a pack stands in a block: SSYB `k` of a Subcode block, position `i` of a VAUX block, or the
AAUX pack of an Audio block (R118, R121, R123). -/
inductive PackSlot where
  | ssyb (k : Fin 6)
  | vaux (i : Fin 15)
  | aaux
  deriving DecidableEq, Repr, Inhabited

/-- The two fields of format `VID` (R60). -/
inductive VideoField where
  | sta
  | qno
  deriving DecidableEq, Repr, Inhabited

/-- Every integer field a DecodedBlock stores raw (R100). -/
inductive IntField where
  | id (f : IdField)
  | header (f : HeaderField)
  | ssyb (k : Fin 6) (f : SsybField)
  | pack (slot : PackSlot) (b : PackByte)
  | video (f : VideoField)
  deriving DecidableEq, Repr, Inhabited

/-- Every byte-sequence field a DecodedBlock stores raw (R100). -/
inductive BytesField where
  | headerTail
  | subcodeTail
  | vauxTail
  | audioSamples
  | videoData
  deriving DecidableEq, Repr, Inhabited

/-- A raw field of a DecodedBlock: what ENCODE writes and what an edited record may replace (R150, R71). -/
inductive RawField where
  | int (f : IntField)
  | bytes (f : BytesField)
  deriving DecidableEq, Repr, Inhabited

/-- The fields of a time code pack (R130). -/
inductive TcField where
  | cf
  | df
  | frames
  | pc
  | seconds
  | bgf0
  | minutes
  | bgf2
  | bgf1
  | hours
  deriving DecidableEq, Repr, Inhabited

/-- The fields of a recording date pack (R133). -/
inductive RecdateField where
  | ds
  | tm
  | tz
  | resd
  | day
  | week
  | month
  | year
  deriving DecidableEq, Repr, Inhabited

/-- The fields of a recording time pack (R136). -/
inductive RectimeField where
  | resf
  | frames
  | ress
  | seconds
  | resm
  | minutes
  | resh
  | hours
  deriving DecidableEq, Repr, Inhabited

/-- A dotted field name (R13): a raw field, or a field of the view of the pack in a slot. -/
inductive FieldPath where
  | raw (f : RawField)
  | tc (slot : PackSlot) (f : TcField)
  | recdate (slot : PackSlot) (f : RecdateField)
  | rectime (slot : PackSlot) (f : RectimeField)
  deriving DecidableEq, Repr, Inhabited

/-- The five pack views a PC0 selects (R57). -/
inductive PackKind where
  | tc
  | recdate
  | rectime
  | noinfo
  | raw
  deriving DecidableEq, Repr, Inhabited

/-! ## The DecodedBlock record

Integer fields are unbounded natural numbers, because an ENCODE request carries them so (R152). -/

/-- The ID fields (R98). -/
structure BlockId where
  sct  : Nat
  res0 : Nat
  seq  : Nat
  dseq : Nat
  fsc  : Nat
  res1 : Nat
  dbn  : Nat
  deriving DecidableEq, Repr, Inhabited

/-- The Header body (R115). -/
structure HeaderBody where
  dsf  : Nat
  zero : Nat
  res3 : Nat
  res4 : Nat
  apt  : Nat
  tf1  : Nat
  res5 : Nat
  ap1  : Nat
  tf2  : Nat
  res6 : Nat
  ap2  : Nat
  tf3  : Nat
  res7 : Nat
  ap3  : Nat
  tail : Bytes
  deriving DecidableEq, Repr, Inhabited

/-- A pack: its five bytes, raw (R127). -/
structure Pack where
  pc0 : Nat
  pc1 : Nat
  pc2 : Nat
  pc3 : Nat
  pc4 : Nat
  deriving DecidableEq, Repr, Inhabited

/-- A subcode sync block (R118). -/
structure Ssyb where
  fr    : Nat
  ap    : Nat
  id0lo : Nat
  id1hi : Nat
  syb   : Nat
  idp   : Nat
  pack  : Pack
  deriving DecidableEq, Repr, Inhabited

/-- The Subcode body: six SSYBs and the reserved tail (R118). -/
structure SubcodeBody where
  ssyb : Vector Ssyb 6
  tail : Bytes
  deriving DecidableEq, Repr, Inhabited

/-- The VAUX body: fifteen packs and the reserved tail (R121). -/
structure VauxBody where
  pack : Vector Pack 15
  tail : Bytes
  deriving DecidableEq, Repr, Inhabited

/-- The Audio body: the AAUX pack and the opaque samples (R123). -/
structure AudioBody where
  aaux    : Pack
  samples : Bytes
  deriving DecidableEq, Repr, Inhabited

/-- The Video body: STA, QNO and the opaque payload (R125). -/
structure VideoBody where
  sta  : Nat
  qno  : Nat
  data : Bytes
  deriving DecidableEq, Repr, Inhabited

/-- The closed sum of the five bodies (R99). -/
inductive Body where
  | header (b : HeaderBody)
  | subcode (b : SubcodeBody)
  | vaux (b : VauxBody)
  | audio (b : AudioBody)
  | video (b : VideoBody)
  deriving DecidableEq, Repr, Inhabited

/-- The constructor of a body, as a block type (R101). -/
def Body.type : Body → BlockType
  | .header _ => .header
  | .subcode _ => .subcode
  | .vaux _ => .vaux
  | .audio _ => .audio
  | .video _ => .video

/-- A DecodedBlock (R99). -/
structure DecodedBlock where
  id   : BlockId
  body : Body
  deriving DecidableEq, Repr, Inhabited

/-! ## Results and responses -/

/-- The error kinds of R161. `crossCheckMismatch` and `resyncExhausted` belong to units out of scope (R6). -/
inductive ErrorCode where
  | boundsError
  | rangeError
  | unknownBlockType
  | malformedField
  | crossCheckMismatch
  | resyncExhausted
  deriving DecidableEq, Repr, Inhabited

/-- The reasons of a refusal (R163). -/
inductive RefusalReason where
  | illegalOp
  | widthError
  | bufTooLong
  | lengthError
  | badRecord
  deriving DecidableEq, Repr, Inhabited

/-- The status of a response by name (R161). -/
inductive Status where
  | ok
  | error (e : ErrorCode)
  | refused (r : RefusalReason)
  deriving DecidableEq, Repr, Inhabited

/-- The rule id of a violation: the block emits `MalformedField` only (R13). -/
inductive ViolationKind where
  | malformedField
  deriving DecidableEq, Repr, Inhabited

/-- A block-local violation (R13). -/
structure Violation where
  kind   : ViolationKind
  field  : FieldPath
  raw    : BitVec 32
  offset : BitVec 32
  deriving DecidableEq, Repr, Inhabited

/-- The result of a DECODE (R13), on ports of the widths `W`. -/
inductive DecodeResultOf (W : PortWidths) where
  | decoded (block : DecodedBlock) (violations : List Violation)
  | unreadable (pos : BitVec W.posBits) (cause : ErrorCode) (rawSct : Option (BitVec 3))
  deriving DecidableEq, Repr, Inhabited

/-- The result of a DECODE on the machine's ports. -/
abbrev DecodeResult := DecodeResultOf portWidths

/-- The information an error records (R162): `(o, w, len)`, `(v, w)`, or `(field path, value)`. -/
inductive ErrInfo where
  | bounds (o w len : Nat)
  | range (v : Int) (w : Nat)
  | field (path : FieldPath) (value : Nat)
  deriving DecidableEq, Repr, Inhabited

/-- A response (R51) on ports of the widths `W`, with the information of an `Err` (R13). `none` marks a field the
operation does not name: it holds no meaning and no rule of the model reads it (notes/assumptions/6.md). -/
structure ResponseOf (W : PortWidths) where
  status : StatusWord
  result : Option (BitVec W.resultBits)
  data   : Option Bytes
  decode : Option (DecodeResultOf W)
  info   : Option ErrInfo
  deriving DecidableEq, Repr, Inhabited

/-- A response on the machine's ports. -/
abbrev Response := ResponseOf portWidths

/-! ## Typed views -/

/-- `EnumView` (R89): the table entry of a raw value, or the raw value that has none. -/
inductive EnumReading (α : Type) where
  | known (e : α)
  | unmapped (raw : Nat)
  deriving DecidableEq, Repr, Inhabited

/-- `BcdView` (R90). -/
inductive BcdReading where
  | absent
  | malformed (raw : Nat)
  | value (n : Nat)
  deriving DecidableEq, Repr, Inhabited

/-- `TypedBcd` (R91, R132). -/
inductive TypedBcd where
  | value (n : Nat)
  | absent
  | flagged (raw : Nat)
  deriving DecidableEq, Repr, Inhabited

/-- The time code view (R132). -/
structure TcView where
  hours   : TypedBcd
  minutes : TypedBcd
  seconds : TypedBcd
  frames  : TypedBcd
  cf      : Nat
  df      : Nat
  pc      : Nat
  bgf0    : Nat
  bgf1    : Nat
  bgf2    : Nat
  deriving DecidableEq, Repr, Inhabited

/-- The recording date view (R135). -/
structure RecdateView where
  year  : TypedBcd
  month : TypedBcd
  day   : TypedBcd
  week  : Nat
  tz    : Nat
  ds    : Nat
  tm    : Nat
  deriving DecidableEq, Repr, Inhabited

/-- The recording time view (R138). -/
structure RectimeView where
  hours   : TypedBcd
  minutes : TypedBcd
  seconds : TypedBcd
  frames  : TypedBcd
  deriving DecidableEq, Repr, Inhabited

/-- The typed view of a pack (R127). -/
inductive PackView where
  | tc (v : TcView)
  | recdate (v : RecdateView)
  | rectime (v : RectimeView)
  | noinfo
  | raw (pc0 pc1 pc2 pc3 pc4 : Nat)
  deriving DecidableEq, Repr, Inhabited

/-- What the pack decoder makes of one pack (R127): the raw pack, its view and its violations. -/
structure PackResult where
  slot       : PackSlot
  pack       : Pack
  view       : PackView
  violations : List Violation
  deriving DecidableEq, Repr, Inhabited

/-- BlockIdentity (R102): (sequence number, block type, (channel, track, block number)). -/
structure BlockIdentity where
  seq         : Nat
  type        : BlockType
  channel     : Nat
  track       : Nat
  blockNumber : Nat
  deriving DecidableEq, Repr, Inhabited

/-- The six response forms of R74. -/
inductive ResponseForm where
  | okResult (v : ResultWord)
  | okBuffer (d : Bytes)
  | decoded (t : BlockType) (block : DecodedBlock) (violations : List Violation)
  | unreadable (pos : PosWord) (cause : ErrorCode) (rawSct : Option (BitVec 3))
  | err (e : ErrorCode)
  | refused (r : RefusalReason)
  deriving DecidableEq, Repr, Inhabited

/-! ## Requests and instructions -/

/-- A request record of format `RQ` (R50), on ports of the widths `W`. -/
structure RequestOf (W : PortWidths) where
  op     : OpWord
  width  : WidthWord
  offset : BitVec W.offsetBits
  value  : BitVec W.valueBits
  std    : BitVec 1
  pos    : BitVec W.posBits
  data   : Bytes
  record : DecodedBlock
  deriving DecidableEq, Repr, Inhabited

/-- A request on the machine's ports. -/
abbrev Request := RequestOf portWidths

/-- The ID fields below `sct` of format `DIFID` (R54): the operands of a block-type row. -/
structure IdOperands where
  res0 : BitVec 1
  seq  : BitVec 4
  dseq : BitVec 4
  fsc  : BitVec 1
  res1 : BitVec 3
  dbn  : BitVec 8
  deriving DecidableEq, Repr, Inhabited

/-- One constructor per row of spec/opcode_table.json. The `RQ` rows hold the operands R53 lists for them; a
`DIFID` row holds the standard, the position, the ID fields below `sct` and the section data; a `PACK` row holds
the standard, the slot and the pack's data bytes. -/
inductive Instr where
  | freadU (width : WidthWord) (offset : OffsetWord) (data : Bytes)
  | freadS (width : WidthWord) (offset : OffsetWord) (data : Bytes)
  | fwriteU (width : WidthWord) (offset : OffsetWord) (value : ValueWord) (data : Bytes)
  | fwriteS (width : WidthWord) (offset : OffsetWord) (value : ValueWord) (data : Bytes)
  | decode (std : Std) (pos : PosWord) (data : Bytes)
  | encode (std : Std) (record : DecodedBlock)
  | reservedOp67 (low : BitVec 1)
  | reservedOp8F (low : BitVec 3)
  | blkHeader (std : Std) (pos : PosWord) (id : IdOperands) (payload : Bytes)
  | blkSubcode (std : Std) (pos : PosWord) (id : IdOperands) (payload : Bytes)
  | blkVaux (std : Std) (pos : PosWord) (id : IdOperands) (payload : Bytes)
  | blkAudio (std : Std) (pos : PosWord) (id : IdOperands) (payload : Bytes)
  | blkVideo (std : Std) (pos : PosWord) (id : IdOperands) (payload : Bytes)
  | blkUnknown5 (std : Std) (pos : PosWord) (id : IdOperands) (payload : Bytes)
  | blkUnknown67 (low : BitVec 1) (std : Std) (pos : PosWord) (id : IdOperands) (payload : Bytes)
  | packTc (std : Std) (slot : PackSlot) (pc1 pc2 pc3 pc4 : Byte)
  | packRecdate (std : Std) (slot : PackSlot) (pc1 pc2 pc3 pc4 : Byte)
  | packRectime (std : Std) (slot : PackSlot) (pc1 pc2 pc3 pc4 : Byte)
  | packNoinfo (std : Std) (slot : PackSlot) (pc1 pc2 pc3 pc4 : Byte)
  | packRaw (std : Std) (slot : PackSlot) (pc0 pc1 pc2 pc3 pc4 : Byte)
  deriving DecidableEq, Repr, Inhabited

/-- What can be presented to the block, on ports of the widths `W`: a request (R50), or, at the two inner decode levels
of the opcode table, a DIF block or a pack by itself (DESIGN CHOICE, notes/assumptions/2.md). -/
inductive PresentedOf (W : PortWidths) where
  | request (r : RequestOf W)
  | block (std : Std) (pos : BitVec W.posBits) (bytes : Bytes)
  | pack (std : Std) (slot : PackSlot) (bytes : Bytes)
  deriving DecidableEq, Repr, Inhabited

/-- What can be presented on the machine's ports. -/
abbrev Presented := PresentedOf portWidths

/-- A presented item, with the host buffer (if any) that the harness replaces by a returned buffer (R33). -/
structure Outstanding where
  item : Presented
  dest : Option Name
  deriving DecidableEq, Repr, Inhabited

/-! ## Host programs -/

/-- A replacement of one raw field of a record: `field=value` of `@n{field=value, ...}` (R71). -/
inductive Edit where
  | int (f : IntField) (v : Nat)
  | bytes (f : BytesField) (v : Bytes)
  deriving DecidableEq, Repr, Inhabited

/-- `@n` or `@n{field=value, ...}`: the record of the `n`-th response of the log, counting from 1, edited (R71). -/
structure RecRef where
  n     : Nat
  edits : List Edit
  deriving DecidableEq, Repr, Inhabited

/-- A line of a program: the host statement and the request lines of R71 and the pseudo-instructions of R72.
`req (.request r)` is the line `REQ`. -/
inductive Line where
  | load (b : Name) (bytes : Bytes)
  | freadU (b : Name) (offset : OffsetWord) (width : WidthWord)
  | freadS (b : Name) (offset : OffsetWord) (width : WidthWord)
  | fwriteU (b : Name) (offset : OffsetWord) (width : WidthWord) (value : ValueWord)
  | fwriteS (b : Name) (offset : OffsetWord) (width : WidthWord) (value : ValueWord)
  | decode (b : Name) (pos : PosWord) (std : Std)
  | encode (b : Name) (ref : RecRef) (std : Std)
  | req (item : Presented)
  | freadByte (b : Name) (k : BitVec 29)
  | freadBit (b : Name) (o : OffsetWord)
  | freadNib (b : Name) (k : BitVec 29) (h : BitVec 1)
  | fwriteByte (b : Name) (k : BitVec 29) (value : ValueWord)
  | fset (b : Name) (o : OffsetWord)
  | fclr (b : Name) (o : OffsetWord)
  deriving DecidableEq, Repr, Inhabited

end Sys2Proof
end

