-- ==== Sys2Proof/Config.lean ====
section
/-! DEFINITION. The parameters of R7 as a record, the shape of `LAYOUT`, and the free values of the response port.
The default values stand in Machine/Layout.lean. -/

namespace Sys2Proof

/-- Where an integer field stands: its first bit offset (R10) and its width. -/
structure FieldLoc where
  off   : Nat
  width : Nat
  deriving DecidableEq, Repr, Inhabited

/-- Where a byte-sequence field stands: its first byte and its length. -/
structure BytesLoc where
  byte : Nat
  len  : Nat
  deriving DecidableEq, Repr, Inhabited

/-- `LAYOUT` (R9): one parameter that gives the place of every field of every block type and pack. The fields of a
pack view are placed by their bit offset from the pack's first bit. -/
structure Layout where
  int      : IntField → FieldLoc
  bytes    : BytesField → BytesLoc
  packByte : PackSlot → Nat
  tc       : TcField → FieldLoc
  recdate  : RecdateField → FieldLoc
  rectime  : RectimeField → FieldLoc
  sctMap   : Nat → Option BlockType
  packKind : Nat → PackKind
  order    : BlockType → List RawField

/-- The parameters of R7. (`STD` is an operand of each request.) `BLOCK_BYTES` may depend on the standard
(92_eei_decisions.md P1). The port widths are inherited from `PortWidths`. -/
structure Params extends PortWidths where
  blockBytes  : Std → Nat
  wMin        : Nat
  wMax        : Nat
  maxBufBytes : Nat
  numDseq     : Std → Nat
  numDbn      : BlockType → Nat
  maxFrame    : Std → Nat
  layout      : Layout

/-! The contents of a response port field that no operation has named, and of the whole port before the first response,
are any value (93_implementation_defined.md I18, I20): free values, indexed by the number of responses so far. -/

/-- FREE VALUE: the status port before the first response. -/
opaque Config.freeStatus : Nat → StatusWord

/-- FREE VALUE: the result port where the last response names no result. -/
opaque Config.freeResult : Nat → ResultWord

/-- FREE VALUE: the data port where the last response names no data. -/
opaque Config.freeData : Nat → Bytes

/-- FREE VALUE: the decode port where the last response names no decode result. -/
opaque Config.freeDecode : Nat → DecodeResult

end Sys2Proof
end

