-- ==== Sys2Proof/Machine/Layout.lean ====
section
/-! DEFINITION. The default parameters of R7 and the default `LAYOUT`: the tables of 30_encoding.md and
42_section_decoders.md, field by field. -/

namespace Sys2Proof.Machine

/-- The ID fields (R54). -/
def idLoc : IdField → FieldLoc
  | .sct  => ⟨0, 3⟩
  | .res0 => ⟨3, 1⟩
  | .seq  => ⟨4, 4⟩
  | .dseq => ⟨8, 4⟩
  | .fsc  => ⟨12, 1⟩
  | .res1 => ⟨13, 3⟩
  | .dbn  => ⟨16, 8⟩

/-- The Header fields (R59, R117). -/
def headerLoc : HeaderField → FieldLoc
  | .dsf  => ⟨24, 1⟩
  | .zero => ⟨25, 1⟩
  | .res3 => ⟨26, 6⟩
  | .res4 => ⟨32, 5⟩
  | .apt  => ⟨37, 3⟩
  | .tf1  => ⟨40, 1⟩
  | .res5 => ⟨41, 4⟩
  | .ap1  => ⟨45, 3⟩
  | .tf2  => ⟨48, 1⟩
  | .res6 => ⟨49, 4⟩
  | .ap2  => ⟨53, 3⟩
  | .tf3  => ⟨56, 1⟩
  | .res7 => ⟨57, 4⟩
  | .ap3  => ⟨61, 3⟩

/-- The first byte of SSYB `k` (R55, R118). -/
def ssybByte (k : Fin 6) : Nat := 3 + 8 * k.val

/-- The fields of SSYB `k` outside its pack (R58, R120). -/
def ssybLoc (k : Fin 6) : SsybField → FieldLoc
  | .fr    => ⟨8 * ssybByte k, 1⟩
  | .ap    => ⟨8 * ssybByte k + 1, 3⟩
  | .id0lo => ⟨8 * ssybByte k + 4, 4⟩
  | .id1hi => ⟨8 * ssybByte k + 8, 4⟩
  | .syb   => ⟨8 * ssybByte k + 12, 4⟩
  | .idp   => ⟨8 * ssybByte k + 16, 8⟩

/-- The first byte of the pack in a slot (R118, R121, R123). -/
def packByte : PackSlot → Nat
  | .ssyb k => ssybByte k + 3
  | .vaux i => 3 + 5 * i.val
  | .aaux   => 3

/-- The index of a byte within its pack (R57). -/
def packByteIndex : PackByte → Nat
  | .pc0 => 0
  | .pc1 => 1
  | .pc2 => 2
  | .pc3 => 3
  | .pc4 => 4

/-- The Video fields (R60, R126). -/
def videoLoc : VideoField → FieldLoc
  | .sta => ⟨24, 4⟩
  | .qno => ⟨28, 4⟩

/-- Every integer field. -/
def intLoc : IntField → FieldLoc
  | .id f        => idLoc f
  | .header f    => headerLoc f
  | .ssyb k f    => ssybLoc k f
  | .pack slot b => ⟨8 * (packByte slot + packByteIndex b), 8⟩
  | .video f     => videoLoc f

/-- Every byte-sequence field (R55). -/
def bytesLoc : BytesField → BytesLoc
  | .headerTail   => ⟨8, 72⟩
  | .subcodeTail  => ⟨51, 29⟩
  | .vauxTail     => ⟨78, 2⟩
  | .audioSamples => ⟨8, 72⟩
  | .videoData    => ⟨4, 76⟩

/-- The time code fields, from the pack's first bit (R130). -/
def tcLoc : TcField → FieldLoc
  | .cf      => ⟨8, 1⟩
  | .df      => ⟨9, 1⟩
  | .frames  => ⟨10, 6⟩
  | .pc      => ⟨16, 1⟩
  | .seconds => ⟨17, 7⟩
  | .bgf0    => ⟨24, 1⟩
  | .minutes => ⟨25, 7⟩
  | .bgf2    => ⟨32, 1⟩
  | .bgf1    => ⟨33, 1⟩
  | .hours   => ⟨34, 6⟩

/-- The recording date fields, from the pack's first bit (R133). -/
def recdateLoc : RecdateField → FieldLoc
  | .ds    => ⟨8, 1⟩
  | .tm    => ⟨9, 1⟩
  | .tz    => ⟨10, 6⟩
  | .resd  => ⟨16, 2⟩
  | .day   => ⟨18, 6⟩
  | .week  => ⟨24, 3⟩
  | .month => ⟨27, 5⟩
  | .year  => ⟨32, 8⟩

/-- The recording time fields, from the pack's first bit (R136). -/
def rectimeLoc : RectimeField → FieldLoc
  | .resf    => ⟨8, 2⟩
  | .frames  => ⟨10, 6⟩
  | .ress    => ⟨16, 1⟩
  | .seconds => ⟨17, 7⟩
  | .resm    => ⟨24, 1⟩
  | .minutes => ⟨25, 7⟩
  | .resh    => ⟨32, 2⟩
  | .hours   => ⟨34, 6⟩

/-- The block-type map (R56): 0b101, 0b110 and 0b111 have no mapping (R66). -/
def sctMap : Nat → Option BlockType
  | 0 => some .header
  | 1 => some .subcode
  | 2 => some .vaux
  | 3 => some .audio
  | 4 => some .video
  | _ => none

/-- The view a PC0 selects (R57); every PC0 the table does not name is `raw` (R68). -/
def packKind (pc0 : Nat) : PackKind :=
  if pc0 = 0x13 then .tc
  else if pc0 = 0x62 then .recdate
  else if pc0 = 0x63 then .rectime
  else if pc0 = 0xFF then .noinfo
  else .raw

/-- The raw fields of one pack, by increasing bit offset. -/
def packFields (slot : PackSlot) : List RawField :=
  [.int (.pack slot .pc0), .int (.pack slot .pc1), .int (.pack slot .pc2), .int (.pack slot .pc3),
   .int (.pack slot .pc4)]

/-- The raw fields of SSYB `k`, by increasing bit offset. -/
def ssybFields (k : Fin 6) : List RawField :=
  [.int (.ssyb k .fr), .int (.ssyb k .ap), .int (.ssyb k .id0lo), .int (.ssyb k .id1hi),
   .int (.ssyb k .syb), .int (.ssyb k .idp)] ++ packFields (.ssyb k)

/-- The ID fields, by increasing bit offset (R54). -/
def idFields : List RawField :=
  [.int (.id .sct), .int (.id .res0), .int (.id .seq), .int (.id .dseq), .int (.id .fsc),
   .int (.id .res1), .int (.id .dbn)]

/-- The SSYB numbers, in order. -/
def ssybIndices : List (Fin 6) := [0, 1, 2, 3, 4, 5]

/-- The VAUX pack positions, in order. -/
def vauxIndices : List (Fin 15) := [0, 1, 2, 3, 4, 5, 6, 7, 8, 9, 10, 11, 12, 13, 14]

/-- The body fields of a block type, by increasing bit offset (R55). -/
def bodyFields : BlockType → List RawField
  | .header =>
    [.int (.header .dsf), .int (.header .zero), .int (.header .res3), .int (.header .res4),
     .int (.header .apt), .int (.header .tf1), .int (.header .res5), .int (.header .ap1),
     .int (.header .tf2), .int (.header .res6), .int (.header .ap2), .int (.header .tf3),
     .int (.header .res7), .int (.header .ap3), .bytes .headerTail]
  | .subcode => ssybIndices.flatMap ssybFields ++ [.bytes .subcodeTail]
  | .vaux    => vauxIndices.flatMap (fun i => packFields (.vaux i)) ++ [.bytes .vauxTail]
  | .audio   => packFields .aaux ++ [.bytes .audioSamples]
  | .video   => [.int (.video .sta), .int (.video .qno), .bytes .videoData]

/-- The default `LAYOUT` (R9): consumer DV25. -/
abbrev defaultLayout : Layout where
  int      := intLoc
  bytes    := bytesLoc
  packByte := packByte
  tc       := tcLoc
  recdate  := recdateLoc
  rectime  := rectimeLoc
  sctMap   := sctMap
  packKind := packKind
  order    := fun t => idFields ++ bodyFields t

/-- `NUM_DSEQ` (R7): NTSC 10, PAL 12. -/
def numDseq : Std → Nat
  | .ntsc => 10
  | .pal  => 12

/-- `NUM_DBN` (R7): Header 1, Subcode 2, VAUX 3, Audio 9, Video 135. -/
def numDbn : BlockType → Nat
  | .header  => 1
  | .subcode => 2
  | .vaux    => 3
  | .audio   => 9
  | .video   => 135

/-- `MAX_FRAME` (R7): NTSC 29, PAL 24. -/
def maxFrame : Std → Nat
  | .ntsc => 29
  | .pal  => 24

/-- The parameters at the defaults of R7; the machine is built with them. -/
abbrev params : Params where
  toPortWidths := portWidths
  blockBytes  := fun _ => 80
  wMin        := 1
  wMax        := 32
  maxBufBytes := 2 ^ 29
  numDseq     := numDseq
  numDbn      := numDbn
  maxFrame    := maxFrame
  layout      := defaultLayout

end Sys2Proof.Machine
end

