-- ==== Sys2Proof/Machine/Fields.lean ====
section
/-! DEFINITION. The fields of blocks and records by name: reading a field of a block at its place in `LAYOUT` (R92),
reading and replacing a raw field of a record (R100, R71), and the dotted name of a field (R13). -/

namespace Sys2Proof.Machine

/-- An integer field of a block: the bits `FREAD.U` reads at the field's offset and width (R92). -/
def readInt (P : Params) (blk : Bytes) (f : IntField) : Nat :=
  fieldBits blk (P.layout.int f).off (P.layout.int f).width

/-- A byte-sequence field of a block, taken by `MemRead` (R39). -/
def readBytes (P : Params) (blk : Bytes) (f : BytesField) : Bytes :=
  memRead blk (P.layout.bytes f).byte (P.layout.bytes f).len

/-! ## Raw fields of a record -/

/-- A raw ID field. -/
def idGet (i : BlockId) : IdField → Nat
  | .sct  => i.sct
  | .res0 => i.res0
  | .seq  => i.seq
  | .dseq => i.dseq
  | .fsc  => i.fsc
  | .res1 => i.res1
  | .dbn  => i.dbn

/-- The ID fields with one replaced. -/
def idSet (i : BlockId) (f : IdField) (v : Nat) : BlockId :=
  match f with
  | .sct  => { i with sct := v }
  | .res0 => { i with res0 := v }
  | .seq  => { i with seq := v }
  | .dseq => { i with dseq := v }
  | .fsc  => { i with fsc := v }
  | .res1 => { i with res1 := v }
  | .dbn  => { i with dbn := v }

/-- A raw Header field. -/
def headerGet (h : HeaderBody) : HeaderField → Nat
  | .dsf  => h.dsf
  | .zero => h.zero
  | .res3 => h.res3
  | .res4 => h.res4
  | .apt  => h.apt
  | .tf1  => h.tf1
  | .res5 => h.res5
  | .ap1  => h.ap1
  | .tf2  => h.tf2
  | .res6 => h.res6
  | .ap2  => h.ap2
  | .tf3  => h.tf3
  | .res7 => h.res7
  | .ap3  => h.ap3

/-- The Header body with one field replaced. -/
def headerSet (h : HeaderBody) (f : HeaderField) (v : Nat) : HeaderBody :=
  match f with
  | .dsf  => { h with dsf := v }
  | .zero => { h with zero := v }
  | .res3 => { h with res3 := v }
  | .res4 => { h with res4 := v }
  | .apt  => { h with apt := v }
  | .tf1  => { h with tf1 := v }
  | .res5 => { h with res5 := v }
  | .ap1  => { h with ap1 := v }
  | .tf2  => { h with tf2 := v }
  | .res6 => { h with res6 := v }
  | .ap2  => { h with ap2 := v }
  | .tf3  => { h with tf3 := v }
  | .res7 => { h with res7 := v }
  | .ap3  => { h with ap3 := v }

/-- A byte of a pack. -/
def packGet (p : Pack) : PackByte → Nat
  | .pc0 => p.pc0
  | .pc1 => p.pc1
  | .pc2 => p.pc2
  | .pc3 => p.pc3
  | .pc4 => p.pc4

/-- The pack with one byte replaced. -/
def packSet (p : Pack) (b : PackByte) (v : Nat) : Pack :=
  match b with
  | .pc0 => { p with pc0 := v }
  | .pc1 => { p with pc1 := v }
  | .pc2 => { p with pc2 := v }
  | .pc3 => { p with pc3 := v }
  | .pc4 => { p with pc4 := v }

/-- A raw field of an SSYB outside its pack. -/
def ssybGet (s : Ssyb) : SsybField → Nat
  | .fr    => s.fr
  | .ap    => s.ap
  | .id0lo => s.id0lo
  | .id1hi => s.id1hi
  | .syb   => s.syb
  | .idp   => s.idp

/-- The SSYB with one field outside its pack replaced. -/
def ssybSet (s : Ssyb) (f : SsybField) (v : Nat) : Ssyb :=
  match f with
  | .fr    => { s with fr := v }
  | .ap    => { s with ap := v }
  | .id0lo => { s with id0lo := v }
  | .id1hi => { s with id1hi := v }
  | .syb   => { s with syb := v }
  | .idp   => { s with idp := v }

/-- The pack in a slot of a body, if the body has that slot. -/
def slotPack : Body → PackSlot → Option Pack
  | .subcode b, .ssyb k => some b.ssyb[k].pack
  | .vaux b, .vaux i    => some b.pack[i]
  | .audio b, .aaux     => some b.aaux
  | _, _                => none

/-- An integer field of a record, if the record's body has it. -/
def recGetInt (r : DecodedBlock) : IntField → Option Nat
  | .id f => some (idGet r.id f)
  | .header f =>
    match r.body with
    | .header b => some (headerGet b f)
    | _ => none
  | .ssyb k f =>
    match r.body with
    | .subcode b => some (ssybGet b.ssyb[k] f)
    | _ => none
  | .pack slot b => (slotPack r.body slot).map fun p => packGet p b
  | .video f =>
    match r.body, f with
    | .video b, .sta => some b.sta
    | .video b, .qno => some b.qno
    | _, _ => none

/-- A byte-sequence field of a record, if the record's body has it. -/
def recGetBytes (r : DecodedBlock) (f : BytesField) : Option Bytes :=
  match r.body, f with
  | .header b, .headerTail   => some b.tail
  | .subcode b, .subcodeTail => some b.tail
  | .vaux b, .vauxTail       => some b.tail
  | .audio b, .audioSamples  => some b.samples
  | .video b, .videoData     => some b.data
  | _, _                     => none

/-- The body with the pack in a slot changed, if the body has that slot. -/
def mapSlot (body : Body) (slot : PackSlot) (g : Pack → Pack) : Option Body :=
  match body, slot with
  | .subcode b, .ssyb k =>
    some (.subcode { b with ssyb := b.ssyb.set k { b.ssyb[k] with pack := g b.ssyb[k].pack } })
  | .vaux b, .vaux i => some (.vaux { b with pack := b.pack.set i (g b.pack[i]) })
  | .audio b, .aaux  => some (.audio { b with aaux := g b.aaux })
  | _, _             => none

/-- The record with one integer field replaced (R71), if the body has it. -/
def recSetInt (r : DecodedBlock) (f : IntField) (v : Nat) : Option DecodedBlock :=
  match f with
  | .id f => some { r with id := idSet r.id f v }
  | .header f =>
    match r.body with
    | .header b => some { r with body := .header (headerSet b f v) }
    | _ => none
  | .ssyb k f =>
    match r.body with
    | .subcode b => some { r with body := .subcode { b with ssyb := b.ssyb.set k (ssybSet b.ssyb[k] f v) } }
    | _ => none
  | .pack slot b => (mapSlot r.body slot fun p => packSet p b v).map fun body => { r with body := body }
  | .video f =>
    match r.body, f with
    | .video b, .sta => some { r with body := .video { b with sta := v } }
    | .video b, .qno => some { r with body := .video { b with qno := v } }
    | _, _ => none

/-- The record with one byte-sequence field replaced (R71), if the body has it. -/
def recSetBytes (r : DecodedBlock) (f : BytesField) (v : Bytes) : Option DecodedBlock :=
  match r.body, f with
  | .header b, .headerTail   => some { r with body := .header { b with tail := v } }
  | .subcode b, .subcodeTail => some { r with body := .subcode { b with tail := v } }
  | .vaux b, .vauxTail       => some { r with body := .vaux { b with tail := v } }
  | .audio b, .audioSamples  => some { r with body := .audio { b with samples := v } }
  | .video b, .videoData     => some { r with body := .video { b with data := v } }
  | _, _                     => none

/-- The five bytes of a pack as a buffer (each taken modulo 256; a decoded pack's bytes are below 256). -/
def packBytes (p : Pack) : Bytes :=
  [BitVec.ofNat 8 p.pc0, BitVec.ofNat 8 p.pc1, BitVec.ofNat 8 p.pc2, BitVec.ofNat 8 p.pc3, BitVec.ofNat 8 p.pc4]

/-- A pack made of five bytes. -/
def packOf (pc0 pc1 pc2 pc3 pc4 : Byte) : Pack :=
  ⟨pc0.toNat, pc1.toNat, pc2.toNat, pc3.toNat, pc4.toNat⟩

/-- A field of a pack, given its place from the pack's first bit. -/
def packField (p : Pack) (loc : FieldLoc) : Nat := fieldBits (packBytes p) loc.off loc.width

/-! ## Dotted field names (R13) -/

/-- The name of an ID field. -/
def idName : IdField → String
  | .sct  => "sct"
  | .res0 => "res0"
  | .seq  => "seq"
  | .dseq => "dseq"
  | .fsc  => "fsc"
  | .res1 => "res1"
  | .dbn  => "dbn"

/-- The name of a Header field. -/
def headerName : HeaderField → String
  | .dsf  => "dsf"
  | .zero => "zero"
  | .res3 => "res3"
  | .res4 => "res4"
  | .apt  => "apt"
  | .tf1  => "tf1"
  | .res5 => "res5"
  | .ap1  => "ap1"
  | .tf2  => "tf2"
  | .res6 => "res6"
  | .ap2  => "ap2"
  | .tf3  => "tf3"
  | .res7 => "res7"
  | .ap3  => "ap3"

/-- The name of an SSYB field. -/
def ssybName : SsybField → String
  | .fr    => "fr"
  | .ap    => "ap"
  | .id0lo => "id0lo"
  | .id1hi => "id1hi"
  | .syb   => "syb"
  | .idp   => "idp"

/-- The name of a pack byte. -/
def packByteName : PackByte → String
  | .pc0 => "pc0"
  | .pc1 => "pc1"
  | .pc2 => "pc2"
  | .pc3 => "pc3"
  | .pc4 => "pc4"

/-- The path of the pack in a slot (R120, R122, R124). -/
def slotName : PackSlot → String
  | .ssyb k => "subcode.ssyb[" ++ toString k.val ++ "].pack"
  | .vaux i => "vaux.pack[" ++ toString i.val ++ "]"
  | .aaux   => "audio.aaux"

/-- The name of a time code field. -/
def tcName : TcField → String
  | .cf      => "cf"
  | .df      => "df"
  | .frames  => "frames"
  | .pc      => "pc"
  | .seconds => "seconds"
  | .bgf0    => "bgf0"
  | .minutes => "minutes"
  | .bgf2    => "bgf2"
  | .bgf1    => "bgf1"
  | .hours   => "hours"

/-- The name of a recording date field. -/
def recdateName : RecdateField → String
  | .ds    => "ds"
  | .tm    => "tm"
  | .tz    => "tz"
  | .resd  => "resd"
  | .day   => "day"
  | .week  => "week"
  | .month => "month"
  | .year  => "year"

/-- The name of a recording time field. -/
def rectimeName : RectimeField → String
  | .resf    => "resf"
  | .frames  => "frames"
  | .ress    => "ress"
  | .seconds => "seconds"
  | .resm    => "resm"
  | .minutes => "minutes"
  | .resh    => "resh"
  | .hours   => "hours"

/-- The dotted field name of a path (R13), for example `vaux.pack[3].recdate.day`. -/
def pathName : FieldPath → String
  | .raw (.int (.id f))         => "id." ++ idName f
  | .raw (.int (.header f))     => "header." ++ headerName f
  | .raw (.int (.ssyb k f))     => "subcode.ssyb[" ++ toString k.val ++ "]." ++ ssybName f
  | .raw (.int (.pack slot b))  => slotName slot ++ "." ++ packByteName b
  | .raw (.int (.video .sta))   => "video.sta"
  | .raw (.int (.video .qno))   => "video.qno"
  | .raw (.bytes .headerTail)   => "header.tail"
  | .raw (.bytes .subcodeTail)  => "subcode.tail"
  | .raw (.bytes .vauxTail)     => "vaux.tail"
  | .raw (.bytes .audioSamples) => "audio.samples"
  | .raw (.bytes .videoData)    => "video.data"
  | .tc slot f                  => slotName slot ++ ".tc." ++ tcName f
  | .recdate slot f             => slotName slot ++ ".recdate." ++ recdateName f
  | .rectime slot f             => slotName slot ++ ".rectime." ++ rectimeName f

end Sys2Proof.Machine
end

