-- ==== Sys2Proof/Machine/Flags.lean ====
section
/-! DEFINITION. The block has no status flags (R24): what an operation reports is its response. This file holds the status
codes (R161), the building of responses (R51, R82, R162, R163), which is the block's whole error mechanism (R160, R166),
and the flagging of violations (R12, R13). -/

namespace Sys2Proof.Machine

/-- The status codes (R161). -/
def statusCode : Status → StatusWord
  | .ok                        => 0
  | .error .boundsError        => 1
  | .error .rangeError         => 2
  | .error .unknownBlockType   => 3
  | .error .malformedField     => 4
  | .error .crossCheckMismatch => 5
  | .error .resyncExhausted    => 6
  | .refused .illegalOp        => 8
  | .refused .widthError       => 9
  | .refused .bufTooLong       => 10
  | .refused .lengthError      => 11
  | .refused .badRecord        => 12

/-- The status a code names; 7 and 13 to 15 are reserved (R161). -/
def statusOf (c : StatusWord) : Option Status :=
  if c = 0 then some .ok
  else if c = 1 then some (.error .boundsError)
  else if c = 2 then some (.error .rangeError)
  else if c = 3 then some (.error .unknownBlockType)
  else if c = 4 then some (.error .malformedField)
  else if c = 5 then some (.error .crossCheckMismatch)
  else if c = 6 then some (.error .resyncExhausted)
  else if c = 8 then some (.refused .illegalOp)
  else if c = 9 then some (.refused .widthError)
  else if c = 10 then some (.refused .bufTooLong)
  else if c = 11 then some (.refused .lengthError)
  else if c = 12 then some (.refused .badRecord)
  else none

/-- The statuses the block may report (R161): not `MalformedField`, `CrossCheckMismatch` or `ResyncExhausted`. -/
def statusRaised : Status → Bool
  | .ok                        => true
  | .error .boundsError        => true
  | .error .rangeError         => true
  | .error .unknownBlockType   => true
  | .error .malformedField     => false
  | .error .crossCheckMismatch => false
  | .error .resyncExhausted    => false
  | .refused _                 => true

/-- A response whose status is a refusal (R163). -/
def isRefusal {W : PortWidths} (r : ResponseOf W) : Bool :=
  match statusOf r.status with
  | some (.refused _) => true
  | _ => false

/-- A response whose status is a code the block may report (R161). -/
def statusLegal {W : PortWidths} (r : ResponseOf W) : Bool :=
  match statusOf r.status with
  | some st => statusRaised st
  | none => false

/-! ## Responses, on ports of any widths -/

/-- `Ok(result)` of a codec read (R79, R80). -/
def okResult {W : PortWidths} (v : BitVec W.resultBits) : ResponseOf W := ⟨statusCode .ok, some v, none, none, none⟩

/-- `Ok(data)` of a codec write or an ENCODE (R82, R150). -/
def okData {W : PortWidths} (d : Bytes) : ResponseOf W := ⟨statusCode .ok, none, some d, none, none⟩

/-- `Decoded(block, violations)`: status OK whatever the violations are (R104, R161). -/
def okDecoded {W : PortWidths} (b : DecodedBlock) (vs : List Violation) : ResponseOf W :=
  ⟨statusCode .ok, none, none, some (.decoded b vs), none⟩

/-- `Unreadable(pos, cause, sct)`: the status is the cause (R161). -/
def unreadable {W : PortWidths} (pos : BitVec W.posBits) (cause : ErrorCode) (sct : Option (BitVec 3)) :
    ResponseOf W :=
  ⟨statusCode (.error cause), none, none, some (.unreadable pos cause sct), none⟩

/-- `raise E(info)` of a codec operation or an ENCODE: no result and no buffer (R12, R162). -/
def raised {W : PortWidths} (e : ErrorCode) (info : ErrInfo) : ResponseOf W :=
  ⟨statusCode (.error e), none, none, none, some info⟩

/-- `refuse R`: only the status is returned (R163). -/
def refusal {W : PortWidths} (r : RefusalReason) : ResponseOf W := ⟨statusCode (.refused r), none, none, none, none⟩

/-- The error code of recorded information (R162). -/
def errorOf : ErrInfo → ErrorCode
  | .bounds _ _ _ => .boundsError
  | .range _ _    => .rangeError
  | .field _ _    => .rangeError

/-- The response of recorded information (R162). -/
def raise {W : PortWidths} (info : ErrInfo) : ResponseOf W := raised (errorOf info) info

/-! ## Violations -/

/-- The violation `MalformedField(field, raw, offset)` (R13). -/
def malformed (field : FieldPath) (raw offset : Nat) : Violation :=
  ⟨.malformedField, field, BitVec.ofNat 32 raw, BitVec.ofNat 32 offset⟩

/-- `if bad: flag MalformedField(field, raw, offset)`, as the list of violations it appends (R12). -/
def flagIf (bad : Bool) (field : FieldPath) (raw offset : Nat) : List Violation :=
  if bad then [malformed field raw offset] else []

/-- `EnumView` (R89). -/
def enumView {α : Type} (raw : Nat) (table : Nat → Option α) : EnumReading α :=
  match table raw with
  | some e => .known e
  | none => .unmapped raw

/-- The check of an enumerated field by a section decoder (R89): an unmapped value is flagged and kept raw. The default
layout has no enumeration with unmapped values but `sct`, which R97 treats otherwise (D24). -/
def enumCheck {α : Type} (field : FieldPath) (raw : Nat) (table : Nat → Option α) (offset : Nat) : List Violation :=
  match enumView raw table with
  | .known _ => []
  | .unmapped raw => [malformed field raw offset]

/-- `BcdView` (R90) of a field of `tw + 4` bits. -/
def bcdView (raw tw : Nat) : BcdReading :=
  if raw >>> 4 = 2 ^ tw - 1 ∧ raw % 16 = 0xF then .absent
  else if 9 < raw % 16 ∨ 9 < raw >>> 4 then .malformed raw
  else .value (10 * (raw >>> 4) + raw % 16)

/-- The typed value of a BCD field with domain `lo .. hi` (R91). -/
def typedBcd (raw tw lo hi : Nat) : TypedBcd :=
  match bcdView raw tw with
  | .absent => .absent
  | .malformed raw => .flagged raw
  | .value n => if lo ≤ n ∧ n ≤ hi then .value n else .flagged raw

/-- The check of a BCD field with domain `lo .. hi` (R91): the violation carries the whole field value and the offset
of the tens digit. -/
def bcdCheck (field : FieldPath) (raw tw lo hi offset : Nat) : List Violation :=
  match typedBcd raw tw lo hi with
  | .flagged raw => [malformed field raw offset]
  | .value _ => []
  | .absent => []

end Sys2Proof.Machine
end

