-- ==== Sys2Proof/WellFormed.lean ====
section
/-! DEFINITION. Which instructions are well formed (their operands fit their row of the opcode table), and which records
fit the layout. -/

namespace Sys2Proof

open Sys2Proof.Machine

/-- The section data of a `DIFID` row: the block less its three ID bytes (R55). -/
def payloadOk (std : Std) (payload : Bytes) : Bool :=
  payload.length + 3 == params.blockBytes std

/-- The PC0 of the `PACK.RAW` row is one that no other `PACK` row matches (R57). -/
def rawPc0Ok (pc0 : Byte) : Bool :=
  params.layout.packKind pc0.toNat == .raw

/-- The checks that types alone do not make. A request's operands may hold any value of their width (the block itself
refuses or answers an error, R76 to R86), so an `RQ` row has none. -/
def Instr.wellFormed : Instr → Bool
  | .freadU _ _ _ => true
  | .freadS _ _ _ => true
  | .fwriteU _ _ _ _ => true
  | .fwriteS _ _ _ _ => true
  | .decode _ _ _ => true
  | .encode _ _ => true
  | .reservedOp67 _ => true
  | .reservedOp8F _ => true
  | .blkHeader std _ _ payload => payloadOk std payload
  | .blkSubcode std _ _ payload => payloadOk std payload
  | .blkVaux std _ _ payload => payloadOk std payload
  | .blkAudio std _ _ payload => payloadOk std payload
  | .blkVideo std _ _ payload => payloadOk std payload
  | .blkUnknown5 std _ _ payload => payloadOk std payload
  | .blkUnknown67 _ std _ _ payload => payloadOk std payload
  | .packTc _ _ _ _ _ _ => true
  | .packRecdate _ _ _ _ _ _ => true
  | .packRectime _ _ _ _ _ _ => true
  | .packNoinfo _ _ _ _ _ _ => true
  | .packRaw _ _ pc0 _ _ _ _ => rawPc0Ok pc0

/-- A raw field of a record fits its width or length (R152, R154). -/
def fieldFits (P : Params) (r : DecodedBlock) : RawField → Bool
  | .int f =>
    match recGetInt r f with
    | some v => decide (v < 2 ^ (P.layout.int f).width)
    | none => false
  | .bytes f =>
    match recGetBytes r f with
    | some v => v.length == (P.layout.bytes f).len
    | none => false

/-- The body's constructor agrees with a mapped `sct` (R99, R150). -/
def recordMatches (P : Params) (r : DecodedBlock) : Bool :=
  P.layout.sctMap r.id.sct == some r.body.type

/-- A record ENCODE accepts (R154): its body agrees with its `sct` and its every field fits. -/
def recordFits (P : Params) (r : DecodedBlock) : Bool :=
  recordMatches P r && (P.layout.order r.body.type).all (fieldFits P r)

end Sys2Proof
end

