-- ==== Sys2Proof/Decode.lean ====
section
/-! DEFINITION. The instruction decoder, total on everything that can be presented and rejecting by name, and the
encoder of a well-formed instruction. Format `RQ` is 30_encoding.md R50 to R53; `DIFID` is R54 and R56; `PACK` is R57. -/

namespace Sys2Proof

open Sys2Proof.Machine

/-- Why a presented item is no instruction. Only an item of one of the two inner formats can be rejected. -/
inductive DecodeError where
  /-- A DIF block presented by itself is not `BLOCK_BYTES` long (safe: nothing is run). -/
  | blockLength (n : Nat)
  /-- A pack presented by itself is not 5 bytes long (safe: nothing is run). -/
  | packLength (n : Nat)
  deriving DecidableEq, Repr, Inhabited

/-- `std` on the request port (R50): 0 = NTSC, 1 = PAL. -/
def stdOf (b : BitVec 1) : Std := if b = 0 then .ntsc else .pal

/-- The port bit of a standard (R50). -/
def stdBit : Std → BitVec 1
  | .ntsc => 0
  | .pal  => 1

/-- Decode a request by its `op` (R52). Fields the operation does not read are dropped (R50, R53). -/
def decodeRequest (r : Request) : Instr :=
  if r.op = 0x0 then .freadU r.width r.offset r.data
  else if r.op = 0x1 then .freadS r.width r.offset r.data
  else if r.op = 0x2 then .fwriteU r.width r.offset r.value r.data
  else if r.op = 0x3 then .fwriteS r.width r.offset r.value r.data
  else if r.op = 0x4 then .decode (stdOf r.std) r.pos r.data
  else if r.op = 0x5 then .encode (stdOf r.std) r.record
  else if r.op.toNat < 8 then .reservedOp67 (r.op.setWidth 1)
  else .reservedOp8F (r.op.setWidth 3)

/-- The ID fields below `sct` of a block (R54). -/
def idOperandsOf (blk : Bytes) : IdOperands where
  res0 := BitVec.ofNat 1 (readInt params blk (.id .res0))
  seq  := BitVec.ofNat 4 (readInt params blk (.id .seq))
  dseq := BitVec.ofNat 4 (readInt params blk (.id .dseq))
  fsc  := BitVec.ofNat 1 (readInt params blk (.id .fsc))
  res1 := BitVec.ofNat 3 (readInt params blk (.id .res1))
  dbn  := BitVec.ofNat 8 (readInt params blk (.id .dbn))

/-- Decode a DIF block by its `sct` (R56, R66). -/
def decodeBlockItem (std : Std) (pos : PosWord) (blk : Bytes) : Except DecodeError Instr :=
  if blk.length ≠ params.blockBytes std then .error (.blockLength blk.length)
  else
    let sct := readInt params blk (.id .sct)
    let id := idOperandsOf blk
    let payload := blk.drop 3
    match params.layout.sctMap sct with
    | some .header  => .ok (.blkHeader std pos id payload)
    | some .subcode => .ok (.blkSubcode std pos id payload)
    | some .vaux    => .ok (.blkVaux std pos id payload)
    | some .audio   => .ok (.blkAudio std pos id payload)
    | some .video   => .ok (.blkVideo std pos id payload)
    | none =>
      if sct = 5 then .ok (.blkUnknown5 std pos id payload)
      else .ok (.blkUnknown67 (BitVec.ofNat 1 sct) std pos id payload)

/-- Decode a pack by its PC0 (R57); the `PACK.RAW` row has the lowest priority. -/
def decodePackItem (std : Std) (slot : PackSlot) : Bytes → Except DecodeError Instr
  | [pc0, pc1, pc2, pc3, pc4] =>
    match params.layout.packKind pc0.toNat with
    | .tc      => .ok (.packTc std slot pc1 pc2 pc3 pc4)
    | .recdate => .ok (.packRecdate std slot pc1 pc2 pc3 pc4)
    | .rectime => .ok (.packRectime std slot pc1 pc2 pc3 pc4)
    | .noinfo  => .ok (.packNoinfo std slot pc1 pc2 pc3 pc4)
    | .raw     => .ok (.packRaw std slot pc0 pc1 pc2 pc3 pc4)
  | bytes => .error (.packLength bytes.length)

/-- The decoder. -/
def decode : Presented → Except DecodeError Instr
  | .request r            => .ok (decodeRequest r)
  | .block std pos bytes  => decodeBlockItem std pos bytes
  | .pack std slot bytes  => decodePackItem std slot bytes

/-! ## Encoder -/

/-- The record of a request that names none: a Header record of zeros with the 72-byte tail of zeros (R71). -/
def zeroRecord : DecodedBlock :=
  ⟨⟨0, 0, 0, 0, 0, 0, 0⟩, .header ⟨0, 0, 0, 0, 0, 0, 0, 0, 0, 0, 0, 0, 0, 0, List.replicate 72 0⟩⟩

/-- A request whose every field is 0 or empty (R71). -/
def zeroRequest : Request := ⟨0, 0, 0, 0, 0, 0, [], zeroRecord⟩

/-- The three ID bytes of format `DIFID` (R54), the fields put in place one by one. -/
def idBytes (sct : Nat) (id : IdOperands) : Bytes :=
  [(IdField.sct, sct), (.res0, id.res0.toNat), (.seq, id.seq.toNat), (.dseq, id.dseq.toNat),
   (.fsc, id.fsc.toNat), (.res1, id.res1.toNat), (.dbn, id.dbn.toNat)].foldl
    (fun buf fv => putBits buf (params.layout.int (.id fv.1)).off (params.layout.int (.id fv.1)).width fv.2)
    [0, 0, 0]

/-- The encoder: what is presented to have an instruction run. -/
def encode : Instr → Presented
  | .freadU w o d => .request { zeroRequest with op := 0x0, width := w, offset := o, data := d }
  | .freadS w o d => .request { zeroRequest with op := 0x1, width := w, offset := o, data := d }
  | .fwriteU w o v d => .request { zeroRequest with op := 0x2, width := w, offset := o, value := v, data := d }
  | .fwriteS w o v d => .request { zeroRequest with op := 0x3, width := w, offset := o, value := v, data := d }
  | .decode std pos d => .request { zeroRequest with op := 0x4, std := stdBit std, pos := pos, data := d }
  | .encode std rcd => .request { zeroRequest with op := 0x5, std := stdBit std, record := rcd }
  | .reservedOp67 b => .request { zeroRequest with op := 0b011#3 ++ b }
  | .reservedOp8F b => .request { zeroRequest with op := 0b1#1 ++ b }
  | .blkHeader std pos id payload => .block std pos (idBytes 0 id ++ payload)
  | .blkSubcode std pos id payload => .block std pos (idBytes 1 id ++ payload)
  | .blkVaux std pos id payload => .block std pos (idBytes 2 id ++ payload)
  | .blkAudio std pos id payload => .block std pos (idBytes 3 id ++ payload)
  | .blkVideo std pos id payload => .block std pos (idBytes 4 id ++ payload)
  | .blkUnknown5 std pos id payload => .block std pos (idBytes 5 id ++ payload)
  | .blkUnknown67 b std pos id payload => .block std pos (idBytes (6 + b.toNat) id ++ payload)
  | .packTc std slot a b c d => .pack std slot [0x13, a, b, c, d]
  | .packRecdate std slot a b c d => .pack std slot [0x62, a, b, c, d]
  | .packRectime std slot a b c d => .pack std slot [0x63, a, b, c, d]
  | .packNoinfo std slot a b c d => .pack std slot [0xFF, a, b, c, d]
  | .packRaw std slot p a b c d => .pack std slot [p, a, b, c, d]

/-! ## Words numbered as spec/opcode_table.json numbers them -/

/-- What a table word of `nbits` bits presents. An `RQ` row gives the 4-bit `op` (one byte, its upper half zero); a
`PACK` row gives PC0 (one byte; no `PACK` row with fixed bits has a PC0 below 16), or all five bytes, PC0 first; a
`DIFID` row gives the three ID bytes, ID0 in bits 23 to 16. Every operand the table gives no bits is zero: std NTSC,
pos 0, 80 data bytes of zero, the all-zero Header record, slot `aaux` (DESIGN CHOICE, notes/assumptions/10.md). -/
def tableItem (nbits w : Nat) : Presented :=
  if nbits ≤ 8 then
    if w < 16 then .request { zeroRequest with op := BitVec.ofNat 4 w, data := List.replicate 80 0 }
    else .pack .ntsc .aaux [BitVec.ofNat 8 w, 0, 0, 0, 0]
  else if nbits ≤ 24 then
    .block .ntsc 0
      ([BitVec.ofNat 8 (w / 2 ^ 16), BitVec.ofNat 8 (w / 2 ^ 8), BitVec.ofNat 8 w] ++ List.replicate 77 0)
  else
    .pack .ntsc .aaux
      [BitVec.ofNat 8 (w / 2 ^ 32), BitVec.ofNat 8 (w / 2 ^ 24), BitVec.ofNat 8 (w / 2 ^ 16),
       BitVec.ofNat 8 (w / 2 ^ 8), BitVec.ofNat 8 w]

/-- The instruction the decoder reads from a table word; none where it rejects. -/
def decodeTableWord (nbits w : Nat) : Option Instr :=
  match decode (tableItem nbits w) with
  | .ok i => some i
  | .error _ => none

end Sys2Proof
end

