-- ==== Sys2Proof/Machine/State.lean ====
section
/-! DEFINITION. The state of the machine: the ports of the block, which holds no other state (R20 to R32), and the host
harness around it (R33). The reasons a step can stop. -/

namespace Sys2Proof.Machine

/-- The operand buffers the host holds: name and bytes, in one canonical form (`Memory.wf`): names strictly rising.
A name that is not listed is no buffer. -/
abbrev Memory := List (Name × Bytes)

/-- The canonical form: names strictly rising. -/
abbrev Memory.wf (m : Memory) : Prop := (m.map Prod.fst).Pairwise (· < ·)

/-- Why the harness cannot make a request of a program line, or an item is no instruction. Every one is raised by
`step` before anything is presented to the block, and never by the meaning of an instruction. -/
inductive Fault where
  /-- Raised by `step` for a line that reads a buffer that does not exist (safe: the machine stops). -/
  | noSuchBuffer (b : Name)
  /-- Raised by `step` for `@n` where response `n` is none of the log or holds no DecodedBlock (safe). -/
  | noSuchRecord (n : Nat)
  /-- Raised by `step` for `@n{field=value}` where the record has no such field (safe). -/
  | noSuchField (f : RawField)
  /-- Raised by `step` for an item the decoder rejects by name (safe). -/
  | undecodable (e : DecodeError)
  deriving DecidableEq, Repr

/-- Why an instruction has no meaning in the model. The refusals of R163 are none of these: they are responses. -/
inductive Refusal where
  /-- Raised by an arm of `exec` for an instruction without a meaning yet (safe: the machine stops). -/
  | notModelled (mnemonic : String)
  deriving DecidableEq, Repr

/-- The machine. -/
structure State where
  /-- The request port (R32): the request outstanding, if any. -/
  request  : Option Outstanding
  /-- The response port (R32): the last response, if any is valid. -/
  response : Option Response
  /-- The output of the pack decoder when a pack is presented by itself (the model's own, notes/assumptions/2.md). -/
  packOut  : Option PackResult
  /-- The harness's named buffers, `H.bufs` (R33). -/
  bufs     : Memory
  /-- The harness's list of responses, oldest first, `H.log` (R33). -/
  log      : List Response
  /-- The harness's sticky refusal mark, `H.refused` (R33). -/
  refused  : Bool
  /-- The lines of the program not yet presented (R73). -/
  program  : List Line
  deriving DecidableEq, Repr

/-- After reset (R32, R180) and at a program's start (R34): no request outstanding, no valid response, no buffer, an
empty log, no refusal, and no program (a program is loaded from outside, notes/assumptions/9.md). -/
def State.reset : State where
  request  := none
  response := none
  packOut  := none
  bufs     := []
  log      := []
  refused  := false
  program  := []

end Sys2Proof.Machine
end

