-- ==== Sys2Proof/Machine/Ops.lean ====
section
/-! DEFINITION. The operations over the state: the named buffers, presenting a request, and delivering what the block
answers. Delivery is the one place where an answer of any kind (success, error, refusal) meets the state: the block has
no trap entry and no trap return (R166, R167), an error is a response like any other and the next request is served. -/

namespace Sys2Proof.Machine

/-! ## The named buffers -/

/-- `bufs[b]`, if there is such a buffer. -/
def Memory.get? : Memory → Name → Option Bytes
  | [], _ => none
  | (n, d) :: m, b => if n = b then some d else Memory.get? m b

/-- `bufs[b] <- d`, keeping the canonical form. -/
def Memory.set : Memory → Name → Bytes → Memory
  | [], b, d => [(b, d)]
  | (n, x) :: m, b, d =>
    if b < n then (b, d) :: (n, x) :: m
    else if b = n then (b, d) :: m
    else (n, x) :: Memory.set m b d

/-- Byte `k` of buffer `b`, if it exists. -/
def Memory.byte? (m : Memory) (b : Name) (k : Nat) : Option Byte :=
  (m.get? b).bind fun d => d[k]?

/-- The harness replaces the named buffer by the returned one when there is one (R33, R82); an answer that returns no
buffer leaves every buffer as it was (R40, R151). -/
def Memory.collect (m : Memory) (dest : Option Name) (r : Response) : Memory :=
  match dest, r.data with
  | some b, some d => m.set b d
  | _, _ => m

/-! ## The ports and the harness -/

/-- The buffer that the outstanding request's line names as its destination. -/
def State.dest (s : State) : Option Name := s.request.bind (·.dest)

/-- The host presents an item; only an instance with no request outstanding accepts it (R49). -/
def State.present (s : State) (o : Outstanding) : Option State :=
  match s.request with
  | none => some { s with request := some o }
  | some _ => none

/-- The block answers the outstanding request and the harness takes the answer, in one step (R33, R189): the response
stands on the port and is appended to the log, a refusal sets the sticky mark, a returned buffer replaces the named one,
and no request is outstanding any more. -/
def State.deliver (s : State) (r : Response) : State :=
  { s with
    request  := none
    response := some r
    log      := s.log ++ [r]
    refused  := s.refused || isRefusal r
    bufs     := s.bufs.collect s.dest r }

/-- The pack decoder answers a pack presented by itself (the model's own, notes/assumptions/2.md). -/
def State.deliverPack (s : State) (p : PackResult) : State :=
  { s with request := none, packOut := some p }

/-- Reset is asserted (R180): a request in progress is abandoned without a response and no response is valid. The
harness is the caller's and keeps its state. -/
def State.assertReset (s : State) : State :=
  { s with request := none, response := none, packOut := none }

end Sys2Proof.Machine
end

