-- ==== Sys2Proof/Machine/Packs.lean ====
section
/-! DEFINITION. The pack decoder (42_section_decoders.md, section 6): reading a pack, its checks and its typed view. -/

namespace Sys2Proof.Machine

/-- The raw pack in a slot of a block (R127). -/
def readPack (P : Params) (blk : Bytes) (slot : PackSlot) : Pack where
  pc0 := readInt P blk (.pack slot .pc0)
  pc1 := readInt P blk (.pack slot .pc1)
  pc2 := readInt P blk (.pack slot .pc2)
  pc3 := readInt P blk (.pack slot .pc3)
  pc4 := readInt P blk (.pack slot .pc4)

/-- The bit offset in the block of a pack field, given its place from the pack's first bit. -/
def packOffset (P : Params) (slot : PackSlot) (loc : FieldLoc) : Nat := 8 * P.layout.packByte slot + loc.off

/-- The check of a BCD field of a pack (R91); its tens digit has `width - 4` bits (R64). -/
def packCheck (P : Params) (slot : PackSlot) (p : Pack) (loc : FieldLoc) (path : FieldPath) (lo hi : Nat) :
    List Violation :=
  bcdCheck path (packField p loc) (loc.width - 4) lo hi (packOffset P slot loc)

/-- The typed value of a BCD field of a pack (R91). -/
def packTyped (p : Pack) (loc : FieldLoc) (lo hi : Nat) : TypedBcd :=
  typedBcd (packField p loc) (loc.width - 4) lo hi

/-- The time code checks, in order (R131, R139). -/
def tcChecks (P : Params) (std : Std) (slot : PackSlot) (p : Pack) : List Violation :=
  packCheck P slot p (P.layout.tc .frames) (.tc slot .frames) 0 (P.maxFrame std) ++
  packCheck P slot p (P.layout.tc .seconds) (.tc slot .seconds) 0 59 ++
  packCheck P slot p (P.layout.tc .minutes) (.tc slot .minutes) 0 59 ++
  packCheck P slot p (P.layout.tc .hours) (.tc slot .hours) 0 23

/-- The recording date checks, in order (R134, R139). -/
def recdateChecks (P : Params) (slot : PackSlot) (p : Pack) : List Violation :=
  packCheck P slot p (P.layout.recdate .day) (.recdate slot .day) 1 31 ++
  packCheck P slot p (P.layout.recdate .month) (.recdate slot .month) 1 12 ++
  packCheck P slot p (P.layout.recdate .year) (.recdate slot .year) 0 99

/-- The recording time checks, in order (R137, R139). -/
def rectimeChecks (P : Params) (std : Std) (slot : PackSlot) (p : Pack) : List Violation :=
  packCheck P slot p (P.layout.rectime .frames) (.rectime slot .frames) 0 (P.maxFrame std) ++
  packCheck P slot p (P.layout.rectime .seconds) (.rectime slot .seconds) 0 59 ++
  packCheck P slot p (P.layout.rectime .minutes) (.rectime slot .minutes) 0 59 ++
  packCheck P slot p (P.layout.rectime .hours) (.rectime slot .hours) 0 23

/-- The checks a pack's PC0 selects (R127); a `noinfo` or `raw` pack has none (R128, R129). -/
def packChecks (P : Params) (std : Std) (slot : PackSlot) (p : Pack) : List Violation :=
  match P.layout.packKind p.pc0 with
  | .tc      => tcChecks P std slot p
  | .recdate => recdateChecks P slot p
  | .rectime => rectimeChecks P std slot p
  | .noinfo  => []
  | .raw     => []

/-- The time code view (R132). -/
def tcView (P : Params) (std : Std) (p : Pack) : TcView where
  hours   := packTyped p (P.layout.tc .hours) 0 23
  minutes := packTyped p (P.layout.tc .minutes) 0 59
  seconds := packTyped p (P.layout.tc .seconds) 0 59
  frames  := packTyped p (P.layout.tc .frames) 0 (P.maxFrame std)
  cf      := packField p (P.layout.tc .cf)
  df      := packField p (P.layout.tc .df)
  pc      := packField p (P.layout.tc .pc)
  bgf0    := packField p (P.layout.tc .bgf0)
  bgf1    := packField p (P.layout.tc .bgf1)
  bgf2    := packField p (P.layout.tc .bgf2)

/-- The recording date view (R135). -/
def recdateView (P : Params) (p : Pack) : RecdateView where
  year  := packTyped p (P.layout.recdate .year) 0 99
  month := packTyped p (P.layout.recdate .month) 1 12
  day   := packTyped p (P.layout.recdate .day) 1 31
  week  := packField p (P.layout.recdate .week)
  tz    := packField p (P.layout.recdate .tz)
  ds    := packField p (P.layout.recdate .ds)
  tm    := packField p (P.layout.recdate .tm)

/-- The recording time view (R138). -/
def rectimeView (P : Params) (std : Std) (p : Pack) : RectimeView where
  hours   := packTyped p (P.layout.rectime .hours) 0 23
  minutes := packTyped p (P.layout.rectime .minutes) 0 59
  seconds := packTyped p (P.layout.rectime .seconds) 0 59
  frames  := packTyped p (P.layout.rectime .frames) 0 (P.maxFrame std)

/-- The raw view (R129). -/
def rawView (p : Pack) : PackView := .raw p.pc0 p.pc1 p.pc2 p.pc3 p.pc4

/-- The typed view of a pack, a function of its raw bytes and the standard (R127). -/
def packView (P : Params) (std : Std) (p : Pack) : PackView :=
  match P.layout.packKind p.pc0 with
  | .tc      => .tc (tcView P std p)
  | .recdate => .recdate (recdateView P p)
  | .rectime => .rectime (rectimeView P std p)
  | .noinfo  => .noinfo
  | .raw     => rawView p

/-! ## Meanings: a pack presented by itself -/

/-- The meaning of `PACK.TC` (R130 to R132). -/
def execPackTc (std : Std) (slot : PackSlot) (pc1 pc2 pc3 pc4 : Byte) (s : State) :
    Host.Outcome State Fault Refusal :=
  let p := packOf 0x13 pc1 pc2 pc3 pc4
  .next (s.deliverPack ⟨slot, p, .tc (tcView params std p), tcChecks params std slot p⟩)

/-- The meaning of `PACK.RECDATE` (R133 to R135). -/
def execPackRecdate (_std : Std) (slot : PackSlot) (pc1 pc2 pc3 pc4 : Byte) (s : State) :
    Host.Outcome State Fault Refusal :=
  let p := packOf 0x62 pc1 pc2 pc3 pc4
  .next (s.deliverPack ⟨slot, p, .recdate (recdateView params p), recdateChecks params slot p⟩)

/-- The meaning of `PACK.RECTIME` (R136 to R138). -/
def execPackRectime (std : Std) (slot : PackSlot) (pc1 pc2 pc3 pc4 : Byte) (s : State) :
    Host.Outcome State Fault Refusal :=
  let p := packOf 0x63 pc1 pc2 pc3 pc4
  .next (s.deliverPack ⟨slot, p, .rectime (rectimeView params std p), rectimeChecks params std slot p⟩)

/-- The meaning of `PACK.NOINFO` (R128). -/
def execPackNoinfo (_std : Std) (slot : PackSlot) (pc1 pc2 pc3 pc4 : Byte) (s : State) :
    Host.Outcome State Fault Refusal :=
  .next (s.deliverPack ⟨slot, packOf 0xFF pc1 pc2 pc3 pc4, .noinfo, []⟩)

/-- The meaning of `PACK.RAW` (R129). -/
def execPackRaw (_std : Std) (slot : PackSlot) (pc0 pc1 pc2 pc3 pc4 : Byte) (s : State) :
    Host.Outcome State Fault Refusal :=
  let p := packOf pc0 pc1 pc2 pc3 pc4
  .next (s.deliverPack ⟨slot, p, rawView p, []⟩)

end Sys2Proof.Machine
end

