-- ==== Sys2Proof/Machine/Block.lean ====
section
/-! DEFINITION. The DBD unit: DECODE, its dispatch by section type, the ID checks (41_block_dispatch.md) and the five
section decoders (42_section_decoders.md). -/

namespace Sys2Proof.Machine

/-- `DecodeId(blk)` (R98). -/
def decodeId (P : Params) (blk : Bytes) : BlockId where
  sct  := readInt P blk (.id .sct)
  res0 := readInt P blk (.id .res0)
  seq  := readInt P blk (.id .seq)
  dseq := readInt P blk (.id .dseq)
  fsc  := readInt P blk (.id .fsc)
  res1 := readInt P blk (.id .res1)
  dbn  := readInt P blk (.id .dbn)

/-- `CheckId(id, t, std, V)` (R98), in its order. -/
def checkId (P : Params) (id : BlockId) (t : BlockType) (std : Std) : List Violation :=
  flagIf (decide (P.numDseq std ≤ id.dseq)) (.raw (.int (.id .dseq))) id.dseq (P.layout.int (.id .dseq)).off ++
  flagIf (decide (P.numDbn t ≤ id.dbn)) (.raw (.int (.id .dbn))) id.dbn (P.layout.int (.id .dbn)).off

/-! ## The section decoders -/

/-- `DecodeHeader` (R117). -/
def decodeHeader (P : Params) (blk : Bytes) : HeaderBody where
  dsf  := readInt P blk (.header .dsf)
  zero := readInt P blk (.header .zero)
  res3 := readInt P blk (.header .res3)
  res4 := readInt P blk (.header .res4)
  apt  := readInt P blk (.header .apt)
  tf1  := readInt P blk (.header .tf1)
  res5 := readInt P blk (.header .res5)
  ap1  := readInt P blk (.header .ap1)
  tf2  := readInt P blk (.header .tf2)
  res6 := readInt P blk (.header .res6)
  ap2  := readInt P blk (.header .ap2)
  tf3  := readInt P blk (.header .tf3)
  res7 := readInt P blk (.header .res7)
  ap3  := readInt P blk (.header .ap3)
  tail := readBytes P blk .headerTail

/-- SSYB `k` of a Subcode block (R118). -/
def decodeSsyb (P : Params) (blk : Bytes) (k : Fin 6) : Ssyb where
  fr    := readInt P blk (.ssyb k .fr)
  ap    := readInt P blk (.ssyb k .ap)
  id0lo := readInt P blk (.ssyb k .id0lo)
  id1hi := readInt P blk (.ssyb k .id1hi)
  syb   := readInt P blk (.ssyb k .syb)
  idp   := readInt P blk (.ssyb k .idp)
  pack  := readPack P blk (.ssyb k)

/-- The violations of SSYB `k` (R120): `syb` above 11, then those of its pack. -/
def ssybChecks (P : Params) (std : Std) (k : Fin 6) (y : Ssyb) : List Violation :=
  flagIf (decide (11 < y.syb)) (.raw (.int (.ssyb k .syb))) y.syb (P.layout.int (.ssyb k .syb)).off ++
  packChecks P std (.ssyb k) y.pack

/-- `DecodeSubcode` (R120). -/
def decodeSubcode (P : Params) (blk : Bytes) : SubcodeBody where
  ssyb := #v[decodeSsyb P blk 0, decodeSsyb P blk 1, decodeSsyb P blk 2, decodeSsyb P blk 3, decodeSsyb P blk 4,
             decodeSsyb P blk 5]
  tail := readBytes P blk .subcodeTail

/-- `DecodeVaux` (R122). -/
def decodeVaux (P : Params) (blk : Bytes) : VauxBody where
  pack := #v[readPack P blk (.vaux 0), readPack P blk (.vaux 1), readPack P blk (.vaux 2), readPack P blk (.vaux 3),
             readPack P blk (.vaux 4), readPack P blk (.vaux 5), readPack P blk (.vaux 6), readPack P blk (.vaux 7),
             readPack P blk (.vaux 8), readPack P blk (.vaux 9), readPack P blk (.vaux 10), readPack P blk (.vaux 11),
             readPack P blk (.vaux 12), readPack P blk (.vaux 13), readPack P blk (.vaux 14)]
  tail := readBytes P blk .vauxTail

/-- `DecodeAudio` (R124). -/
def decodeAudio (P : Params) (blk : Bytes) : AudioBody where
  aaux    := readPack P blk .aaux
  samples := readBytes P blk .audioSamples

/-- `DecodeVideo` (R126). -/
def decodeVideo (P : Params) (blk : Bytes) : VideoBody where
  sta  := readInt P blk (.video .sta)
  qno  := readInt P blk (.video .qno)
  data := readBytes P blk .videoData

/-- The section decoder of a block type (R97). -/
def decodeBody (P : Params) (t : BlockType) (blk : Bytes) : Body :=
  match t with
  | .header  => .header (decodeHeader P blk)
  | .subcode => .subcode (decodeSubcode P blk)
  | .vaux    => .vaux (decodeVaux P blk)
  | .audio   => .audio (decodeAudio P blk)
  | .video   => .video (decodeVideo P blk)

/-- The violations of a body (R143): Header and Video bodies have none (R117, R126). -/
def bodyChecks (P : Params) (std : Std) : Body → List Violation
  | .header _  => []
  | .subcode b => ssybIndices.flatMap fun k => ssybChecks P std k b.ssyb[k]
  | .vaux b    => vauxIndices.flatMap fun i => packChecks P std (.vaux i) b.pack[i]
  | .audio b   => packChecks P std .aaux b.aaux
  | .video _   => []

/-- Every violation of a record (R143), in the order in which R95, R98, R120, R122, R131, R134 and R137 make the checks. At
the default places that order is by increasing bit offset, as R94 says. DESIGN CHOICE (notes/assumptions/23.md): under a
replacement `LAYOUT` that puts the checked fields in another order the two rules differ, and the check order is kept. -/
def recordChecks (P : Params) (std : Std) (r : DecodedBlock) : List Violation :=
  checkId P r.id r.body.type std ++ bodyChecks P std r.body

/-- The record of a block whose section type is `t` (R95). -/
def decodeRecord (P : Params) (t : BlockType) (blk : Bytes) : DecodedBlock :=
  ⟨decodeId P blk, decodeBody P t blk⟩

/-- The answer for a block whose section type is `t`: `Decoded`, with every violation listed (R95, R104). -/
def decodedAs (P : Params) (t : BlockType) (std : Std) (blk : Bytes) : ResponseOf P.toPortWidths :=
  okDecoded (decodeRecord P t blk) (recordChecks P std (decodeRecord P t blk))

/-- The answer for a block whose `sct` has no mapping (R97). -/
def unknownBlock (P : Params) (pos : BitVec P.posBits) (blk : Bytes) : ResponseOf P.toPortWidths :=
  unreadable pos .unknownBlockType (some (BitVec.ofNat 3 (readInt P blk (.id .sct))))

/-- The length check (R96), before any field is read. -/
def withLength (P : Params) (std : Std) (pos : BitVec P.posBits) (blk : Bytes)
    (answer : ResponseOf P.toPortWidths) : ResponseOf P.toPortWidths :=
  if P.blockBytes std < blk.length then refusal .lengthError
  else if blk.length < P.blockBytes std then unreadable pos .boundsError none
  else answer

/-- `DECODE` (R95). -/
def decodeBlock (P : Params) (std : Std) (pos : BitVec P.posBits) (blk : Bytes) : ResponseOf P.toPortWidths :=
  withLength P std pos blk <|
    match enumView (readInt P blk (.id .sct)) P.layout.sctMap with
    | .unmapped _ => unknownBlock P pos blk
    | .known t    => decodedAs P t std blk

/-! ## Meanings -/

/-- The meaning of `DECODE` (R95). -/
def execDecode (std : Std) (pos : PosWord) (data : Bytes) (s : State) : Host.Outcome State Fault Refusal :=
  .next (s.deliver (decodeBlock params std pos data))

/-- The meaning of `BLK.HEADER` (R117): the Header section decoder on the block these ID fields and this section data
make, with the length check and the ID checks of its DECODE. -/
def execBlkHeader (std : Std) (pos : PosWord) (id : IdOperands) (payload : Bytes) (s : State) :
    Host.Outcome State Fault Refusal :=
  let blk := idBytes 0 id ++ payload
  .next (s.deliver (withLength params std pos blk (decodedAs params .header std blk)))

/-- The meaning of `BLK.SUBCODE` (R120). -/
def execBlkSubcode (std : Std) (pos : PosWord) (id : IdOperands) (payload : Bytes) (s : State) :
    Host.Outcome State Fault Refusal :=
  let blk := idBytes 1 id ++ payload
  .next (s.deliver (withLength params std pos blk (decodedAs params .subcode std blk)))

/-- The meaning of `BLK.VAUX` (R122). -/
def execBlkVaux (std : Std) (pos : PosWord) (id : IdOperands) (payload : Bytes) (s : State) :
    Host.Outcome State Fault Refusal :=
  let blk := idBytes 2 id ++ payload
  .next (s.deliver (withLength params std pos blk (decodedAs params .vaux std blk)))

/-- The meaning of `BLK.AUDIO` (R124). -/
def execBlkAudio (std : Std) (pos : PosWord) (id : IdOperands) (payload : Bytes) (s : State) :
    Host.Outcome State Fault Refusal :=
  let blk := idBytes 3 id ++ payload
  .next (s.deliver (withLength params std pos blk (decodedAs params .audio std blk)))

/-- The meaning of `BLK.VIDEO` (R126). -/
def execBlkVideo (std : Std) (pos : PosWord) (id : IdOperands) (payload : Bytes) (s : State) :
    Host.Outcome State Fault Refusal :=
  let blk := idBytes 4 id ++ payload
  .next (s.deliver (withLength params std pos blk (decodedAs params .video std blk)))

/-- The meaning of `BLK.UNKNOWN` with `sct` 0b101 (R97). -/
def execBlkUnknown5 (std : Std) (pos : PosWord) (id : IdOperands) (payload : Bytes) (s : State) :
    Host.Outcome State Fault Refusal :=
  let blk := idBytes 5 id ++ payload
  .next (s.deliver (withLength params std pos blk (unknownBlock params pos blk)))

/-- The meaning of `BLK.UNKNOWN` with `sct` 0b110 or 0b111 (R97). -/
def execBlkUnknown67 (low : BitVec 1) (std : Std) (pos : PosWord) (id : IdOperands) (payload : Bytes) (s : State) :
    Host.Outcome State Fault Refusal :=
  let blk := idBytes (6 + low.toNat) id ++ payload
  .next (s.deliver (withLength params std pos blk (unknownBlock params pos blk)))

end Sys2Proof.Machine
end

