-- ==== Sys2Proof/Machine/Codec.lean ====
section
/-! DEFINITION. The bit-field codec (40_bitfield_codec.md): FREAD.U, FREAD.S, FWRITE.U, FWRITE.S, and the reserved
operation codes (R65). -/

namespace Sys2Proof.Machine

/-- Request admission (R76): the width first, then the buffer's length. -/
def admission (P : Params) (w len : Nat) : Option RefusalReason :=
  if w < P.wMin ∨ P.wMax < w then some .widthError
  else if P.maxBufBytes < len then some .bufTooLong
  else none

/-- The bounds check (R78), over the mathematical integers. -/
def inBounds (o w len : Nat) : Bool := decide (o + w ≤ 8 * len)

/-- Read an unsigned field (R79), after admission; the inverse of `writeUnsigned` (R87). -/
def readUnsigned (buf : Bytes) (o w : Nat) : Except ErrInfo Nat :=
  if inBounds o w buf.length then .ok (fieldBits buf o w) else .error (.bounds o w buf.length)

/-- Read a signed field (R80), after admission; the inverse of `writeSigned` (R87). -/
def readSigned (buf : Bytes) (o w : Nat) : Except ErrInfo Int :=
  if inBounds o w buf.length then .ok (signedValue w (fieldBits buf o w)) else .error (.bounds o w buf.length)

/-- The range of an unsigned write (R83). -/
def inUnsignedRange (w : Nat) (v : Int) : Bool := decide (0 ≤ v ∧ v ≤ 2 ^ w - 1)

/-- The range of a signed write (R83). -/
def inSignedRange (w : Nat) (v : Int) : Bool := decide (-(2 ^ (w - 1)) ≤ v ∧ v ≤ 2 ^ (w - 1) - 1)

/-- Write an unsigned field (R84), after admission: bounds before range (R86); the inverse of `readUnsigned` (R87). -/
def writeUnsigned (buf : Bytes) (o w : Nat) (v : Int) : Except ErrInfo Bytes :=
  if inBounds o w buf.length then
    if inUnsignedRange w v then .ok (putBits buf o w v.toNat) else .error (.range v w)
  else .error (.bounds o w buf.length)

/-- Write a signed field (R85), after admission: bounds before range (R86); the inverse of `readSigned` (R87). -/
def writeSigned (buf : Bytes) (o w : Nat) (v : Int) : Except ErrInfo Bytes :=
  if inBounds o w buf.length then
    if inSignedRange w v then .ok (putBits buf o w (signedRaw w v)) else .error (.range v w)
  else .error (.bounds o w buf.length)

/-- The shape of a codec operation: admission, then the operation, then its response. -/
def codecResponse {α : Type} {W : PortWidths} (P : Params) (w : WidthWord) (buf : Bytes) (op : Except ErrInfo α) (ok : α → ResponseOf W) :
    ResponseOf W :=
  match admission P w.toNat buf.length with
  | some reason => refusal reason
  | none =>
    match op with
    | .ok v => ok v
    | .error info => raise info

/-- `FREAD.U` (R79): the raw value, zero-extended to `RESULT_BITS` (R61): taken modulo `2 ^ RESULT_BITS`. -/
def freadU (P : Params) (w : WidthWord) (o : BitVec P.offsetBits) (buf : Bytes) : ResponseOf P.toPortWidths :=
  codecResponse P w buf (readUnsigned buf o.toNat w.toNat) fun v => okResult (BitVec.ofNat P.resultBits v)

/-- `FREAD.S` (R80): the signed value, in two's complement of `RESULT_BITS` bits (R62). -/
def freadS (P : Params) (w : WidthWord) (o : BitVec P.offsetBits) (buf : Bytes) : ResponseOf P.toPortWidths :=
  codecResponse P w buf (readSigned buf o.toNat w.toNat) fun v => okResult (BitVec.ofInt P.resultBits v)

/-- `FWRITE.U` (R84): the value port is `VALUE_BITS` of two's complement. -/
def fwriteU (P : Params) (w : WidthWord) (o : BitVec P.offsetBits) (v : BitVec P.valueBits) (buf : Bytes) :
    ResponseOf P.toPortWidths :=
  codecResponse P w buf (writeUnsigned buf o.toNat w.toNat v.toInt) okData

/-- `FWRITE.S` (R85). -/
def fwriteS (P : Params) (w : WidthWord) (o : BitVec P.offsetBits) (v : BitVec P.valueBits) (buf : Bytes) :
    ResponseOf P.toPortWidths :=
  codecResponse P w buf (writeSigned buf o.toNat w.toNat v.toInt) okData

/-! ## Meanings -/

/-- The meaning of `FREAD.U` (R79). -/
def execFreadU (w : WidthWord) (o : OffsetWord) (data : Bytes) (s : State) : Host.Outcome State Fault Refusal :=
  .next (s.deliver (freadU params w o data))

/-- The meaning of `FREAD.S` (R80). -/
def execFreadS (w : WidthWord) (o : OffsetWord) (data : Bytes) (s : State) : Host.Outcome State Fault Refusal :=
  .next (s.deliver (freadS params w o data))

/-- The meaning of `FWRITE.U` (R84). -/
def execFwriteU (w : WidthWord) (o : OffsetWord) (v : ValueWord) (data : Bytes) (s : State) :
    Host.Outcome State Fault Refusal :=
  .next (s.deliver (fwriteU params w o v data))

/-- The meaning of `FWRITE.S` (R85). -/
def execFwriteS (w : WidthWord) (o : OffsetWord) (v : ValueWord) (data : Bytes) (s : State) :
    Host.Outcome State Fault Refusal :=
  .next (s.deliver (fwriteS params w o v data))

/-- The meaning of op 0x6 and 0x7 (R65): refused `IllegalOp`, a response like any other. -/
def execReservedOp67 (_low : BitVec 1) (s : State) : Host.Outcome State Fault Refusal :=
  .next (s.deliver (refusal .illegalOp))

/-- The meaning of op 0x8 to 0xF (R65): refused `IllegalOp`, a response like any other. -/
def execReservedOp8F (_low : BitVec 3) (s : State) : Host.Outcome State Fault Refusal :=
  .next (s.deliver (refusal .illegalOp))

end Sys2Proof.Machine
end

