-- ==== Sys2Proof/Machine/Encoder.lean ====
section
/-! DEFINITION. ENCODE (43_block_encoder.md): a DecodedBlock to a RawBlock, through the codec's unsigned write. -/

namespace Sys2Proof.Machine

/-- Put one integer field of a record in place with `FWRITE.U`; a value that does not fit is named (R150). -/
def encodeInt (P : Params) (r : DecodedBlock) (buf : Bytes) (f : IntField) : Except ErrInfo Bytes :=
  match recGetInt r f with
  | none => .ok buf
  | some v =>
    match writeUnsigned buf (P.layout.int f).off (P.layout.int f).width v with
    | .ok buf' => .ok buf'
    | .error (.range _ _) => .error (.field (.raw (.int f)) v)
    | .error info => .error info

/-- Put one byte-sequence field of a record in place; a wrong length is named (R150). -/
def encodeBytes (P : Params) (r : DecodedBlock) (buf : Bytes) (f : BytesField) : Except ErrInfo Bytes :=
  match recGetBytes r f with
  | none => .ok buf
  | some v =>
    if v.length ≠ (P.layout.bytes f).len then .error (.field (.raw (.bytes f)) v.length)
    else .ok (memWrite buf (P.layout.bytes f).byte (P.layout.bytes f).len v)

/-- Put one raw field of a record in place. -/
def encodeField (P : Params) (r : DecodedBlock) (buf : Bytes) : RawField → Except ErrInfo Bytes
  | .int f   => encodeInt P r buf f
  | .bytes f => encodeBytes P r buf f

/-- Put fields in place in order, stopping at the first that does not fit (R150, R151). -/
def encodeFields (P : Params) (r : DecodedBlock) : List RawField → Bytes → Except ErrInfo Bytes
  | [], buf => .ok buf
  | f :: fs, buf =>
    match encodeField P r buf f with
    | .ok buf' => encodeFields P r fs buf'
    | .error info => .error info

/-- `ENCODE` (R150): all or nothing (R151). -/
def encodeBlock (P : Params) (std : Std) (r : DecodedBlock) : ResponseOf P.toPortWidths :=
  if recordMatches P r then
    match encodeFields P r (P.layout.order r.body.type) (List.replicate (P.blockBytes std) 0) with
    | .ok buf => okData buf
    | .error info => raise info
  else refusal .badRecord

/-- The meaning of `ENCODE` (R150). -/
def execEncode (std : Std) (r : DecodedBlock) (s : State) : Host.Outcome State Fault Refusal :=
  .next (s.deliver (encodeBlock params std r))

end Sys2Proof.Machine
end

