-- ==== Sys2Proof/Machine/Dispatch.lean ====
section
/-! DEFINITION. The dispatch: one arm per constructor of Instr, each a direct call of its meaning. -/

namespace Sys2Proof.Machine

def exec (i : Instr) (s : State) : Host.Outcome State Fault Refusal :=
  match i with
  | .freadU w o d => Sys2Proof.Machine.execFreadU w o d s
  | .freadS w o d => Sys2Proof.Machine.execFreadS w o d s
  | .fwriteU w o v d => Sys2Proof.Machine.execFwriteU w o v d s
  | .fwriteS w o v d => Sys2Proof.Machine.execFwriteS w o v d s
  | .decode std pos d => Sys2Proof.Machine.execDecode std pos d s
  | .encode std r => Sys2Proof.Machine.execEncode std r s
  | .reservedOp67 b => Sys2Proof.Machine.execReservedOp67 b s
  | .reservedOp8F b => Sys2Proof.Machine.execReservedOp8F b s
  | .blkHeader std pos id p => Sys2Proof.Machine.execBlkHeader std pos id p s
  | .blkSubcode std pos id p => Sys2Proof.Machine.execBlkSubcode std pos id p s
  | .blkVaux std pos id p => Sys2Proof.Machine.execBlkVaux std pos id p s
  | .blkAudio std pos id p => Sys2Proof.Machine.execBlkAudio std pos id p s
  | .blkVideo std pos id p => Sys2Proof.Machine.execBlkVideo std pos id p s
  | .blkUnknown5 std pos id p => Sys2Proof.Machine.execBlkUnknown5 std pos id p s
  | .blkUnknown67 b std pos id p => Sys2Proof.Machine.execBlkUnknown67 b std pos id p s
  | .packTc std slot a b c d => Sys2Proof.Machine.execPackTc std slot a b c d s
  | .packRecdate std slot a b c d => Sys2Proof.Machine.execPackRecdate std slot a b c d s
  | .packRectime std slot a b c d => Sys2Proof.Machine.execPackRectime std slot a b c d s
  | .packNoinfo std slot a b c d => Sys2Proof.Machine.execPackNoinfo std slot a b c d s
  | .packRaw std slot p a b c d => Sys2Proof.Machine.execPackRaw std slot p a b c d s

end Sys2Proof.Machine
end

