-- ==== Sys2Proof/Machine/Operands.lean ====
section
/-! DEFINITION. The operand forms of a program's lines (R71, R72): buffers by name, the record of an earlier response, edited
or not, and the pseudo-instructions; and the request each line presents. -/

namespace Sys2Proof.Machine

/-- The expansion of a pseudo-instruction (R72); every other line is itself. -/
def expand : Line → Line
  | .freadByte b k    => .freadU b (8 * BitVec.setWidth portWidths.offsetBits k) 8
  | .freadBit b o     => .freadU b o 1
  | .freadNib b k h   =>
    .freadU b (8 * BitVec.setWidth portWidths.offsetBits k + 4 * BitVec.setWidth portWidths.offsetBits h) 4
  | .fwriteByte b k v => .fwriteU b (8 * BitVec.setWidth portWidths.offsetBits k) 8 v
  | .fset b o         => .fwriteU b o 1 1
  | .fclr b o         => .fwriteU b o 1 0
  | l                 => l

/-- A buffer operand: the bytes of the named buffer. -/
def bufferOperand (m : Memory) (b : Name) : Except Fault Bytes :=
  match m.get? b with
  | some d => .ok d
  | none => .error (.noSuchBuffer b)

/-- Replace the named raw fields of a record (R71). DESIGN CHOICE (notes/assumptions/21.md): the edits are applied in the
order written, so of two edits of the same field the later one's value holds; the spec does not say which does. -/
def applyEdits : List Edit → DecodedBlock → Except Fault DecodedBlock
  | [], r => .ok r
  | .int f v :: es, r =>
    match recSetInt r f v with
    | some r' => applyEdits es r'
    | none => .error (.noSuchField (.int f))
  | .bytes f v :: es, r =>
    match recSetBytes r f v with
    | some r' => applyEdits es r'
    | none => .error (.noSuchField (.bytes f))

/-- The DecodedBlock of response `n`, counting from 1, if that response holds one (R71). -/
def loggedRecord (log : List Response) (n : Nat) : Option DecodedBlock :=
  match n with
  | 0 => none
  | k + 1 =>
    match log[k]? with
    | some r =>
      match r.decode with
      | some (.decoded b _) => some b
      | _ => none
    | none => none

/-- A record operand: `@n` or `@n{field=value, ...}` (R71). -/
def recordOperand (log : List Response) (ref : RecRef) : Except Fault DecodedBlock :=
  match loggedRecord log ref.n with
  | some r => applyEdits ref.edits r
  | none => .error (.noSuchRecord ref.n)

/-- The request of a read line: the buffer's bytes, no destination. -/
def readRequest (m : Memory) (b : Name) (make : Bytes → Request) : Except Fault Outstanding :=
  match bufferOperand m b with
  | .ok d => .ok ⟨.request (make d), none⟩
  | .error f => .error f

/-- The request of a write line: the buffer's bytes, the same buffer the destination. -/
def writeRequest (m : Memory) (b : Name) (make : Bytes → Request) : Except Fault Outstanding :=
  match bufferOperand m b with
  | .ok d => .ok ⟨.request (make d), some b⟩
  | .error f => .error f

/-- The request of a core line (R71, R53). DESIGN CHOICE (notes/assumptions/20.md): a `REQ` line names no buffer (R71), so it
has no destination, and a buffer that its codec write or ENCODE returns replaces none of `bufs` (R33); the response holds it.
There is no request for `LOAD`, which sends nothing to the block. A pseudo-instruction has been expanded before. -/
def lineRequest (s : State) : Line → Option (Except Fault Outstanding)
  | .load _ _ => none
  | .freadU b o w => some <| readRequest s.bufs b fun d =>
      { zeroRequest with op := 0x0, width := w, offset := o, data := d }
  | .freadS b o w => some <| readRequest s.bufs b fun d =>
      { zeroRequest with op := 0x1, width := w, offset := o, data := d }
  | .fwriteU b o w v => some <| writeRequest s.bufs b fun d =>
      { zeroRequest with op := 0x2, width := w, offset := o, value := v, data := d }
  | .fwriteS b o w v => some <| writeRequest s.bufs b fun d =>
      { zeroRequest with op := 0x3, width := w, offset := o, value := v, data := d }
  | .decode b pos std => some <| readRequest s.bufs b fun d =>
      { zeroRequest with op := 0x4, std := stdBit std, pos := pos, data := d }
  | .encode b ref std => some <|
      match recordOperand s.log ref with
      | .ok r => .ok ⟨.request { zeroRequest with op := 0x5, std := stdBit std, record := r }, some b⟩
      | .error f => .error f
  | .req item => some (.ok ⟨item, none⟩)
  | .freadByte _ _ => none
  | .freadBit _ _ => none
  | .freadNib _ _ _ => none
  | .fwriteByte _ _ _ => none
  | .fset _ _ => none
  | .fclr _ _ => none

/-- What the harness does with the next line (R33, R71): set a buffer, or present an item, or stop for a line that makes
no request. -/
inductive LineEffect where
  | loaded (s : State)
  | presented (s : State) (o : Outstanding)
  | stuck (f : Fault)
  deriving DecidableEq, Repr

/-- The effect of a line on a state with no request outstanding. -/
def lineEffect (l : Line) (s : State) : LineEffect :=
  match expand l with
  | .load b d => .loaded { s with bufs := s.bufs.set b d }
  | core =>
    match lineRequest s core with
    | some (.ok o) => .presented { s with request := some o } o
    | some (.error f) => .stuck f
    | none => .loaded s

end Sys2Proof.Machine
end

