-- ==== Sys2Proof/Machine/Ports.lean ====
section
/-! DEFINITION. What stands on the response port (R51). A field the last response does not name, and every field before
the first response, holds any value (93_implementation_defined.md I18, I20): a free value, indexed by the number of
responses so far. -/

namespace Sys2Proof.Machine

/-- The status on the port. -/
def State.statusPort (s : State) : StatusWord :=
  match s.response with
  | some r => r.status
  | none => Config.freeStatus s.log.length

/-- The result on the port. -/
def State.resultPort (s : State) : ResultWord :=
  (s.response.bind (·.result)).getD (Config.freeResult s.log.length)

/-- The data on the port. -/
def State.dataPort (s : State) : Bytes :=
  (s.response.bind (·.data)).getD (Config.freeData s.log.length)

/-- The decode result on the port. -/
def State.decodePort (s : State) : DecodeResult :=
  (s.response.bind (·.decode)).getD (Config.freeDecode s.log.length)

end Sys2Proof.Machine
end

