-- ==== Sys2Proof/Machine/Views.lean ====
section
/-! DEFINITION. The typed views of a DecodedBlock (R100 to R102, R115, R125, R142), functions of its raw fields, and the
response forms of R74. -/

namespace Sys2Proof.Machine

/-- The "track number" (R101): `id.dseq`. -/
def track (r : DecodedBlock) : Nat := r.id.dseq

/-- The "sequence number" (R101): `id.seq`. -/
def seqNumber (r : DecodedBlock) : Nat := r.id.seq

/-- The channel (R101): `id.fsc`. -/
def channel (r : DecodedBlock) : Nat := r.id.fsc

/-- The block number (R101): `id.dbn`. -/
def blockNumber (r : DecodedBlock) : Nat := r.id.dbn

/-- The block type (R101): the constructor of the body. -/
def blockType (r : DecodedBlock) : BlockType := r.body.type

/-- BlockIdentity (R102). -/
def identity (r : DecodedBlock) : BlockIdentity where
  seq         := seqNumber r
  type        := blockType r
  channel     := channel r
  track       := track r
  blockNumber := blockNumber r

/-- The Header's `standard` (R115). -/
def headerStandard (h : HeaderBody) : Std := if h.dsf = 0 then .ntsc else .pal

/-- The Header's `audio_valid` (R115). -/
def audioValid (h : HeaderBody) : Bool := h.tf1 == 0

/-- The Header's `video_valid` (R115). -/
def videoValid (h : HeaderBody) : Bool := h.tf2 == 0

/-- The Header's `subcode_valid` (R115). -/
def subcodeValid (h : HeaderBody) : Bool := h.tf3 == 0

/-- The Video block's `error_flags` (R125): `sta`. -/
def errorFlags (v : VideoBody) : Nat := v.sta

/-- The slots of the packs of a block type, by increasing byte (R118, R121, R123). -/
def slotsOf : BlockType → List PackSlot
  | .header  => []
  | .subcode => ssybIndices.map .ssyb
  | .vaux    => vauxIndices.map .vaux
  | .audio   => [.aaux]
  | .video   => []

/-- The typed views of a record's packs, with their slots (R127). -/
def packViews (P : Params) (std : Std) (r : DecodedBlock) : List (PackSlot × PackView) :=
  (slotsOf r.body.type).filterMap fun slot => (slotPack r.body slot).map fun p => (slot, packView P std p)

/-- The form of a response (R74); none for a response the block does not give. -/
def responseForm (r : Response) : Option ResponseForm :=
  match r.decode with
  | some (.decoded b vs) => some (.decoded b.body.type b vs)
  | some (.unreadable pos cause sct) => some (.unreadable pos cause sct)
  | none =>
    match statusOf r.status, r.result, r.data with
    | some .ok, some v, none => some (.okResult v)
    | some .ok, none, some d => some (.okBuffer d)
    | some (.error e), none, none => some (.err e)
    | some (.refused reason), none, none => some (.refused reason)
    | _, _, _ => none

end Sys2Proof.Machine
end

