-- ==== Sys2Proof/Machine/Step.lean ====
section
/-! DEFINITION. The step: an outstanding request is decoded and served; with none outstanding, the harness takes the next
line of the program and a request it presents is served in the same step (R33, R189). -/

namespace Sys2Proof.Machine

/-- Serve a presented item: run the instruction the decoder reads from it. -/
def serve (o : Outstanding) (s : State) : Host.Outcome State Fault Refusal :=
  match decode o.item with
  | .ok i => exec i s
  | .error e => .fault (.undecodable e)

/-- Take one line of the program. -/
def takeLine (l : Line) (s : State) : Host.Outcome State Fault Refusal :=
  match lineEffect l s with
  | .loaded s' => .next s'
  | .presented s' o => serve o s'
  | .stuck f => .fault f

/-- One step. With no request outstanding and no line left the program has ended and nothing changes (R34, R183;
notes/assumptions/8.md). -/
def step (s : State) : Host.Outcome State Fault Refusal :=
  match s.request with
  | some o => serve o s
  | none =>
    match s.program with
    | [] => .next s
    | l :: rest => takeLine l { s with program := rest }

/-- The state with the instruction of a table word presented to the block: the very next step runs it
(notes/assumptions/9.md). -/
def State.withFetchWord (s : State) (nbits w : Nat) : State :=
  { s with request := some ⟨tableItem nbits w, none⟩ }

end Sys2Proof.Machine
end

