-- ==== Sys2Proof/Safety.lean ====
section
/-! DEFINITION. Safe runs: what a run must be for a claim about it to have a meaning (R34, R163), and the invariant every
step keeps. -/

namespace Sys2Proof

open Sys2Proof.Machine

/-- No request of the run was refused: only then may a claim be read from the log (R34). -/
def Meaningful (s : State) : Prop := s.refused = false

/-- A logged response is one the block gives (R161, R99, R103): its status is a code the block raises, a record it
carries agrees with its `sct` and fits the layout, and an `Unreadable` verdict's status is its cause. -/
def responseSound (r : Response) : Bool :=
  statusLegal r &&
  match r.decode with
  | some (.decoded b _) => r.status == statusCode .ok && recordFits params b
  | some (.unreadable _ cause _) => r.status == statusCode (.error cause)
  | none => true

/-- The invariant of the machine: the buffers are in canonical form, every logged response is one the block gives, the
refusal mark is set exactly when the log holds a refusal (R33), and the response port is empty exactly before the first
response, and holds the last one after (R32). -/
structure StateInv (s : State) : Prop where
  bufsCanonical : s.bufs.wf
  logSound : ∀ r ∈ s.log, responseSound r = true
  refusedSticky : s.refused = s.log.any isRefusal
  responseLast : s.response = none ∨ s.response = s.log.getLast?

/-! ## The terms claims use -/

/-- The block answered `r` and the harness took the answer (R33): no request is outstanding, `r` stands on the port and
at the end of the log, a refusal sets the mark, and the program and the pack output are as they were. (What became of
the buffers is said beside it.) -/
def Served (s t : State) (r : Response) : Prop :=
  t.request = none ∧ t.response = some r ∧ t.log = s.log ++ [r] ∧ t.refused = (s.refused || isRefusal r) ∧
    t.program = s.program ∧ t.packOut = s.packOut

/-- The pack decoder answered `p`: nothing but the request port and the pack output changed. -/
def PackServed (s t : State) (p : PackResult) : Prop :=
  t.request = none ∧ t.packOut = some p ∧ t.response = s.response ∧ t.log = s.log ∧ t.refused = s.refused ∧
    t.program = s.program ∧ t.bufs = s.bufs

/-- The rows of format `PACK` (R57): a pack presented by itself (notes/assumptions/2.md). -/
def isPackRow : Instr → Bool
  | .freadU _ _ _ => false
  | .freadS _ _ _ => false
  | .fwriteU _ _ _ _ => false
  | .fwriteS _ _ _ _ => false
  | .decode _ _ _ => false
  | .encode _ _ => false
  | .reservedOp67 _ => false
  | .reservedOp8F _ => false
  | .blkHeader _ _ _ _ => false
  | .blkSubcode _ _ _ _ => false
  | .blkVaux _ _ _ _ => false
  | .blkAudio _ _ _ _ => false
  | .blkVideo _ _ _ _ => false
  | .blkUnknown5 _ _ _ _ => false
  | .blkUnknown67 _ _ _ _ _ => false
  | .packTc _ _ _ _ _ _ => true
  | .packRecdate _ _ _ _ _ _ => true
  | .packRectime _ _ _ _ _ _ => true
  | .packNoinfo _ _ _ _ _ _ => true
  | .packRaw _ _ _ _ _ _ _ => true

/-- In every state the instruction completes and the response is `r`. -/
def Answers (i : Instr) (r : Response) : Prop := ∀ s, ∃ t, exec i s = .next t ∧ t.response = some r

/-- A codec read, signed or unsigned. -/
def readInstr (signed : Bool) (w : WidthWord) (o : OffsetWord) (d : Bytes) : Instr :=
  if signed then .freadS w o d else .freadU w o d

/-- A codec write, signed or unsigned. -/
def writeInstr (signed : Bool) (w : WidthWord) (o : OffsetWord) (v : ValueWord) (d : Bytes) : Instr :=
  if signed then .fwriteS w o v d else .fwriteU w o v d

/-- A field value on the value port: sign-extended or zero-extended. -/
def valueOf (signed : Bool) (v : ResultWord) : ValueWord :=
  if signed then v.signExtend portWidths.valueBits else v.setWidth portWidths.valueBits

/-- Two bit ranges have no bit in common. -/
def Disjoint2 (o w o' w' : Nat) : Prop := o + w ≤ o' ∨ o' + w' ≤ o

/-- The codec admits the width and the buffer (R76) and the field lies in the buffer (R78). -/
def CodecField (w : WidthWord) (o : OffsetWord) (d : Bytes) : Prop :=
  1 ≤ w.toNat ∧ w.toNat ≤ 32 ∧ d.length ≤ 2 ^ 29 ∧ o.toNat + w.toNat ≤ 8 * d.length

/-- A value is in the range of a field of this width (R83). -/
def InRange (signed : Bool) (w : WidthWord) (v : ValueWord) : Prop :=
  if signed then -(2 ^ (w.toNat - 1)) ≤ v.toInt ∧ v.toInt ≤ 2 ^ (w.toNat - 1) - 1
  else 0 ≤ v.toInt ∧ v.toInt ≤ 2 ^ w.toNat - 1

/-- The ID record of a block with this `sct` and these ID fields (R98). -/
def idRecord (sct : Nat) (id : IdOperands) : BlockId :=
  ⟨sct, id.res0.toNat, id.seq.toNat, id.dseq.toNat, id.fsc.toNat, id.res1.toNat, id.dbn.toNat⟩

/-- The ID violations (R98): `dseq` above 9 (NTSC) or 11 (PAL) at offset 8, then `dbn` at or above `limit` at
offset 16. -/
def idViolations (std : Std) (limit dseq dbn : Nat) : List Violation :=
  (if (match std with | .ntsc => 10 | .pal => 12) ≤ dseq then
    [malformed (.raw (.int (.id .dseq))) dseq 8] else []) ++
  (if limit ≤ dbn then [malformed (.raw (.int (.id .dbn))) dbn 16] else [])

/-- The first byte of the pack in a slot (R118, R121, R123), spelled out. -/
def slotByte : PackSlot → Nat
  | .ssyb k => 3 + 8 * k.val + 3
  | .vaux i => 3 + 5 * i.val
  | .aaux => 3

/-- The five bytes at byte `a` of a block, as a pack (R127). -/
def packAt (blk : Bytes) (a : Nat) : Pack :=
  ⟨fieldBits blk (8 * a) 8, fieldBits blk (8 * (a + 1)) 8, fieldBits blk (8 * (a + 2)) 8,
   fieldBits blk (8 * (a + 3)) 8, fieldBits blk (8 * (a + 4)) 8⟩

/-- Where a field that some check can flag stands (R143), spelled out from R98, R120, R131, R134 and R137. -/
def causeLoc : FieldPath → Option FieldLoc
  | .raw (.int (.id .dseq))     => some ⟨8, 4⟩
  | .raw (.int (.id .dbn))      => some ⟨16, 8⟩
  | .raw (.int (.ssyb k .syb))  => some ⟨8 * (3 + 8 * k.val) + 12, 4⟩
  | .tc slot .frames            => some ⟨8 * (slotByte slot + 1) + 2, 6⟩
  | .tc slot .seconds           => some ⟨8 * (slotByte slot + 2) + 1, 7⟩
  | .tc slot .minutes           => some ⟨8 * (slotByte slot + 3) + 1, 7⟩
  | .tc slot .hours             => some ⟨8 * (slotByte slot + 4) + 2, 6⟩
  | .recdate slot .day          => some ⟨8 * (slotByte slot + 2) + 2, 6⟩
  | .recdate slot .month        => some ⟨8 * (slotByte slot + 3) + 3, 5⟩
  | .recdate slot .year         => some ⟨8 * (slotByte slot + 4), 8⟩
  | .rectime slot .frames       => some ⟨8 * (slotByte slot + 1) + 2, 6⟩
  | .rectime slot .seconds      => some ⟨8 * (slotByte slot + 2) + 1, 7⟩
  | .rectime slot .minutes      => some ⟨8 * (slotByte slot + 3) + 1, 7⟩
  | .rectime slot .hours        => some ⟨8 * (slotByte slot + 4) + 2, 6⟩
  | _                           => none

/-- Bit `k` of a block lies in the raw field (R55). -/
def covers (f : RawField) (k : Nat) : Prop :=
  match f with
  | .int f   => (params.layout.int f).off ≤ k ∧ k < (params.layout.int f).off + (params.layout.int f).width
  | .bytes f => 8 * (params.layout.bytes f).byte ≤ k ∧
      k < 8 * ((params.layout.bytes f).byte + (params.layout.bytes f).len)

/-- The first bit of a raw field (R150). -/
def firstBit : RawField → Nat
  | .int f   => (params.layout.int f).off
  | .bytes f => 8 * (params.layout.bytes f).byte

/-- The places of the digits that are checked in the pack at byte `a`, by the pack's PC0 (R131, R134, R137): frames,
seconds, minutes and hours, or day, month and year; none in a pack of another PC0 (R128, R129). -/
def checkedDigits (pc0 a : Nat) : List FieldLoc :=
  if pc0 = 0x13 ∨ pc0 = 0x63 then
    [⟨8 * (a + 1) + 2, 6⟩, ⟨8 * (a + 2) + 1, 7⟩, ⟨8 * (a + 3) + 1, 7⟩, ⟨8 * (a + 4) + 2, 6⟩]
  else if pc0 = 0x62 then [⟨8 * (a + 2) + 2, 6⟩, ⟨8 * (a + 3) + 3, 5⟩, ⟨8 * (a + 4), 8⟩]
  else []

/-- The typed value of a BCD field with a tens digit of `tw` bits and domain `lo .. hi`, in words of its digits (R90,
R91): all ones is absent, a digit above 9 or a value outside the domain is flagged. -/
def bcdTyped (tw raw lo hi : Nat) : TypedBcd :=
  if raw = 2 ^ (tw + 4) - 1 then .absent
  else if raw % 16 ≤ 9 ∧ raw / 16 ≤ 9 ∧ lo ≤ 10 * (raw / 16) + raw % 16 ∧ 10 * (raw / 16) + raw % 16 ≤ hi then
    .value (10 * (raw / 16) + raw % 16)
  else .flagged raw

/-- The violation of a BCD field, if its typed value is flagged (R91). -/
def bcdViolation (path : FieldPath) (tw raw lo hi offset : Nat) : List Violation :=
  match bcdTyped tw raw lo hi with
  | .flagged _ => [malformed path raw offset]
  | _ => []

/-- The largest legal frame number (R139). -/
def lastFrame : Std → Nat
  | .ntsc => 29
  | .pal => 24

/-- The status of a request, by the order of R164: the illegal op, the admission refusals of its operation, the bounds,
then the range or the section type. -/
def requestStatus (r : Request) : Status :=
  let w := r.width.toNat
  let v := r.value.toInt
  if 6 ≤ r.op.toNat then .refused .illegalOp
  else if r.op.toNat < 4 then
    if w < 1 ∨ 32 < w then .refused .widthError
    else if 2 ^ 29 < r.data.length then .refused .bufTooLong
    else if 8 * r.data.length < r.offset.toNat + w then .error .boundsError
    else if r.op = 2 ∧ (v < 0 ∨ 2 ^ w ≤ v) then .error .rangeError
    else if r.op = 3 ∧ (v < -(2 ^ (w - 1)) ∨ 2 ^ (w - 1) ≤ v) then .error .rangeError
    else .ok
  else if r.op = 4 then
    if 80 < r.data.length then .refused .lengthError
    else if r.data.length < 80 then .error .boundsError
    else if 4 < fieldBits r.data 0 3 then .error .unknownBlockType
    else .ok
  else if recordMatches params r.record = false then .refused .badRecord
  else if recordFits params r.record = false then .error .rangeError
  else .ok

/-- The value an ENCODE error names for a raw field of a record (R162): the integer, or the byte sequence's length. -/
def namedValue (r : DecodedBlock) : RawField → Option Nat
  | .int f => recGetInt r f
  | .bytes f => (recGetBytes r f).map List.length

end Sys2Proof
end

