-- ==== Sys2Proof/Certificates/Slice0/Obligations.lean ====
section
/-! DEFINITION. The statements for the provers. Each docstring names the rules it formalises. -/

open Sys2Proof Sys2Proof.Machine

/-! ## The codec -/

/-- R79, R77, R61: FREAD.U, its encoding (op 0x0) and every case of its rule. An admitted read in bounds answers the field's bits as a binary
number, most significant first, zero-extended to 32 bits; no buffer changes. -/
def Obligations.FreadUAnswersFieldZeroExtended : Prop :=
  (∀ r : Request, r.op = 0x0 → decodeRequest r = .freadU r.width r.offset r.data) ∧
  ∀ (s : State) (w : WidthWord) (o : OffsetWord) (d : Bytes),
    (1 ≤ w.toNat → w.toNat ≤ 32 → d.length ≤ 2 ^ 29 → o.toNat + w.toNat ≤ 8 * d.length →
      ∃ t v, exec (.freadU w o d) s = .next t ∧ Served s t (okResult v) ∧ t.bufs = s.bufs ∧
        v.toNat = ((List.range w.toNat).map fun i => bitAt d (o.toNat + i) * 2 ^ (w.toNat - 1 - i)).sum) ∧
    (1 ≤ w.toNat → w.toNat ≤ 32 → d.length ≤ 2 ^ 29 → 8 * d.length < o.toNat + w.toNat →
      ∃ t, exec (.freadU w o d) s = .next t ∧
        Served s t (raised .boundsError (.bounds o.toNat w.toNat d.length)) ∧ t.bufs = s.bufs) ∧
    (w.toNat < 1 ∨ 32 < w.toNat →
      ∃ t, exec (.freadU w o d) s = .next t ∧ Served s t (refusal .widthError) ∧ t.bufs = s.bufs) ∧
    (1 ≤ w.toNat → w.toNat ≤ 32 → 2 ^ 29 < d.length →
      ∃ t, exec (.freadU w o d) s = .next t ∧ Served s t (refusal .bufTooLong) ∧ t.bufs = s.bufs)

/-- R80, R62: FREAD.S, its encoding (op 0x1) and every case of its rule. An admitted read in bounds answers the field's bits as a two's-complement
number, in 32-bit two's complement; no buffer changes. -/
def Obligations.FreadSAnswersFieldSignExtended : Prop :=
  (∀ r : Request, r.op = 0x1 → decodeRequest r = .freadS r.width r.offset r.data) ∧
  ∀ (s : State) (w : WidthWord) (o : OffsetWord) (d : Bytes),
    (1 ≤ w.toNat → w.toNat ≤ 32 → d.length ≤ 2 ^ 29 → o.toNat + w.toNat ≤ 8 * d.length →
      ∃ t v, exec (.freadS w o d) s = .next t ∧ Served s t (okResult v) ∧ t.bufs = s.bufs ∧
        v.toInt = if 2 ^ (w.toNat - 1) ≤ fieldBits d o.toNat w.toNat
          then (fieldBits d o.toNat w.toNat : Int) - 2 ^ w.toNat else fieldBits d o.toNat w.toNat) ∧
    (1 ≤ w.toNat → w.toNat ≤ 32 → d.length ≤ 2 ^ 29 → 8 * d.length < o.toNat + w.toNat →
      ∃ t, exec (.freadS w o d) s = .next t ∧
        Served s t (raised .boundsError (.bounds o.toNat w.toNat d.length)) ∧ t.bufs = s.bufs) ∧
    (w.toNat < 1 ∨ 32 < w.toNat →
      ∃ t, exec (.freadS w o d) s = .next t ∧ Served s t (refusal .widthError) ∧ t.bufs = s.bufs) ∧
    (1 ≤ w.toNat → w.toNat ≤ 32 → 2 ^ 29 < d.length →
      ∃ t, exec (.freadS w o d) s = .next t ∧ Served s t (refusal .bufTooLong) ∧ t.bufs = s.bufs)

/-- R84, R81: FWRITE.U, its encoding (op 0x2) and every case of its rule. An admitted write in bounds and in range returns a buffer of the same
length with the field's bits those of the value and every other bit unchanged; it replaces the destination buffer. -/
def Obligations.FwriteUReturnsBufferWithFieldReplaced : Prop :=
  (∀ r : Request, r.op = 0x2 → decodeRequest r = .fwriteU r.width r.offset r.value r.data) ∧
  ∀ (s : State) (w : WidthWord) (o : OffsetWord) (v : ValueWord) (d : Bytes),
    (1 ≤ w.toNat → w.toNat ≤ 32 → d.length ≤ 2 ^ 29 → o.toNat + w.toNat ≤ 8 * d.length →
      0 ≤ v.toInt → v.toInt ≤ 2 ^ w.toNat - 1 →
      ∃ t d', exec (.fwriteU w o v d) s = .next t ∧ Served s t (okData d') ∧
        t.bufs = s.bufs.collect s.dest (okData d') ∧ d'.length = d.length ∧
        (∀ i < w.toNat, bitAt d' (o.toNat + i) = (v.toInt.toNat >>> (w.toNat - 1 - i)) % 2) ∧
        ∀ k, ¬(o.toNat ≤ k ∧ k < o.toNat + w.toNat) → bitAt d' k = bitAt d k) ∧
    (1 ≤ w.toNat → w.toNat ≤ 32 → d.length ≤ 2 ^ 29 → o.toNat + w.toNat ≤ 8 * d.length →
      v.toInt < 0 ∨ 2 ^ w.toNat - 1 < v.toInt →
      ∃ t, exec (.fwriteU w o v d) s = .next t ∧ Served s t (raised .rangeError (.range v.toInt w.toNat)) ∧
        t.bufs = s.bufs) ∧
    (1 ≤ w.toNat → w.toNat ≤ 32 → d.length ≤ 2 ^ 29 → 8 * d.length < o.toNat + w.toNat →
      ∃ t, exec (.fwriteU w o v d) s = .next t ∧
        Served s t (raised .boundsError (.bounds o.toNat w.toNat d.length)) ∧ t.bufs = s.bufs) ∧
    (w.toNat < 1 ∨ 32 < w.toNat →
      ∃ t, exec (.fwriteU w o v d) s = .next t ∧ Served s t (refusal .widthError) ∧ t.bufs = s.bufs) ∧
    (1 ≤ w.toNat → w.toNat ≤ 32 → 2 ^ 29 < d.length →
      ∃ t, exec (.fwriteU w o v d) s = .next t ∧ Served s t (refusal .bufTooLong) ∧ t.bufs = s.bufs)

/-- R85, R81: FWRITE.S, its encoding (op 0x3) and every case of its rule; the field's bits are those of the value, or of the value plus `2^w` where
it is negative. -/
def Obligations.FwriteSReturnsBufferWithFieldReplaced : Prop :=
  (∀ r : Request, r.op = 0x3 → decodeRequest r = .fwriteS r.width r.offset r.value r.data) ∧
  ∀ (s : State) (w : WidthWord) (o : OffsetWord) (v : ValueWord) (d : Bytes),
    (1 ≤ w.toNat → w.toNat ≤ 32 → d.length ≤ 2 ^ 29 → o.toNat + w.toNat ≤ 8 * d.length →
      -(2 ^ (w.toNat - 1)) ≤ v.toInt → v.toInt ≤ 2 ^ (w.toNat - 1) - 1 →
      ∃ t d', exec (.fwriteS w o v d) s = .next t ∧ Served s t (okData d') ∧
        t.bufs = s.bufs.collect s.dest (okData d') ∧ d'.length = d.length ∧
        (∀ i < w.toNat, bitAt d' (o.toNat + i) =
          ((if v.toInt < 0 then v.toInt + 2 ^ w.toNat else v.toInt).toNat >>> (w.toNat - 1 - i)) % 2) ∧
        ∀ k, ¬(o.toNat ≤ k ∧ k < o.toNat + w.toNat) → bitAt d' k = bitAt d k) ∧
    (1 ≤ w.toNat → w.toNat ≤ 32 → d.length ≤ 2 ^ 29 → o.toNat + w.toNat ≤ 8 * d.length →
      v.toInt < -(2 ^ (w.toNat - 1)) ∨ 2 ^ (w.toNat - 1) - 1 < v.toInt →
      ∃ t, exec (.fwriteS w o v d) s = .next t ∧ Served s t (raised .rangeError (.range v.toInt w.toNat)) ∧
        t.bufs = s.bufs) ∧
    (1 ≤ w.toNat → w.toNat ≤ 32 → d.length ≤ 2 ^ 29 → 8 * d.length < o.toNat + w.toNat →
      ∃ t, exec (.fwriteS w o v d) s = .next t ∧
        Served s t (raised .boundsError (.bounds o.toNat w.toNat d.length)) ∧ t.bufs = s.bufs) ∧
    (w.toNat < 1 ∨ 32 < w.toNat →
      ∃ t, exec (.fwriteS w o v d) s = .next t ∧ Served s t (refusal .widthError) ∧ t.bufs = s.bufs) ∧
    (1 ≤ w.toNat → w.toNat ≤ 32 → 2 ^ 29 < d.length →
      ∃ t, exec (.fwriteS w o v d) s = .next t ∧ Served s t (refusal .bufTooLong) ∧ t.bufs = s.bufs)

/-- R77, R35: a field's value is the sum of its bits, the bit at its first offset the most significant; bit `k` of a buffer
is bit `7 - k mod 8` of byte `k div 8`; and of two adjacent fields read as one, the one at the lower offset is the more
significant part. -/
def Obligations.FieldBitsAreBitsMostSignificantFirst : Prop :=
  ∀ (buf : Bytes) (o w : Nat),
    fieldBits buf o w = ((List.range w).map fun i => bitAt buf (o + i) * 2 ^ (w - 1 - i)).sum ∧
    fieldBits buf o w < 2 ^ w ∧
    (∀ i < w, (fieldBits buf o w).testBit (w - 1 - i) = (bitAt buf (o + i) == 1)) ∧
    (∀ k, bitAt buf k = (buf.getD (k / 8) 0).toNat >>> (7 - k % 8) % 2) ∧
    ∀ w', fieldBits buf o (w + w') = fieldBits buf o w * 2 ^ w' + fieldBits buf (o + w) w'

/-- R36: the mixed-width view of two bytes: the 16-bit, 8-bit, 4-bit and 1-bit unsigned fields of a buffer at a byte
index `k`, as values and as what FREAD.U answers (on a buffer the codec admits). -/
def Obligations.MixedWidthViewOfBytes : Prop :=
  ∀ (buf : Bytes) (k o w v : Nat), k + 1 < buf.length →
    (o, w, v) ∈
      [(8 * k, 16, (buf.getD k 0).toNat * 256 + (buf.getD (k + 1) 0).toNat), (8 * k, 8, (buf.getD k 0).toNat),
        (8 * k, 4, (buf.getD k 0).toNat / 16), (8 * k + 4, 4, (buf.getD k 0).toNat % 16)] ++
      (List.range 8).map (fun j => (8 * k + j, 1, (buf.getD k 0).toNat / 2 ^ (7 - j) % 2)) →
    fieldBits buf o w = v ∧
    (buf.length ≤ 2 ^ 29 → Answers (.freadU (BitVec.ofNat 6 w) (BitVec.ofNat 32 o) buf) (okResult (BitVec.ofNat 32 v)))

/-- R87: the round-trip laws of the codec, for every admitted, in-bounds field: (a) a value in range is written, and what
the write returned reads as the value; (b) a read answers, and writing back what it answered returns the buffer
unchanged; (c) two writes to disjoint fields give the same buffer in either order; (d) a write does not change what a
field disjoint from its own reads as. -/
def Obligations.CodecRoundTripLaws : Prop :=
  ∀ (sg : Bool) (w : WidthWord) (o : OffsetWord) (d : Bytes), CodecField w o d →
    (∀ v : ValueWord, InRange sg w v →
      ∃ d', Answers (writeInstr sg w o v d) (okData d') ∧
        Answers (readInstr sg w o d') (okResult (BitVec.ofInt 32 v.toInt))) ∧
    (∃ r, Answers (readInstr sg w o d) (okResult r) ∧ Answers (writeInstr sg w o (valueOf sg r) d) (okData d)) ∧
    ∀ (sg' : Bool) (w' : WidthWord) (o' : OffsetWord) (v : ValueWord), CodecField w' o' d →
      Disjoint2 o.toNat w.toNat o'.toNat w'.toNat → InRange sg w v →
      (∀ v' : ValueWord, InRange sg' w' v' →
        ∃ d1 d2 d12, Answers (writeInstr sg w o v d) (okData d1) ∧ Answers (writeInstr sg' w' o' v' d1) (okData d12) ∧
          Answers (writeInstr sg' w' o' v' d) (okData d2) ∧ Answers (writeInstr sg w o v d2) (okData d12)) ∧
      ∃ d' r, Answers (writeInstr sg w o v d) (okData d') ∧ Answers (readInstr sg' w' o' d) (okResult r) ∧
        Answers (readInstr sg' w' o' d') (okResult r)

/-- R65: a request with a reserved op is one of the two reserved rows and is refused `IllegalOp`: it returns only its
status (8), and no buffer changes. The two rows complete so in every state. -/
def Obligations.ReservedOpsAreRefused : Prop :=
  ∀ (s : State),
    (∀ r : Request, 6 ≤ r.op.toNat →
      ((∃ b, decodeRequest r = .reservedOp67 b) ∨ ∃ b, decodeRequest r = .reservedOp8F b) ∧
      ∃ t, exec (decodeRequest r) s = .next t ∧ Served s t ⟨8, none, none, none, none⟩ ∧ t.refused = true ∧
        t.bufs = s.bufs) ∧
    (∀ b, ∃ t, exec (.reservedOp67 b) s = .next t ∧ Served s t (refusal .illegalOp) ∧ t.bufs = s.bufs) ∧
    ∀ b, ∃ t, exec (.reservedOp8F b) s = .next t ∧ Served s t (refusal .illegalOp) ∧ t.bufs = s.bufs

/-- R33, R82, R84, R85: where a successful codec write stores. With the destination buffer `b` holding the request's
data, the bytes of `b` that the field does not touch (those before byte `o div 8` and after byte `(o+w-1) div 8`), and
every byte of every other buffer, read as before; and `b` keeps its length. -/
def Obligations.CodecWriteStoresOnlyTheFieldsBytes : Prop :=
  ∀ (sg : Bool) (s t : State) (w : WidthWord) (o : OffsetWord) (v : ValueWord) (d d' : Bytes) (b : Name),
    s.dest = some b → s.bufs.get? b = some d → exec (writeInstr sg w o v d) s = .next t →
    t.response = some (okData d') →
      t.bufs.get? b = some d' ∧ d'.length = d.length ∧
      (∀ k, k < o.toNat / 8 ∨ (o.toNat + w.toNat - 1) / 8 < k → t.bufs.byte? b k = s.bufs.byte? b k) ∧
      ∀ c k, c ≠ b → t.bufs.byte? c k = s.bufs.byte? c k

/-! ## DECODE -/

/-- R95, R96, R97: DECODE, its encoding (op 0x4) and every case of its rule. -/
def Obligations.DecodeAnswersByLengthThenSectionType : Prop :=
  (∀ r : Request, r.op = 0x4 → decodeRequest r = .decode (if r.std = 0 then .ntsc else .pal) r.pos r.data) ∧
  ∀ (s : State) (std : Std) (pos : PosWord) (blk : Bytes),
    (80 < blk.length → ∃ t, exec (.decode std pos blk) s = .next t ∧ Served s t (refusal .lengthError) ∧
      t.bufs = s.bufs) ∧
    (blk.length < 80 → ∃ t, exec (.decode std pos blk) s = .next t ∧
      Served s t (unreadable pos .boundsError none) ∧ t.bufs = s.bufs) ∧
    (blk.length = 80 → 5 ≤ fieldBits blk 0 3 → ∃ t, exec (.decode std pos blk) s = .next t ∧
      Served s t (unreadable pos .unknownBlockType (some (BitVec.ofNat 3 (fieldBits blk 0 3)))) ∧ t.bufs = s.bufs) ∧
    (blk.length = 80 → fieldBits blk 0 3 ≤ 4 → ∃ t bt, exec (.decode std pos blk) s = .next t ∧
      [BlockType.header, .subcode, .vaux, .audio, .video][fieldBits blk 0 3]? = some bt ∧
      Served s t (okDecoded ⟨decodeId params blk, decodeBody params bt blk⟩
        (checkId params (decodeId params blk) bt std ++ bodyChecks params std (decodeBody params bt blk))) ∧
      t.bufs = s.bufs)

/-- R98, R54: the seven ID fields are read at their offsets, and the ID checks flag `dseq` by the standard and `dbn` by the
block type, in this order. -/
def Obligations.IdFieldsAndChecks : Prop :=
  ∀ (blk : Bytes) (std : Std) (bt : BlockType),
    decodeId params blk = ⟨fieldBits blk 0 3, fieldBits blk 3 1, fieldBits blk 4 4, fieldBits blk 8 4,
      fieldBits blk 12 1, fieldBits blk 13 3, fieldBits blk 16 8⟩ ∧
    checkId params (decodeId params blk) bt std =
      idViolations std (match bt with | .header => 1 | .subcode => 2 | .vaux => 3 | .audio => 9 | .video => 135)
        (fieldBits blk 8 4) (fieldBits blk 16 8)

/-- R97: on an 80-byte block, DECODE does what the block-type row does that the decoder reads from the block: the
discriminator dispatches to one section decoder. -/
def Obligations.DecodeDispatchesToItsBlockRow : Prop :=
  ∀ (s : State) (std : Std) (pos : PosWord) (blk : Bytes), blk.length = 80 →
    ∃ i, decode (.block std pos blk) = .ok i ∧ exec (.decode std pos blk) s = exec i s

/-- R117, R115, R59: BLK.HEADER, and DECODE of that block, complete: the Header fields at their offsets, the tail byte for byte, and no violation but
the ID checks'. -/
def Obligations.BlkHeaderDecodesHeader : Prop :=
  ∀ (s : State) (std : Std) (pos : PosWord) (id : IdOperands) (p : Bytes) (i : Instr), p.length = 77 →
    let blk := idBytes 0 id ++ p
    i ∈ [Instr.blkHeader std pos id p, .decode std pos blk] →
    ∃ t, exec i s = .next t ∧ t.bufs = s.bufs ∧
      Served s t (okDecoded
        ⟨idRecord 0 id, .header
          { dsf := fieldBits blk 24 1, zero := fieldBits blk 25 1, res3 := fieldBits blk 26 6,
            res4 := fieldBits blk 32 5, apt := fieldBits blk 37 3,
            tf1 := fieldBits blk 40 1, res5 := fieldBits blk 41 4, ap1 := fieldBits blk 45 3,
            tf2 := fieldBits blk 48 1, res6 := fieldBits blk 49 4, ap2 := fieldBits blk 53 3,
            tf3 := fieldBits blk 56 1, res7 := fieldBits blk 57 4, ap3 := fieldBits blk 61 3,
            tail := p.drop 5 }⟩
        (idViolations std 1 id.dseq.toNat id.dbn.toNat))

/-- R120, R118, R58: BLK.SUBCODE, and DECODE of that block, complete: six SSYBs at bytes `3+8k`, the tail, and after the ID checks' violations
those of each SSYB in turn, `syb` above 11 first and then its pack's. -/
def Obligations.BlkSubcodeDecodesSubcode : Prop :=
  ∀ (s : State) (std : Std) (pos : PosWord) (id : IdOperands) (p : Bytes) (i : Instr), p.length = 77 →
    let blk := idBytes 1 id ++ p
    i ∈ [Instr.blkSubcode std pos id p, .decode std pos blk] →
    ∃ t b, exec i s = .next t ∧ t.bufs = s.bufs ∧
      (∀ k : Fin 6, b.ssyb[k] =
        { fr := fieldBits blk (8 * (3 + 8 * k)) 1, ap := fieldBits blk (8 * (3 + 8 * k) + 1) 3,
          id0lo := fieldBits blk (8 * (3 + 8 * k) + 4) 4, id1hi := fieldBits blk (8 * (3 + 8 * k) + 8) 4,
          syb := fieldBits blk (8 * (3 + 8 * k) + 12) 4, idp := fieldBits blk (8 * (3 + 8 * k) + 16) 8,
          pack := packAt blk (3 + 8 * k + 3) }) ∧
      b.tail = p.drop 48 ∧
      Served s t (okDecoded ⟨idRecord 1 id, .subcode b⟩
        (idViolations std 2 id.dseq.toNat id.dbn.toNat ++
          [(0 : Fin 6), 1, 2, 3, 4, 5].flatMap fun k =>
            (if 11 < b.ssyb[k].syb then
              [malformed (.raw (.int (.ssyb k .syb))) b.ssyb[k].syb (8 * (3 + 8 * k) + 12)] else []) ++
            packChecks params std (.ssyb k) b.ssyb[k].pack))

/-- R122, R121: BLK.VAUX, and DECODE of that block, complete: fifteen packs at bytes `3+5i`, the tail, and after the ID checks' violations those
of each pack in turn. -/
def Obligations.BlkVauxDecodesVaux : Prop :=
  ∀ (s : State) (std : Std) (pos : PosWord) (id : IdOperands) (p : Bytes) (i : Instr), p.length = 77 →
    let blk := idBytes 2 id ++ p
    i ∈ [Instr.blkVaux std pos id p, .decode std pos blk] →
    ∃ t b, exec i s = .next t ∧ t.bufs = s.bufs ∧
      (∀ i : Fin 15, b.pack[i] = packAt blk (3 + 5 * i)) ∧ b.tail = p.drop 75 ∧
      Served s t (okDecoded ⟨idRecord 2 id, .vaux b⟩
        (idViolations std 3 id.dseq.toNat id.dbn.toNat ++
          (List.finRange 15).flatMap fun i => packChecks params std (.vaux i) b.pack[i]))

/-- R124, R123: BLK.AUDIO, and DECODE of that block, complete: the AAUX pack at byte 3, the samples untouched, and the pack's violations after the
ID checks'. -/
def Obligations.BlkAudioDecodesAudio : Prop :=
  ∀ (s : State) (std : Std) (pos : PosWord) (id : IdOperands) (p : Bytes) (i : Instr), p.length = 77 →
    let blk := idBytes 3 id ++ p
    i ∈ [Instr.blkAudio std pos id p, .decode std pos blk] →
    ∃ t, exec i s = .next t ∧ t.bufs = s.bufs ∧
      Served s t (okDecoded ⟨idRecord 3 id, .audio ⟨packAt blk 3, p.drop 5⟩⟩
        (idViolations std 9 id.dseq.toNat id.dbn.toNat ++ packChecks params std .aaux (packAt blk 3)))

/-- R126, R125, R60: BLK.VIDEO, and DECODE of that block, complete: STA, QNO and the payload untouched, and no violation but the ID checks'. -/
def Obligations.BlkVideoDecodesVideo : Prop :=
  ∀ (s : State) (std : Std) (pos : PosWord) (id : IdOperands) (p : Bytes) (i : Instr), p.length = 77 →
    let blk := idBytes 4 id ++ p
    i ∈ [Instr.blkVideo std pos id p, .decode std pos blk] →
    ∃ t, exec i s = .next t ∧ t.bufs = s.bufs ∧
      Served s t (okDecoded ⟨idRecord 4 id, .video ⟨fieldBits blk 24 4, fieldBits blk 28 4, p.drop 1⟩⟩
        (idViolations std 135 id.dseq.toNat id.dbn.toNat))

/-- R66: a block whose `sct` is 0b101, 0b110 or 0b111 is `Unreadable(pos, UnknownBlockType, some sct)`: the two
BLK.UNKNOWN rows, and DECODE of their blocks, complete so. -/
def Obligations.BlkUnknownIsUnreadable : Prop :=
  ∀ (s : State) (std : Std) (pos : PosWord) (id : IdOperands) (p : Bytes) (i : Instr), p.length = 77 →
    (i ∈ [Instr.blkUnknown5 std pos id p, .decode std pos (idBytes 0b101 id ++ p)] →
      ∃ t, exec i s = .next t ∧ t.bufs = s.bufs ∧ Served s t (unreadable pos .unknownBlockType (some 0b101))) ∧
    ∀ b : BitVec 1, i ∈ [Instr.blkUnknown67 b std pos id p, .decode std pos (idBytes (0b110 + b.toNat) id ++ p)] →
      ∃ t, exec i s = .next t ∧ t.bufs = s.bufs ∧
        Served s t (unreadable pos .unknownBlockType (some (0b11#2 ++ b)))

/-- A block-type row whose block is not 80 bytes long answers as DECODE does for that length (R96). -/
def Obligations.BlkRowsCheckTheLengthFirst : Prop :=
  ∀ (s : State) (std : Std) (pos : PosWord) (id : IdOperands) (p : Bytes) (b : BitVec 1) (i : Instr),
    i ∈ [Instr.blkHeader std pos id p, .blkSubcode std pos id p, .blkVaux std pos id p, .blkAudio std pos id p,
      .blkVideo std pos id p, .blkUnknown5 std pos id p, .blkUnknown67 b std pos id p] →
    (p.length < 77 → ∃ t, exec i s = .next t ∧ Served s t (unreadable pos .boundsError none) ∧ t.bufs = s.bufs) ∧
    (77 < p.length → ∃ t, exec i s = .next t ∧ Served s t (refusal .lengthError) ∧ t.bufs = s.bufs)

/-- R92: every integer field of a block type read inside a decode is what FREAD.U answers at the field's offset and width
on the 80-byte block, and every byte-sequence field is the block's bytes at the field's place; every field lies in the
block, so no such read raises BoundsError. -/
def Obligations.DecodeReadsFieldsAsFreadU : Prop :=
  ∀ (blk : Bytes) (t : BlockType), blk.length = 80 →
    (∀ f : IntField, .int f ∈ params.layout.order t →
      Answers (.freadU (BitVec.ofNat 6 (params.layout.int f).width) (BitVec.ofNat 32 (params.layout.int f).off) blk)
        (okResult (BitVec.ofNat 32 (readInt params blk f))) ∧
      recGetInt (decodeRecord params t blk) f = some (readInt params blk f)) ∧
    ∀ f : BytesField, .bytes f ∈ params.layout.order t →
      ∃ v, recGetBytes (decodeRecord params t blk) f = some v ∧ v.length = (params.layout.bytes f).len ∧
        ∀ i < v.length, v[i]? = blk[(params.layout.bytes f).byte + i]?

/-- R94: the violations of a decode are in strictly increasing order of their bit offsets, all within the block. -/
def Obligations.ViolationsInOffsetOrder : Prop :=
  ∀ (std : Std) (pos : PosWord) (blk : Bytes) (rcd : DecodedBlock) (vs : List Violation),
    Answers (.decode std pos blk) (okDecoded rcd vs) →
      vs.Pairwise (fun a b => a.offset.toNat < b.offset.toNat) ∧ ∀ v ∈ vs, v.offset.toNat < 640

/-- R143, R13, R104: the checks are the complete list. Every violation of a decode is a `MalformedField` whose field is
`id.dseq`, `id.dbn`, the `syb` of an SSYB, or a BCD field of a `tc`, `recdate` or `rectime` view; its offset is the
field's, and its raw value the field's bits in the block. -/
def Obligations.ViolationsAreTheListedCauses : Prop :=
  ∀ (std : Std) (pos : PosWord) (blk : Bytes) (rcd : DecodedBlock) (vs : List Violation),
    Answers (.decode std pos blk) (okDecoded rcd vs) →
      ∀ v ∈ vs, ∃ loc, causeLoc v.field = some loc ∧ v.kind = .malformedField ∧ v.offset.toNat = loc.off ∧
        v.raw.toNat = fieldBits blk loc.off loc.width

/-- R67, R111, R114, R128, R129: two decodable blocks that agree on the checked bits have the same violations. The checked
bits are those of `sct`, `dseq`, `dbn`, the `syb` of every SSYB of a Subcode block, the PC0 of every pack, and the digits
that this PC0 has checked (frames, seconds, minutes, hours, or day, month, year). So reserved bits, the channel bit, the
sequence number, `idp`, every payload byte, and inside the packs the flags, binary groups, zone, week and reserved bits
and PC1 to PC4 of a `noinfo` or `raw` pack are checked by nothing. -/
def Obligations.UncheckedBitsFlagNothing : Prop :=
  ∀ (std : Std) (pos pos' : PosWord) (blk blk' : Bytes) (rcd rcd' : DecodedBlock) (vs vs' : List Violation),
    Answers (.decode std pos blk) (okDecoded rcd vs) → Answers (.decode std pos' blk') (okDecoded rcd' vs') →
    fieldBits blk 0 3 = fieldBits blk' 0 3 → fieldBits blk 8 4 = fieldBits blk' 8 4 →
    fieldBits blk 16 8 = fieldBits blk' 16 8 →
    (∀ k : Fin 6, rcd.body.type = .subcode →
      fieldBits blk (8 * (3 + 8 * k) + 12) 4 = fieldBits blk' (8 * (3 + 8 * k) + 12) 4) →
    (∀ slot ∈ slotsOf rcd.body.type,
      fieldBits blk (8 * slotByte slot) 8 = fieldBits blk' (8 * slotByte slot) 8 ∧
      ∀ loc ∈ checkedDigits (fieldBits blk (8 * slotByte slot) 8) (slotByte slot),
        fieldBits blk loc.off loc.width = fieldBits blk' loc.off loc.width) →
    vs = vs'

/-- R55, R100, R150: the layout of each block type lists its raw fields by strictly increasing first bit, each once, and covers
the 640 bits of the block, each bit in exactly one raw field. -/
def Obligations.EveryBitIsInExactlyOneField : Prop :=
  ∀ (t : BlockType),
    (params.layout.order t).Pairwise (fun f g => firstBit f < firstBit g) ∧
    ∀ k < 640, ∃ f ∈ params.layout.order t, covers f k ∧ ∀ g ∈ params.layout.order t, covers g k → g = f

/-- R106, R107: neither the position nor the standard changes a decoded record, and the position changes no violation. -/
def Obligations.RecordIndependentOfPositionAndStandard : Prop :=
  ∀ (std std' : Std) (pos pos' : PosWord) (blk : Bytes) (rcd : DecodedBlock) (vs : List Violation),
    Answers (.decode std pos blk) (okDecoded rcd vs) →
      Answers (.decode std pos' blk) (okDecoded rcd vs) ∧ ∃ vs', Answers (.decode std' pos blk) (okDecoded rcd vs')

/-- R100: no two distinct 80-byte blocks decode to the same record. -/
def Obligations.DistinctBlocksDecodeToDistinctRecords : Prop :=
  ∀ (std : Std) (pos : PosWord) (blk blk' : Bytes) (rcd : DecodedBlock) (vs vs' : List Violation),
    blk.length = 80 → blk'.length = 80 → Answers (.decode std pos blk) (okDecoded rcd vs) →
    Answers (.decode std pos blk') (okDecoded rcd vs') → blk = blk'

/-- R103: an admitted DECODE answers exactly one of Decoded and Unreadable, and Unreadable carries the request's
position. -/
def Obligations.DecodeAnswersOneVerdict : Prop :=
  ∀ (s : State) (std : Std) (pos : PosWord) (blk : Bytes), blk.length ≤ 80 →
    ∃ t r, exec (.decode std pos blk) s = .next t ∧ t.response = some r ∧
      ((∃ rcd vs, r.decode = some (.decoded rcd vs)) ∨
        ∃ cause sct, r.decode = some (.unreadable pos cause sct))

/-! ## Packs -/

/-- R90, R91: the BCD view and the domain check, in words of the digits. -/
def Obligations.BcdFieldsAreTypedByTheirDigits : Prop :=
  ∀ (tw raw lo hi offset : Nat) (path : FieldPath), 1 ≤ tw → tw ≤ 4 → raw < 2 ^ (tw + 4) →
    typedBcd raw tw lo hi = bcdTyped tw raw lo hi ∧
    bcdCheck path raw tw lo hi offset = bcdViolation path tw raw lo hi offset

/-- R130, R131, R132: PACK.TC completes with the time code view and the four checks, in order, at their offsets. -/
def Obligations.PackTcIsTimeCode : Prop :=
  ∀ (s : State) (std : Std) (slot : PackSlot) (pc1 pc2 pc3 pc4 : Byte),
    let a := slotByte slot
    let frames := pc1.toNat % 64
    let seconds := pc2.toNat % 128
    let minutes := pc3.toNat % 128
    let hours := pc4.toNat % 64
    ∃ t, exec (.packTc std slot pc1 pc2 pc3 pc4) s = .next t ∧
      PackServed s t
        { slot := slot
          pack := ⟨0x13, pc1.toNat, pc2.toNat, pc3.toNat, pc4.toNat⟩
          view := .tc
            { hours := bcdTyped 2 hours 0 23, minutes := bcdTyped 3 minutes 0 59,
              seconds := bcdTyped 3 seconds 0 59, frames := bcdTyped 2 frames 0 (lastFrame std),
              cf := pc1.toNat / 128, df := pc1.toNat / 64 % 2, pc := pc2.toNat / 128, bgf0 := pc3.toNat / 128,
              bgf1 := pc4.toNat / 64 % 2, bgf2 := pc4.toNat / 128 }
          violations :=
            bcdViolation (.tc slot .frames) 2 frames 0 (lastFrame std) (8 * (a + 1) + 2) ++
            bcdViolation (.tc slot .seconds) 3 seconds 0 59 (8 * (a + 2) + 1) ++
            bcdViolation (.tc slot .minutes) 3 minutes 0 59 (8 * (a + 3) + 1) ++
            bcdViolation (.tc slot .hours) 2 hours 0 23 (8 * (a + 4) + 2) }

/-- R133, R134, R135: PACK.RECDATE completes with the recording date view and the three checks, in order, at their
offsets. -/
def Obligations.PackRecdateIsRecordingDate : Prop :=
  ∀ (s : State) (std : Std) (slot : PackSlot) (pc1 pc2 pc3 pc4 : Byte),
    let a := slotByte slot
    let day := pc2.toNat % 64
    let month := pc3.toNat % 32
    let year := pc4.toNat
    ∃ t, exec (.packRecdate std slot pc1 pc2 pc3 pc4) s = .next t ∧
      PackServed s t
        { slot := slot
          pack := ⟨0x62, pc1.toNat, pc2.toNat, pc3.toNat, pc4.toNat⟩
          view := .recdate
            { year := bcdTyped 4 year 0 99, month := bcdTyped 1 month 1 12, day := bcdTyped 2 day 1 31,
              week := pc3.toNat / 32, tz := pc1.toNat % 64, ds := pc1.toNat / 128, tm := pc1.toNat / 64 % 2 }
          violations :=
            bcdViolation (.recdate slot .day) 2 day 1 31 (8 * (a + 2) + 2) ++
            bcdViolation (.recdate slot .month) 1 month 1 12 (8 * (a + 3) + 3) ++
            bcdViolation (.recdate slot .year) 4 year 0 99 (8 * (a + 4)) }

/-- R136, R137, R138: PACK.RECTIME completes with the recording time view and the four checks, in order, at their
offsets. -/
def Obligations.PackRectimeIsRecordingTime : Prop :=
  ∀ (s : State) (std : Std) (slot : PackSlot) (pc1 pc2 pc3 pc4 : Byte),
    let a := slotByte slot
    let frames := pc1.toNat % 64
    let seconds := pc2.toNat % 128
    let minutes := pc3.toNat % 128
    let hours := pc4.toNat % 64
    ∃ t, exec (.packRectime std slot pc1 pc2 pc3 pc4) s = .next t ∧
      PackServed s t
        { slot := slot
          pack := ⟨0x63, pc1.toNat, pc2.toNat, pc3.toNat, pc4.toNat⟩
          view := .rectime
            { hours := bcdTyped 2 hours 0 23, minutes := bcdTyped 3 minutes 0 59,
              seconds := bcdTyped 3 seconds 0 59, frames := bcdTyped 2 frames 0 (lastFrame std) }
          violations :=
            bcdViolation (.rectime slot .frames) 2 frames 0 (lastFrame std) (8 * (a + 1) + 2) ++
            bcdViolation (.rectime slot .seconds) 3 seconds 0 59 (8 * (a + 2) + 1) ++
            bcdViolation (.rectime slot .minutes) 3 minutes 0 59 (8 * (a + 3) + 1) ++
            bcdViolation (.rectime slot .hours) 2 hours 0 23 (8 * (a + 4) + 2) }

/-- R128, R129: PACK.NOINFO and PACK.RAW complete with their views, the bytes raw, and no violation. -/
def Obligations.NoinfoAndRawPacksFlagNothing : Prop :=
  ∀ (s : State) (std : Std) (slot : PackSlot) (pc0 pc1 pc2 pc3 pc4 : Byte),
    (∃ t, exec (.packNoinfo std slot pc1 pc2 pc3 pc4) s = .next t ∧
      PackServed s t ⟨slot, ⟨0xFF, pc1.toNat, pc2.toNat, pc3.toNat, pc4.toNat⟩, .noinfo, []⟩) ∧
    ∃ t, exec (.packRaw std slot pc0 pc1 pc2 pc3 pc4) s = .next t ∧
      PackServed s t ⟨slot, ⟨pc0.toNat, pc1.toNat, pc2.toNat, pc3.toNat, pc4.toNat⟩,
        .raw pc0.toNat pc1.toNat pc2.toNat pc3.toNat pc4.toNat, []⟩

/-- R127: the pack decoder inside a block is the pack's row: for every pack of a decoded record, running the row that
the decoder reads from the pack's five bytes gives the checks and the view the block decode uses. -/
def Obligations.PackRowsAreThePackDecoder : Prop :=
  ∀ (s : State) (std : Std) (slot : PackSlot) (pc0 pc1 pc2 pc3 pc4 : Byte),
    let p : Pack := ⟨pc0.toNat, pc1.toNat, pc2.toNat, pc3.toNat, pc4.toNat⟩
    ∃ i t, decode (.pack std slot [pc0, pc1, pc2, pc3, pc4]) = .ok i ∧ exec i s = .next t ∧
      PackServed s t ⟨slot, p, packView params std p, packChecks params std slot p⟩

/-! ## ENCODE -/

/-- R150: ENCODE, its encoding (op 0x5) and every case of its rule. An unmapped `sct`, or a body that disagrees with it, is
refused `BadRecord`; else the first field in layout order that does not fit is named, with its value or its length; else
the answer is an 80-byte block that holds every raw field of the record at its place. -/
def Obligations.EncodeAnswersEveryCase : Prop :=
  (∀ r : Request, r.op = 0x5 → decodeRequest r = .encode (if r.std = 0 then .ntsc else .pal) r.record) ∧
  ∀ (s : State) (std : Std) (r : DecodedBlock),
    (4 < r.id.sct ∨ [BlockType.header, .subcode, .vaux, .audio, .video][r.id.sct]? ≠ some r.body.type →
      ∃ t, exec (.encode std r) s = .next t ∧ Served s t (refusal .badRecord) ∧ t.bufs = s.bufs) ∧
    (∀ (pre post : List RawField) (f : RawField) (v : Nat),
      [BlockType.header, .subcode, .vaux, .audio, .video][r.id.sct]? = some r.body.type →
      params.layout.order r.body.type = pre ++ f :: post →
      (∀ g ∈ pre, fieldFits params r g = true) → fieldFits params r f = false → namedValue r f = some v →
      ∃ t, exec (.encode std r) s = .next t ∧ Served s t (raised .rangeError (.field (.raw f) v)) ∧
        t.bufs = s.bufs) ∧
    ([BlockType.header, .subcode, .vaux, .audio, .video][r.id.sct]? = some r.body.type →
      (∀ f ∈ params.layout.order r.body.type, fieldFits params r f = true) →
      ∃ t blk, exec (.encode std r) s = .next t ∧ Served s t (okData blk) ∧
        t.bufs = s.bufs.collect s.dest (okData blk) ∧ blk.length = 80 ∧
        ∀ f ∈ params.layout.order r.body.type,
          match f with
          | .int f => recGetInt r f = some (fieldBits blk (params.layout.int f).off (params.layout.int f).width)
          | .bytes f => recGetBytes r f =
              some ((blk.drop (params.layout.bytes f).byte).take (params.layout.bytes f).len))

/-- R151: ENCODE is all or nothing: an answer that is not OK returns no buffer and leaves every buffer as it was. -/
def Obligations.EncodeIsAllOrNothing : Prop :=
  ∀ (s t : State) (std : Std) (r : DecodedBlock) (resp : Response),
    exec (.encode std r) s = .next t → t.response = some resp → resp.status ≠ 0 →
      resp.data = none ∧ resp.result = none ∧ resp.decode = none ∧ t.bufs = s.bufs

/-- R153: the round trip from bytes. Every 80-byte block whose `sct` is mapped decodes, and its record encodes to the
block, byte for byte, under every standard. -/
def Obligations.RoundTripFromBytes : Prop :=
  ∀ (std std' : Std) (pos : PosWord) (blk : Bytes), blk.length = 80 → fieldBits blk 0 3 ≤ 4 →
    ∃ rcd vs, Answers (.decode std pos blk) (okDecoded rcd vs) ∧ Answers (.encode std' rcd) (okData blk)

/-- R154: the round trip from records. A record that agrees with its `sct` and fits the layout encodes to a block that
decodes to the identical record, with the violations the checks give its values. -/
def Obligations.RoundTripFromRecords : Prop :=
  ∀ (std std' : Std) (pos : PosWord) (rcd : DecodedBlock), recordFits params rcd = true →
    ∃ blk, Answers (.encode std rcd) (okData blk) ∧
      Answers (.decode std' pos blk)
        (okDecoded rcd (checkId params rcd.id rcd.body.type std' ++ bodyChecks params std' rcd.body))

/-- R101, R102: the identity of a record is its sequence number, its block type (the constructor of its body) and its
channel, track and block number, which are the ID fields `seq`, `fsc`, `dseq` and `dbn`; for a decoded block they are the
fields of the block at their offsets. -/
def Obligations.IdentityOfADecodedBlock : Prop :=
  (∀ b : DecodedBlock, identity b = ⟨b.id.seq, b.body.type, b.id.fsc, b.id.dseq, b.id.dbn⟩) ∧
  ∀ (std : Std) (pos : PosWord) (blk : Bytes) (rcd : DecodedBlock) (vs : List Violation),
    Answers (.decode std pos blk) (okDecoded rcd vs) →
      [BlockType.header, .subcode, .vaux, .audio, .video][fieldBits blk 0 3]? = some (identity rcd).type ∧
      identity rcd = ⟨fieldBits blk 4 4, rcd.body.type, fieldBits blk 12 1, fieldBits blk 8 4, fieldBits blk 16 8⟩

/-- R115, R125, R127: the typed views of a decoded block, in words of its bits: the Header's standard and its three
transmitting flags (bits 24, 40, 48, 56), the Video block's error flags (bits 24 to 27), and the view of every pack, which
is the view of the five bytes at the pack's place. -/
def Obligations.TypedViewsOfADecodedBlock : Prop :=
  ∀ (std : Std) (pos : PosWord) (blk : Bytes) (rcd : DecodedBlock) (vs : List Violation),
    Answers (.decode std pos blk) (okDecoded rcd vs) →
      (∀ h, rcd.body = .header h →
        headerStandard h = (if bitAt blk 24 = 0 then .ntsc else .pal) ∧ audioValid h = (bitAt blk 40 == 0) ∧
        videoValid h = (bitAt blk 48 == 0) ∧ subcodeValid h = (bitAt blk 56 == 0)) ∧
      (∀ v, rcd.body = .video v → errorFlags v = fieldBits blk 24 4) ∧
      packViews params std rcd =
        (slotsOf rcd.body.type).map fun slot => (slot, packView params std (packAt blk (slotByte slot)))

/-- R155: for every integer field but `sct`, of width `w`, of every record that fits: with the field set to 0 or to
`2^w - 1` the record encodes, and its block decodes to it; with the field set to `2^w`, ENCODE names the field and that
value. (`sct` is shut out because a changed `sct` no longer agrees with the body: R150 refuses it, notes/assumptions/16.md.)
-/
def Obligations.EncodeBoundaryValues : Prop :=
  ∀ (std std' : Std) (pos : PosWord) (rcd : DecodedBlock) (f : IntField),
    recordFits params rcd = true → .int f ∈ params.layout.order rcd.body.type → f ≠ .id .sct →
      (∀ v, v = 0 ∨ v = 2 ^ (params.layout.int f).width - 1 →
        ∃ rcd' blk vs, recSetInt rcd f v = some rcd' ∧ recGetInt rcd' f = some v ∧
          Answers (.encode std rcd') (okData blk) ∧ Answers (.decode std' pos blk) (okDecoded rcd' vs)) ∧
      ∃ rcd', recSetInt rcd f (2 ^ (params.layout.int f).width) = some rcd' ∧
        Answers (.encode std rcd')
          (raised .rangeError (.field (.raw (.int f)) (2 ^ (params.layout.int f).width)))

/-! ## Requests, responses and the whole machine -/

/-- R52, R53: the op selects the operation, and the instruction depends only on the fields its operation reads. -/
def Obligations.OpSelectsOperationAndItsOperands : Prop :=
  ∀ (r : Request),
    (r.op = 0x0 → decodeRequest r = .freadU r.width r.offset r.data) ∧
    (r.op = 0x1 → decodeRequest r = .freadS r.width r.offset r.data) ∧
    (r.op = 0x2 → decodeRequest r = .fwriteU r.width r.offset r.value r.data) ∧
    (r.op = 0x3 → decodeRequest r = .fwriteS r.width r.offset r.value r.data) ∧
    (r.op = 0x4 → decodeRequest r = .decode (if r.std = 0 then .ntsc else .pal) r.pos r.data) ∧
    (r.op = 0x5 → decodeRequest r = .encode (if r.std = 0 then .ntsc else .pal) r.record) ∧
    (6 ≤ r.op.toNat → (∃ b, decodeRequest r = .reservedOp67 b) ∨ ∃ b, decodeRequest r = .reservedOp8F b)

/-- R164, R86: every request has exactly one status, the first condition in the order of the rule. -/
def Obligations.RequestStatusByPriority : Prop :=
  ∀ (s : State) (r : Request), ∃ t resp, exec (decodeRequest r) s = .next t ∧ t.response = some resp ∧
    resp.status = statusCode (requestStatus r)

/-- R161: the numbers of the statuses, that the block never reports 4 to 7 or 13 to 15, and that a DECODE's status is 0
when it is Decoded and the cause when it is Unreadable. -/
def Obligations.StatusCodesOfResponses : Prop :=
  ([Status.ok, .error .boundsError, .error .rangeError, .error .unknownBlockType, .error .malformedField,
    .error .crossCheckMismatch, .error .resyncExhausted, .refused .illegalOp, .refused .widthError,
    .refused .bufTooLong, .refused .lengthError, .refused .badRecord].map statusCode =
      [0, 1, 2, 3, 4, 5, 6, 8, 9, 10, 11, 12]) ∧
  ∀ (i : Instr) (s t : State) (r : Response), exec i s = .next t → t.log = s.log ++ [r] →
    r.status ∈ ([0, 1, 2, 3, 8, 9, 10, 11, 12] : List StatusWord) ∧
    (∀ b vs, r.decode = some (.decoded b vs) → r.status = 0) ∧
    ∀ pos cause sct, r.decode = some (.unreadable pos cause sct) →
      (cause = .boundsError ∧ r.status = 1) ∨ (cause = .unknownBlockType ∧ r.status = 3)

/-- R88, R20, R21: every request has exactly one response, a function of its operands alone: whatever the state, the block
answers and the answer is the same. -/
def Obligations.EveryRequestHasOneResponse : Prop :=
  ∀ (q : Request), ∃ r, ∀ (s : State), ∃ t, exec (decodeRequest q) s = .next t ∧ Served s t r

/-- R88, R20, R21, R188: every instruction completes in every state, and its one answer is a function of the instruction
alone, whatever came before it: a request or block row has one response, the same in every state; a pack row (the model's
own presentation, notes/assumptions/2.md) has one pack output, the same in every state, and no response. -/
def Obligations.EveryInstructionHasOneAnswer : Prop :=
  ∀ (i : Instr),
    (isPackRow i = false →
      ∃ r, ∀ s, ∃ t, exec i s = .next t ∧ t.response = some r ∧ t.log = s.log ++ [r] ∧ t.packOut = s.packOut) ∧
    (isPackRow i = true →
      ∃ p, ∀ s, ∃ t, exec i s = .next t ∧ t.packOut = some p ∧ t.log = s.log ∧ t.response = s.response)

/-- R51, R74: every response of the block has one of the response forms, and the response port shows it: the status, and
each field the response names. (What the port holds in a field the response does not name is a free value,
notes/assumptions/12.md: nothing is said of it.) -/
def Obligations.ResponsePortShowsTheResponse : Prop :=
  ∀ (i : Instr) (s t : State) (r : Response), exec i s = .next t → t.log = s.log ++ [r] →
    (responseForm r).isSome = true ∧ t.statusPort = r.status ∧ (∀ v, r.result = some v → t.resultPort = v) ∧
    (∀ d, r.data = some d → t.dataPort = d) ∧ ∀ x, r.decode = some x → t.decodePort = x

/-- R160, R112, R20, R21: whatever was answered before, an error or a refusal too, the next item presented is accepted, and
it is answered as it would be right after reset. The item may be a block or a pack presented by itself, which is the
model's choice (notes/assumptions/2.md); the last clause, on the pack output, is about packs so presented only. -/
def Obligations.NextRequestIsServedAsAfterReset : Prop :=
  ∀ (i j : Instr) (s t : State) (item : Presented) (dest : Option Name),
    exec i s = .next t → decode item = .ok j →
      ∃ u v t' v', t.present ⟨item, dest⟩ = some u ∧ step u = .next t' ∧
        State.reset.present ⟨item, dest⟩ = some v ∧ step v = .next v' ∧
        t'.log = t.log ++ v'.log ∧ (v'.log ≠ [] → t'.response = v'.response) ∧
        (v'.log = [] → t'.packOut = v'.packOut)

/-- The frame of every instruction: the program is unchanged, the request port is emptied; a request or block row appends
one response and leaves the pack output, a pack row (the model's own presentation, notes/assumptions/2.md) leaves the
response port, the log and the mark; only FWRITE.U, FWRITE.S and ENCODE change a buffer, and only the destination. -/
def Obligations.InstructionFrame : Prop :=
  ∀ (i : Instr) (s t : State), exec i s = .next t →
    t.program = s.program ∧ t.request = none ∧
    (isPackRow i = false → ∃ r, Served s t r) ∧ (isPackRow i = true → ∃ p, PackServed s t p) ∧
    (∀ b k, s.dest ≠ some b → t.bufs.byte? b k = s.bufs.byte? b k) ∧
    ((∀ w o v d, i ≠ .fwriteU w o v d) → (∀ w o v d, i ≠ .fwriteS w o v d) → (∀ std r, i ≠ .encode std r) →
      t.bufs = s.bufs)

/-- A step serves the outstanding request: it runs the instruction the decoder reads. -/
def Obligations.StepRunsTheOutstandingRequest : Prop :=
  ∀ (s : State) (o : Outstanding) (i : Instr), s.request = some o → decode o.item = .ok i → step s = exec i s

/-- With none outstanding, a step takes the next line; a line that presents a request has it served in the same step. -/
def Obligations.StepPresentsTheNextLine : Prop :=
  ∀ (s : State) (l : Line) (rest : List Line) (o : Outstanding) (i : Instr),
    s.request = none → s.program = l :: rest →
    lineRequest { s with program := rest } (expand l) = some (.ok o) → decode o.item = .ok i →
      step s = exec i { s with program := rest, request := some o }

/-- R71: the request each line presents, its destination buffer, and what an edit does, each under its own premise only: a
read, write or DECODE line needs its buffer, an ENCODE line its record (the one response `n` of the log holds, counting
from 1) and no buffer, a REQ line nothing. An edit gives the named raw field its value and changes no other field. Model's
choices: a REQ line carries any item, a block or a pack too (notes/assumptions/2.md), and has no destination
(notes/assumptions/20.md); a line without its buffer, its record or an edited field stops (notes/assumptions/4.md,
notes/assumptions/13.md); edits are applied in the order written (notes/assumptions/21.md). -/
def Obligations.LinesPresentTheirRequests : Prop :=
  ∀ (s : State) (b : Name) (o : OffsetWord) (w : WidthWord) (v : ValueWord) (pos : PosWord) (std : Std) (n : Nat)
    (es : List Edit) (rcd : DecodedBlock),
    (∀ d, s.bufs.get? b = some d →
      (∃ q, lineRequest s (.freadU b o w) = some (.ok ⟨.request q, none⟩) ∧ decodeRequest q = .freadU w o d) ∧
      (∃ q, lineRequest s (.freadS b o w) = some (.ok ⟨.request q, none⟩) ∧ decodeRequest q = .freadS w o d) ∧
      (∃ q, lineRequest s (.fwriteU b o w v) = some (.ok ⟨.request q, some b⟩) ∧ decodeRequest q = .fwriteU w o v d) ∧
      (∃ q, lineRequest s (.fwriteS b o w v) = some (.ok ⟨.request q, some b⟩) ∧ decodeRequest q = .fwriteS w o v d) ∧
      (∃ q, lineRequest s (.decode b pos std) = some (.ok ⟨.request q, none⟩) ∧ decodeRequest q = .decode std pos d)) ∧
    (s.bufs.get? b = none →
      ∀ l ∈ [Line.freadU b o w, .freadS b o w, .fwriteU b o w v, .fwriteS b o w v, .decode b pos std],
        lineRequest s l = some (.error (.noSuchBuffer b))) ∧
    (loggedRecord s.log n = some rcd →
      (∃ q, lineRequest s (.encode b ⟨n, []⟩ std) = some (.ok ⟨.request q, some b⟩) ∧
        decodeRequest q = .encode std rcd) ∧
      (∀ rcd', applyEdits es rcd = .ok rcd' →
        ∃ q, lineRequest s (.encode b ⟨n, es⟩ std) = some (.ok ⟨.request q, some b⟩) ∧
          decodeRequest q = .encode std rcd') ∧
      ∀ f, applyEdits es rcd = .error f → lineRequest s (.encode b ⟨n, es⟩ std) = some (.error f)) ∧
    (loggedRecord s.log n = none → lineRequest s (.encode b ⟨n, es⟩ std) = some (.error (.noSuchRecord n))) ∧
    (loggedRecord s.log n = some rcd ↔
      ∃ r vs, 0 < n ∧ s.log[n - 1]? = some r ∧ r.decode = some (.decoded rcd vs)) ∧
    applyEdits [] rcd = .ok rcd ∧
    (∀ e rcd', applyEdits [e] rcd = .ok rcd' → applyEdits (e :: es) rcd = applyEdits es rcd') ∧
    (∀ e f, applyEdits [e] rcd = .error f → applyEdits (e :: es) rcd = .error f) ∧
    (∀ (f : IntField) (x : Nat),
      (recGetInt rcd f = none → applyEdits [.int f x] rcd = .error (.noSuchField (.int f))) ∧
      ((recGetInt rcd f).isSome = true → ∃ rcd', applyEdits [.int f x] rcd = .ok rcd' ∧
        rcd'.body.type = rcd.body.type ∧ recGetInt rcd' f = some x ∧
        (∀ g, g ≠ f → recGetInt rcd' g = recGetInt rcd g) ∧ ∀ g, recGetBytes rcd' g = recGetBytes rcd g)) ∧
    (∀ (f : BytesField) (x : Bytes),
      (recGetBytes rcd f = none → applyEdits [.bytes f x] rcd = .error (.noSuchField (.bytes f))) ∧
      ((recGetBytes rcd f).isSome = true → ∃ rcd', applyEdits [.bytes f x] rcd = .ok rcd' ∧
        rcd'.body.type = rcd.body.type ∧ recGetBytes rcd' f = some x ∧
        (∀ g, g ≠ f → recGetBytes rcd' g = recGetBytes rcd g) ∧ ∀ g, recGetInt rcd' g = recGetInt rcd g)) ∧
    ∀ item : Presented, lineRequest s (.req item) = some (.ok ⟨item, none⟩)

/-- R72: the pseudo-instructions and their expansions, the offsets as numbers; every line of R71 is its own expansion. -/
def Obligations.PseudoInstructionsExpand : Prop :=
  ∀ (b : Name) (k : BitVec 29) (o : OffsetWord) (h : BitVec 1) (w : WidthWord) (v : ValueWord) (pos : PosWord) (std : Std)
    (d : Bytes) (ref : RecRef) (item : Presented),
    (∃ o', expand (.freadByte b k) = .freadU b o' 8 ∧ o'.toNat = 8 * k.toNat) ∧
    expand (.freadBit b o) = .freadU b o 1 ∧
    (∃ o', expand (.freadNib b k h) = .freadU b o' 4 ∧ o'.toNat = 8 * k.toNat + 4 * h.toNat) ∧
    (∃ o', expand (.fwriteByte b k v) = .fwriteU b o' 8 v ∧ o'.toNat = 8 * k.toNat) ∧
    expand (.fset b o) = .fwriteU b o 1 1 ∧ expand (.fclr b o) = .fwriteU b o 1 0 ∧
    ∀ l ∈ [Line.load b d, .freadU b o w, .freadS b o w, .fwriteU b o w v, .fwriteS b o w v, .decode b pos std,
        .encode b ref std, .req item],
      expand l = l

/-- R33: the harness step. With a request outstanding, a step completes: the response is appended to the log, the named
buffer is replaced by the returned one when a codec write or an ENCODE returned one, every other buffer (and, where
nothing is returned, every buffer) is as it was, and the mark is set by a refusal. No step ever clears the mark, and a
LOAD line sets its buffer and sends nothing. -/
def Obligations.HarnessTakesTheAnswer : Prop :=
  (∀ (s : State) (q : Request) (dest : Option Name), s.request = some ⟨.request q, dest⟩ →
    ∃ t r, step s = .next t ∧ t.log = s.log ++ [r] ∧ t.response = some r ∧
      t.refused = (s.refused || decide (8 ≤ r.status.toNat)) ∧
      (∀ b d, dest = some b → r.data = some d → t.bufs.get? b = some d) ∧
      (∀ b, dest ≠ some b ∨ r.data = none → t.bufs.get? b = s.bufs.get? b) ∧
      (∀ d, r.data = some d → r.status = 0 ∧ 2 ≤ q.op.toNat ∧ q.op ≠ 4)) ∧
  (∀ (s t : State), step s = .next t → s.refused = true → t.refused = true) ∧
  ∀ (s : State) (b : Name) (d : Bytes) (rest : List Line), s.request = none → s.program = .load b d :: rest →
    ∃ t, step s = .next t ∧ t.bufs.get? b = some d ∧ (∀ c, c ≠ b → t.bufs.get? c = s.bufs.get? c) ∧
      t.request = none ∧ t.log = s.log ∧ t.response = s.response ∧ t.refused = s.refused ∧ t.program = rest

/-- R49: an instance with a request outstanding accepts no other, and after a step none is outstanding. -/
def Obligations.OneRequestAtATime : Prop :=
  (∀ (s : State) (o o' : Outstanding), s.request = some o → s.present o' = none) ∧
  (∀ (s : State) (o : Outstanding), s.request = none → s.present o = some { s with request := some o }) ∧
  ∀ (s t : State), step s = .next t → t.request = none

/-- R32, R34, R180: after reset no request is outstanding and no response is valid; a program's log starts empty and its
refusal mark not set. Reset abandons a request in progress: it returns no response, and nothing of the caller's harness
changes. -/
def Obligations.ResetAbandonsTheRequest : Prop :=
  (State.reset.request = none ∧ State.reset.response = none ∧ State.reset.log = [] ∧ State.reset.refused = false) ∧
  ∀ (s : State), s.assertReset.request = none ∧ s.assertReset.response = none ∧ s.assertReset.log = s.log ∧
    s.assertReset.bufs = s.bufs ∧ s.assertReset.refused = s.refused ∧ s.assertReset.program = s.program

/-- A few table words, written out from their encodings, decode to the instructions they stand for. -/
def Obligations.TableWordsDecode : Prop :=
  (decodeTableWord 8 0x7 = some (.reservedOp67 1)) ∧ (decodeTableWord 8 0xB = some (.reservedOp8F 3)) ∧
  (decodeTableWord 24 0x96C785 =
    some (.blkVideo .ntsc 0 ⟨1, 6, 0xC, 0, 7, 0x85⟩ (List.replicate 77 0))) ∧
  (decodeTableWord 24 0xE00000 = some (.blkUnknown67 1 .ntsc 0 ⟨0, 0, 0, 0, 0, 0⟩ (List.replicate 77 0))) ∧
  (decodeTableWord 40 0x62FFC00126 = some (.packRecdate .ntsc .aaux 0xFF 0xC0 0x01 0x26)) ∧
  decodeTableWord 40 0x50D0E0C000 = some (.packRaw .ntsc .aaux 0x50 0xD0 0xE0 0xC0 0x00)

/-- Decode and encode agree: every well-formed instruction is what the decoder reads from its encoding. -/
def Obligations.DecodeOfEncodeIsTheInstruction : Prop :=
  ∀ (i : Instr), i.wellFormed = true → decode (encode i) = .ok i

/-- Encode and decode agree the other way for blocks and packs: what the decoder accepts, the encoder gives back. -/
def Obligations.EncodeOfDecodedItemIsTheItem : Prop :=
  (∀ (std : Std) (pos : PosWord) (bytes : Bytes) (i : Instr),
    decode (.block std pos bytes) = .ok i → encode i = .block std pos bytes ∧ i.wellFormed = true) ∧
  ∀ (std : Std) (slot : PackSlot) (bytes : Bytes) (i : Instr),
    decode (.pack std slot bytes) = .ok i → encode i = .pack std slot bytes ∧ i.wellFormed = true

/-- The invariant holds at reset. -/
def Obligations.InvariantAtReset : Prop := StateInv State.reset

/-- Every step keeps the invariant: the buffers in canonical form, every logged response one the block gives and every
logged record one that agrees with its `sct` and fits the layout, the refusal mark exact, the port the last response. -/
def Obligations.StepKeepsInvariant : Prop :=
  ∀ (s t : State), StateInv s → step s = .next t → StateInv t
end

