-- ==== Sys2Proof/Laws/Bits.lean ====
section
/-! SUPPORT. What the bit-field primitives do: the bits of a field, of a replaced field, and of byte sequences; a buffer
is determined by its length and its bits. -/

namespace Sys2Proof.Machine

/-! ## Numbers from bits -/

theorem natOfBits_zero (f : Nat → Nat) : natOfBits 0 f = 0 := rfl

theorem natOfBits_succ (w : Nat) (f : Nat → Nat) : natOfBits (w + 1) f = 2 * natOfBits w f + f w := by
  have h : ∀ i ∈ List.range w, f i * 2 ^ (w - i) = 2 * (f i * 2 ^ (w - 1 - i)) := by
    intro i hi
    have : w - i = (w - 1 - i) + 1 := by have := List.mem_range.1 hi; omega
    rw [this, pow_succ]; ring
  simp only [natOfBits, List.range_succ, List.map_append, List.sum_append, Nat.add_sub_cancel]
  rw [List.map_congr_left h, List.sum_map_mul_left]
  simp

theorem natOfBits_lt {w : Nat} {f : Nat → Nat} (h : ∀ i < w, f i < 2) : natOfBits w f < 2 ^ w := by
  induction w with
  | zero => simp [natOfBits_zero]
  | succ w ih =>
    have h1 := ih fun i hi => h i (by omega)
    have h2 := h w (by omega)
    rw [natOfBits_succ, pow_succ]; omega

theorem natOfBits_congr {w : Nat} {f g : Nat → Nat} (h : ∀ i < w, f i = g i) : natOfBits w f = natOfBits w g := by
  induction w with
  | zero => rfl
  | succ w ih => rw [natOfBits_succ, natOfBits_succ, ih fun i hi => h i (by omega), h w (by omega)]

/-- Bit `i` of the number, counted from its most significant bit. -/
theorem natOfBits_bit {w : Nat} {f : Nat → Nat} (h : ∀ i < w, f i < 2) {i : Nat} (hi : i < w) :
    (natOfBits w f >>> (w - 1 - i)) % 2 = f i := by
  induction w with
  | zero => omega
  | succ w ih =>
    have hw := h w (by omega)
    rw [natOfBits_succ]
    by_cases hiw : i = w
    · subst hiw; simp; omega
    · have : w + 1 - 1 - i = (w - 1 - i) + 1 := by omega
      rw [this, Nat.add_comm (w - 1 - i) 1, Nat.shiftRight_add]
      have : (2 * natOfBits w f + f w) >>> 1 = natOfBits w f := by simp [Nat.shiftRight_one]; omega
      rw [this]
      exact ih (fun i hi => h i (by omega)) (by omega)

/-- A number below `2^w` is made of its `w` bits. -/
theorem natOfBits_bits (w n : Nat) (h : n < 2 ^ w) : natOfBits w (fun i => (n >>> (w - 1 - i)) % 2) = n := by
  induction w generalizing n with
  | zero => simp [natOfBits_zero] at *; omega
  | succ w ih =>
    have hn : n / 2 < 2 ^ w := by rw [pow_succ] at h; omega
    rw [natOfBits_succ]
    have : natOfBits w (fun i => (n >>> (w + 1 - 1 - i)) % 2) = n / 2 := by
      rw [← ih (n / 2) hn]
      refine natOfBits_congr fun i hi => ?_
      have e : w + 1 - 1 - i = 1 + (w - 1 - i) := by omega
      rw [e, Nat.shiftRight_add, Nat.shiftRight_one]
    rw [this]; simp; omega

/-! ## Bits of a buffer -/

theorem bitAt_lt (buf : Bytes) (k : Nat) : bitAt buf k < 2 := Nat.mod_lt _ (by decide)

theorem bitAt_nil (k : Nat) : bitAt [] k = 0 := by simp [bitAt]

theorem bitAt_cons (b : Byte) (buf : Bytes) (k : Nat) :
    bitAt (b :: buf) k = if k < 8 then (b.toNat >>> (7 - k)) % 2 else bitAt buf (k - 8) := by
  unfold bitAt
  split
  · rename_i h
    rw [Nat.div_eq_of_lt h, Nat.mod_eq_of_lt h]; rfl
  · rename_i h
    obtain ⟨j, rfl⟩ : ∃ j, k = j + 8 := ⟨k - 8, by omega⟩
    simp

theorem bitAt_of_length_le {buf : Bytes} {k : Nat} (h : 8 * buf.length ≤ k) : bitAt buf k = 0 := by
  have : buf.length ≤ k / 8 := by omega
  simp [bitAt, List.getD_eq_getElem?_getD, List.getElem?_eq_none this]

theorem bitAt_append_left {a : Bytes} (b : Bytes) {k : Nat} (h : k < 8 * a.length) : bitAt (a ++ b) k = bitAt a k := by
  have : k / 8 < a.length := by omega
  simp [bitAt, List.getD_eq_getElem?_getD, List.getElem?_append_left this]

theorem bitAt_append_right {a : Bytes} (b : Bytes) {k : Nat} (h : 8 * a.length ≤ k) :
    bitAt (a ++ b) k = bitAt b (k - 8 * a.length) := by
  have h1 : a.length ≤ k / 8 := by omega
  have h2 : (k - 8 * a.length) / 8 = k / 8 - a.length := by omega
  have h3 : (k - 8 * a.length) % 8 = k % 8 := by omega
  simp [bitAt, List.getD_eq_getElem?_getD, List.getElem?_append_right h1, h2, h3]

theorem bitAt_drop (buf : Bytes) (a k : Nat) : bitAt (buf.drop a) k = bitAt buf (8 * a + k) := by
  have h1 : (8 * a + k) / 8 = a + k / 8 := by omega
  have h2 : (8 * a + k) % 8 = k % 8 := by omega
  simp [bitAt, List.getD_eq_getElem?_getD, h1, h2]

theorem bitAt_take (buf : Bytes) {n k : Nat} (h : k < 8 * n) : bitAt (buf.take n) k = bitAt buf k := by
  have : k / 8 < n := by omega
  simp [bitAt, List.getD_eq_getElem?_getD, this]

theorem byte_of_bits (b : Byte) : natOfBits 8 (fun j => (b.toNat >>> (7 - j)) % 2) = b.toNat :=
  natOfBits_bits 8 b.toNat b.isLt

/-- Two bytes with the same eight bits are equal. -/
theorem byte_ext {a b : Byte} (h : ∀ j < 8, (a.toNat >>> (7 - j)) % 2 = (b.toNat >>> (7 - j)) % 2) : a = b := by
  apply BitVec.eq_of_toNat_eq
  rw [← byte_of_bits a, ← byte_of_bits b]
  exact natOfBits_congr h

/-- Two buffers of one length with the same bits are equal. -/
theorem bytes_ext {a b : Bytes} (hl : a.length = b.length) (h : ∀ k < 8 * a.length, bitAt a k = bitAt b k) : a = b := by
  induction a generalizing b with
  | nil => cases b with
    | nil => rfl
    | cons => simp at hl
  | cons x a ih => cases b with
    | nil => simp at hl
    | cons y b =>
      simp only [List.length_cons, Nat.add_right_cancel_iff] at hl
      have hx : x = y := byte_ext fun j hj => by
        have := h j (by simp; omega)
        simpa [bitAt_cons, hj] using this
      have hab : a = b := ih hl fun k hk => by
        have := h (k + 8) (by simp; omega)
        simpa [bitAt_cons] using this
      rw [hx, hab]

/-! ## Fields -/

theorem fieldBits_lt (buf : Bytes) (o w : Nat) : fieldBits buf o w < 2 ^ w :=
  natOfBits_lt fun _ _ => bitAt_lt _ _

/-- Bit `i` of a field's value is the bit at offset `o + i` (R35, R77). -/
theorem fieldBits_bit (buf : Bytes) (o : Nat) {w i : Nat} (hi : i < w) :
    (fieldBits buf o w >>> (w - 1 - i)) % 2 = bitAt buf (o + i) :=
  natOfBits_bit (fun _ _ => bitAt_lt _ _) hi

theorem fieldBits_congr {a b : Bytes} {o o' w : Nat} (h : ∀ i < w, bitAt a (o + i) = bitAt b (o' + i)) :
    fieldBits a o w = fieldBits b o' w := natOfBits_congr h

/-- A field whose bits are those of a number below `2^w` has that number as its value. -/
theorem fieldBits_eq_of_bits {buf : Bytes} {o w n : Nat} (hn : n < 2 ^ w)
    (h : ∀ i < w, bitAt buf (o + i) = (n >>> (w - 1 - i)) % 2) : fieldBits buf o w = n := by
  rw [← natOfBits_bits w n hn]
  exact natOfBits_congr h

theorem fieldBits_append_left {a : Bytes} (b : Bytes) {o w : Nat} (h : o + w ≤ 8 * a.length) :
    fieldBits (a ++ b) o w = fieldBits a o w :=
  fieldBits_congr fun i hi => bitAt_append_left _ (by omega)

/-- Two buffers that give one field the same value agree on the field's bits. -/
theorem bitAt_eq_of_fieldBits_eq {a b : Bytes} {o w : Nat} (h : fieldBits a o w = fieldBits b o w) {k : Nat}
    (h1 : o ≤ k) (h2 : k < o + w) : bitAt a k = bitAt b k := by
  obtain ⟨i, rfl⟩ : ∃ i, k = o + i := ⟨k - o, by omega⟩
  rw [← fieldBits_bit a o (show i < w by omega), ← fieldBits_bit b o (show i < w by omega), h]

/-- A field one bit wider is twice the field and its last bit. -/
theorem fieldBits_succ (buf : Bytes) (o w : Nat) :
    fieldBits buf o (w + 1) = 2 * fieldBits buf o w + bitAt buf (o + w) := natOfBits_succ ..

theorem fieldBits_zero (buf : Bytes) (o : Nat) : fieldBits buf o 0 = 0 := natOfBits_zero _

/-- Two adjacent fields read as one: the one at the lower offset is the more significant part (R35). -/
theorem fieldBits_add (buf : Bytes) (o w w' : Nat) :
    fieldBits buf o (w + w') = fieldBits buf o w * 2 ^ w' + fieldBits buf (o + w) w' := by
  induction w' with
  | zero => simp [fieldBits_zero]
  | succ n ih => rw [← Nat.add_assoc, fieldBits_succ, fieldBits_succ, ih, Nat.pow_succ, Nat.add_assoc]; ring

/-- A field that lies in one byte, in words of that byte (R36). -/
theorem fieldBits_byte (buf : Bytes) (k j w : Nat) (h : j + w ≤ 8) :
    fieldBits buf (8 * k + j) w = (buf.getD k 0).toNat / 2 ^ (8 - (j + w)) % 2 ^ w := by
  induction w with
  | zero => simp [fieldBits_zero, Nat.mod_one]
  | succ w ih =>
    have hb : bitAt buf (8 * k + j + w) = (buf.getD k 0).toNat / 2 ^ (8 - (j + (w + 1))) % 2 := by
      simp [bitAt, Nat.shiftRight_eq_div_pow, show (8 * k + j + w) / 8 = k by omega,
        show (8 * k + j + w) % 8 = j + w by omega, show 7 - (j + w) = 8 - (j + (w + 1)) by omega]
    rw [fieldBits_succ, ih (by omega), hb, show 8 - (j + w) = 8 - (j + (w + 1)) + 1 by omega, pow_succ,
      ← Nat.div_div_eq_div_mul]
    generalize (buf.getD k 0).toNat / 2 ^ (8 - (j + (w + 1))) = y
    rw [pow_succ, Nat.mul_comm (2 ^ w) 2, Nat.mod_mul]; omega

/-- Two buffers of one length with the same eight bits in byte `k` have the same byte `k`. -/
theorem getElem?_of_bits {a b : Bytes} (hl : a.length = b.length) {k : Nat}
    (h : ∀ j < 8, bitAt a (8 * k + j) = bitAt b (8 * k + j)) : a[k]? = b[k]? := by
  by_cases hk : k < a.length
  · rw [List.getElem?_eq_getElem hk, List.getElem?_eq_getElem (by omega)]
    congr 1
    refine byte_ext fun j hj => ?_
    have := h j hj
    simpa [bitAt, show (8 * k + j) / 8 = k by omega, show (8 * k + j) % 8 = j by omega,
      List.getD_eq_getElem?_getD, List.getElem?_eq_getElem hk,
      List.getElem?_eq_getElem (show k < b.length by omega)] using this
  · rw [List.getElem?_eq_none (by omega), List.getElem?_eq_none (by omega)]

/-! ## Replacing a field -/

theorem spliceByte_bit (k0 o w raw : Nat) (b : Byte) {j : Nat} (hj : j < 8) :
    ((spliceByte k0 o w raw b).toNat >>> (7 - j)) % 2 =
      if o ≤ k0 + j ∧ k0 + j < o + w then (raw >>> (w - 1 - (k0 + j - o))) % 2 else (b.toNat >>> (7 - j)) % 2 := by
  set f : Nat → Nat := fun j =>
    if o ≤ k0 + j ∧ k0 + j < o + w then (raw >>> (w - 1 - (k0 + j - o))) % 2 else (b.toNat >>> (7 - j)) % 2 with hf
  have hf2 : ∀ i < 8, f i < 2 := by
    intro i _
    simp only [hf]
    split <;> exact Nat.mod_lt _ (by decide)
  have hlt : natOfBits 8 f < 2 ^ 8 := natOfBits_lt hf2
  have : (spliceByte k0 o w raw b).toNat = natOfBits 8 f := by
    simp only [spliceByte, BitVec.toNat_ofNat]
    exact Nat.mod_eq_of_lt hlt
  rw [this]
  exact natOfBits_bit hf2 hj

theorem length_putBitsFrom (o w raw k0 : Nat) (buf : Bytes) : (putBitsFrom o w raw k0 buf).length = buf.length := by
  induction buf generalizing k0 with
  | nil => rfl
  | cons b bs ih => simp [putBitsFrom, ih]

/-- A replaced field does not change the buffer's length (R81). -/
@[simp] theorem length_putBits (buf : Bytes) (o w raw : Nat) : (putBits buf o w raw).length = buf.length :=
  length_putBitsFrom o w raw 0 buf

theorem bitAt_putBitsFrom (o w raw k0 : Nat) (buf : Bytes) (k : Nat) (hk : k < 8 * buf.length) :
    bitAt (putBitsFrom o w raw k0 buf) k =
      if o ≤ k0 + k ∧ k0 + k < o + w then (raw >>> (w - 1 - (k0 + k - o))) % 2 else bitAt buf k := by
  induction buf generalizing k0 k with
  | nil => simp at hk
  | cons b bs ih =>
    rw [putBitsFrom, bitAt_cons]
    by_cases h8 : k < 8
    · simp only [h8, if_true, bitAt_cons]
      by_cases hout : k0 + 8 ≤ o ∨ o + w ≤ k0
      · have : ¬(o ≤ k0 + k ∧ k0 + k < o + w) := by omega
        simp [hout, this]
      · simp only [hout, if_false]
        exact spliceByte_bit k0 o w raw b h8
    · have hk' : k - 8 < 8 * bs.length := by simp at hk; omega
      have e : k0 + 8 + (k - 8) = k0 + k := by omega
      rw [if_neg h8, ih (k0 + 8) (k - 8) hk', e, bitAt_cons, if_neg h8]

/-- The bits of a buffer with a field replaced (R81). -/
theorem bitAt_putBits (buf : Bytes) (o w raw : Nat) {k : Nat} (hk : k < 8 * buf.length) :
    bitAt (putBits buf o w raw) k =
      if o ≤ k ∧ k < o + w then (raw >>> (w - 1 - (k - o))) % 2 else bitAt buf k := by
  simpa [putBits] using bitAt_putBitsFrom o w raw 0 buf k hk

/-- A bit outside the field is unchanged (R81). -/
theorem bitAt_putBits_of_not_mem (buf : Bytes) (o w raw : Nat) {k : Nat} (h : ¬(o ≤ k ∧ k < o + w)) :
    bitAt (putBits buf o w raw) k = bitAt buf k := by
  by_cases hk : k < 8 * buf.length
  · rw [bitAt_putBits _ _ _ _ hk, if_neg h]
  · rw [bitAt_of_length_le (by simpa using hk), bitAt_of_length_le (by simpa using hk)]

/-- A replaced field reads as what was put there (R87 (a)). -/
theorem fieldBits_putBits_same {buf : Bytes} {o w raw : Nat} (hb : o + w ≤ 8 * buf.length) (hr : raw < 2 ^ w) :
    fieldBits (putBits buf o w raw) o w = raw :=
  fieldBits_eq_of_bits hr fun i hi => by
    rw [bitAt_putBits _ _ _ _ (by omega), if_pos (by omega)]
    congr 2; omega

/-- A field disjoint from the replaced one reads as before (R87 (d)). -/
theorem fieldBits_putBits_disjoint (buf : Bytes) {o w raw o' w' : Nat} (h : o' + w' ≤ o ∨ o + w ≤ o') :
    fieldBits (putBits buf o w raw) o' w' = fieldBits buf o' w' :=
  fieldBits_congr fun i hi => bitAt_putBits_of_not_mem _ _ _ _ (by omega)

/-- Putting back what a field holds changes nothing (R87 (b)). -/
theorem putBits_fieldBits {buf : Bytes} {o w : Nat} : putBits buf o w (fieldBits buf o w) = buf :=
  bytes_ext (by simp) fun k hk => by
    rw [bitAt_putBits _ _ _ _ (by simpa using hk)]
    split
    · rename_i h
      obtain ⟨i, rfl⟩ : ∃ i, k = o + i := ⟨k - o, by omega⟩
      rw [Nat.add_sub_cancel_left, fieldBits_bit buf o (by omega)]
    · rfl

/-- Replacing two disjoint fields gives the same buffer in either order (R87 (c)). -/
theorem putBits_comm {buf : Bytes} {o w raw o' w' raw' : Nat} (h : o + w ≤ o' ∨ o' + w' ≤ o) :
    putBits (putBits buf o w raw) o' w' raw' = putBits (putBits buf o' w' raw') o w raw :=
  bytes_ext (by simp) fun k hk => by
    have hk : k < 8 * buf.length := by simpa using hk
    rw [bitAt_putBits _ _ _ _ (by simpa using hk), bitAt_putBits _ _ _ _ hk,
      bitAt_putBits _ _ _ _ (by simpa using hk), bitAt_putBits _ _ _ _ hk]
    by_cases h1 : o' ≤ k ∧ k < o' + w'
    · rw [if_pos h1, if_neg (show ¬(o ≤ k ∧ k < o + w) by omega), if_pos h1]
    · rw [if_neg h1, if_neg h1]

/-! ## Byte sequences -/

theorem length_memRead {buf : Bytes} {a n : Nat} (h : a + n ≤ buf.length) : (memRead buf a n).length = n := by
  simp [memRead]; omega

theorem bitAt_memRead (buf : Bytes) (a : Nat) {n k : Nat} (h : k < 8 * n) :
    bitAt (memRead buf a n) k = bitAt buf (8 * a + k) := by
  rw [memRead, bitAt_take _ h, bitAt_drop]

theorem length_memWrite {buf v : Bytes} {a n : Nat} (h : a + n ≤ buf.length) (hv : v.length = n) :
    (memWrite buf a n v).length = buf.length := by
  simp [memWrite, hv]; omega

/-- The bits of a buffer with a byte sequence replaced (R12). -/
theorem bitAt_memWrite {buf v : Bytes} {a n : Nat} (h : a + n ≤ buf.length) (hv : v.length = n) (k : Nat) :
    bitAt (memWrite buf a n v) k =
      if 8 * a ≤ k ∧ k < 8 * (a + n) then bitAt v (k - 8 * a) else bitAt buf k := by
  have hta : (buf.take a).length = a := by simp; omega
  unfold memWrite
  by_cases h1 : k < 8 * a
  · rw [if_neg (by omega), List.append_assoc, bitAt_append_left _ (by omega), bitAt_take _ h1]
  · by_cases h2 : k < 8 * (a + n)
    · rw [if_pos (by omega), List.append_assoc, bitAt_append_right _ (by omega), hta,
        bitAt_append_left _ (by omega)]
    · rw [if_neg (by omega), bitAt_append_right _ (by simp [hta, hv]; omega), bitAt_drop]
      congr 1
      simp [hta, hv]; omega

theorem memRead_memWrite_same {buf v : Bytes} {a n : Nat} (h : a + n ≤ buf.length) (hv : v.length = n) :
    memRead (memWrite buf a n v) a n = v :=
  bytes_ext (by rw [length_memRead (by rw [length_memWrite h hv]; exact h), hv]) fun k hk => by
    rw [length_memRead (by rw [length_memWrite h hv]; exact h)] at hk
    rw [bitAt_memRead _ _ hk, bitAt_memWrite h hv, if_pos (by omega), Nat.add_sub_cancel_left]

/-! ## Two's complement -/

/-- The range of the two's-complement reading (R80), with the half range as one number. -/
theorem signedValue_eq {n raw : Nat} : signedValue (n + 1) raw = if 2 ^ n ≤ raw then (raw : Int) - 2 * (2 ^ n : Nat) else raw := by
  have e : (2 : Int) ^ (n + 1) = 2 * ((2 ^ n : Nat) : Int) := by push_cast; ring
  simp only [signedValue, Nat.add_sub_cancel, e]

theorem signedRaw_eq {n : Nat} {v : Int} :
    signedRaw (n + 1) v = if v < 0 then (v + 2 * (2 ^ n : Nat)).toNat else v.toNat := by
  have e : (2 : Int) ^ (n + 1) = 2 * ((2 ^ n : Nat) : Int) := by push_cast; ring
  simp only [signedRaw, e]

theorem signedValue_range {w raw : Nat} (hw : 1 ≤ w) (h : raw < 2 ^ w) :
    -(2 ^ (w - 1) : Int) ≤ signedValue w raw ∧ signedValue w raw ≤ 2 ^ (w - 1) - 1 := by
  obtain ⟨n, rfl⟩ : ∃ n, w = n + 1 := ⟨w - 1, by omega⟩
  have c : (2 : Int) ^ n = ((2 ^ n : Nat) : Int) := by push_cast; rfl
  rw [pow_succ] at h
  rw [signedValue_eq, Nat.add_sub_cancel, c]
  generalize 2 ^ n = m at *
  split <;> omega

/-- The raw bits of a value in range (R85). -/
theorem signedRaw_lt {w : Nat} {v : Int} (hw : 1 ≤ w) (h1 : -(2 ^ (w - 1)) ≤ v) (h2 : v ≤ 2 ^ (w - 1) - 1) :
    signedRaw w v < 2 ^ w := by
  obtain ⟨n, rfl⟩ : ∃ n, w = n + 1 := ⟨w - 1, by omega⟩
  have c : (2 : Int) ^ n = ((2 ^ n : Nat) : Int) := by push_cast; rfl
  rw [Nat.add_sub_cancel, c] at h1 h2
  rw [signedRaw_eq, pow_succ]
  generalize 2 ^ n = m at *
  split <;> omega

/-- The two readings are inverse on values in range (R80, R85). -/
theorem signedValue_signedRaw {w : Nat} {v : Int} (hw : 1 ≤ w) (h1 : -(2 ^ (w - 1)) ≤ v) (h2 : v ≤ 2 ^ (w - 1) - 1) :
    signedValue w (signedRaw w v) = v := by
  obtain ⟨n, rfl⟩ : ∃ n, w = n + 1 := ⟨w - 1, by omega⟩
  have c : (2 : Int) ^ n = ((2 ^ n : Nat) : Int) := by push_cast; rfl
  rw [Nat.add_sub_cancel, c] at h1 h2
  rw [signedValue_eq, signedRaw_eq]
  generalize 2 ^ n = m at *
  split <;> split <;> omega

/-- The two readings are inverse on raw values (R80, R85). -/
theorem signedRaw_signedValue {w raw : Nat} (hw : 1 ≤ w) (h : raw < 2 ^ w) : signedRaw w (signedValue w raw) = raw := by
  obtain ⟨n, rfl⟩ : ∃ n, w = n + 1 := ⟨w - 1, by omega⟩
  rw [pow_succ] at h
  rw [signedRaw_eq, signedValue_eq]
  generalize 2 ^ n = m at *
  split <;> split <;> omega

end Sys2Proof.Machine
end

