-- ==== Sys2Proof/Laws/State.lean ====
section
/-! SUPPORT. One lemma per field for every update of the state, and what a response's status says. -/

namespace Sys2Proof.Machine

/-! ## deliver -/

@[simp] theorem deliver_request (s : State) (r : Response) : (s.deliver r).request = none := rfl
@[simp] theorem deliver_response (s : State) (r : Response) : (s.deliver r).response = some r := rfl
@[simp] theorem deliver_packOut (s : State) (r : Response) : (s.deliver r).packOut = s.packOut := rfl
@[simp] theorem deliver_bufs (s : State) (r : Response) : (s.deliver r).bufs = s.bufs.collect s.dest r := rfl
@[simp] theorem deliver_log (s : State) (r : Response) : (s.deliver r).log = s.log ++ [r] := rfl
@[simp] theorem deliver_refused (s : State) (r : Response) : (s.deliver r).refused = (s.refused || isRefusal r) := rfl
@[simp] theorem deliver_program (s : State) (r : Response) : (s.deliver r).program = s.program := rfl

/-! ## deliverPack -/

@[simp] theorem deliverPack_request (s : State) (p : PackResult) : (s.deliverPack p).request = none := rfl
@[simp] theorem deliverPack_response (s : State) (p : PackResult) : (s.deliverPack p).response = s.response := rfl
@[simp] theorem deliverPack_packOut (s : State) (p : PackResult) : (s.deliverPack p).packOut = some p := rfl
@[simp] theorem deliverPack_bufs (s : State) (p : PackResult) : (s.deliverPack p).bufs = s.bufs := rfl
@[simp] theorem deliverPack_log (s : State) (p : PackResult) : (s.deliverPack p).log = s.log := rfl
@[simp] theorem deliverPack_refused (s : State) (p : PackResult) : (s.deliverPack p).refused = s.refused := rfl
@[simp] theorem deliverPack_program (s : State) (p : PackResult) : (s.deliverPack p).program = s.program := rfl

/-! ## assertReset -/

@[simp] theorem assertReset_request (s : State) : s.assertReset.request = none := rfl
@[simp] theorem assertReset_response (s : State) : s.assertReset.response = none := rfl
@[simp] theorem assertReset_packOut (s : State) : s.assertReset.packOut = none := rfl
@[simp] theorem assertReset_bufs (s : State) : s.assertReset.bufs = s.bufs := rfl
@[simp] theorem assertReset_log (s : State) : s.assertReset.log = s.log := rfl
@[simp] theorem assertReset_refused (s : State) : s.assertReset.refused = s.refused := rfl
@[simp] theorem assertReset_program (s : State) : s.assertReset.program = s.program := rfl

/-! ## withFetchWord -/

@[simp] theorem withFetchWord_request (s : State) (n w : Nat) :
    (s.withFetchWord n w).request = some ⟨tableItem n w, none⟩ := rfl
@[simp] theorem withFetchWord_response (s : State) (n w : Nat) : (s.withFetchWord n w).response = s.response := rfl
@[simp] theorem withFetchWord_packOut (s : State) (n w : Nat) : (s.withFetchWord n w).packOut = s.packOut := rfl
@[simp] theorem withFetchWord_bufs (s : State) (n w : Nat) : (s.withFetchWord n w).bufs = s.bufs := rfl
@[simp] theorem withFetchWord_log (s : State) (n w : Nat) : (s.withFetchWord n w).log = s.log := rfl
@[simp] theorem withFetchWord_refused (s : State) (n w : Nat) : (s.withFetchWord n w).refused = s.refused := rfl
@[simp] theorem withFetchWord_program (s : State) (n w : Nat) : (s.withFetchWord n w).program = s.program := rfl

/-! ## the destination and collecting -/

theorem dest_of_request {s : State} {o : Outstanding} (h : s.request = some o) : s.dest = o.dest := by
  simp [State.dest, h]

@[simp] theorem collect_none_dest (m : Memory) (r : Response) : m.collect none r = m := rfl

theorem collect_no_data (m : Memory) (d : Option Name) {r : Response} (h : r.data = none) : m.collect d r = m := by
  cases d <;> simp [Memory.collect, h]

theorem collect_data (m : Memory) (b : Name) {r : Response} {d : Bytes} (h : r.data = some d) :
    m.collect (some b) r = m.set b d := by
  simp [Memory.collect, h]

/-! ## status -/

@[simp] theorem statusOf_statusCode (st : Status) : statusOf (statusCode st) = some st := by
  cases st with
  | ok => rfl
  | error e => cases e <;> rfl
  | refused r => cases r <;> rfl

variable {W : PortWidths}

@[simp] theorem isRefusal_okResult (v : BitVec W.resultBits) : isRefusal (okResult (W := W) v) = false := rfl
@[simp] theorem isRefusal_okData (d : Bytes) : isRefusal (okData (W := W) d) = false := rfl
@[simp] theorem isRefusal_okDecoded (b : DecodedBlock) (vs : List Violation) :
    isRefusal (okDecoded (W := W) b vs) = false := rfl
@[simp] theorem isRefusal_refusal (r : RefusalReason) : isRefusal (refusal (W := W) r) = true := by
  simp [isRefusal, refusal]
@[simp] theorem isRefusal_unreadable (pos : BitVec W.posBits) (e : ErrorCode) (sct : Option (BitVec 3)) :
    isRefusal (unreadable (W := W) pos e sct) = false := by simp [isRefusal, unreadable]
@[simp] theorem isRefusal_raise (info : ErrInfo) : isRefusal (raise (W := W) info) = false := by
  simp [isRefusal, raise, raised]

@[simp] theorem data_okResult (v : BitVec W.resultBits) : (okResult (W := W) v).data = none := rfl
@[simp] theorem data_okData (d : Bytes) : (okData (W := W) d).data = some d := rfl
@[simp] theorem data_okDecoded (b : DecodedBlock) (vs : List Violation) :
    (okDecoded (W := W) b vs).data = none := rfl
@[simp] theorem data_refusal (r : RefusalReason) : (refusal (W := W) r).data = none := rfl
@[simp] theorem data_unreadable (pos : BitVec W.posBits) (e : ErrorCode) (sct : Option (BitVec 3)) :
    (unreadable (W := W) pos e sct).data = none := rfl
@[simp] theorem data_raise (info : ErrInfo) : (raise (W := W) info).data = none := rfl

end Sys2Proof.Machine
end

