-- ==== Sys2Proof/Laws/Fields.lean ====
section
/-! SUPPORT. The layout covers a block without gap or overlap; a block is determined by its fields, and so is a record. -/

namespace Sys2Proof.Machine

/-- The first bit of a raw field. -/
def fieldStart (P : Params) : RawField → Nat
  | .int f => (P.layout.int f).off
  | .bytes f => 8 * (P.layout.bytes f).byte

/-- The bit after the last of a raw field. -/
def fieldEnd (P : Params) : RawField → Nat
  | .int f => (P.layout.int f).off + (P.layout.int f).width
  | .bytes f => 8 * ((P.layout.bytes f).byte + (P.layout.bytes f).len)

/-- Fields that stand one after the other and cover exactly the bits `a .. b-1`. -/
def chained (P : Params) : List RawField → Nat → Nat → Bool
  | [], a, b => a == b
  | f :: fs, a, b => fieldStart P f == a && decide (a ≤ fieldEnd P f) && chained P fs (fieldEnd P f) b

/-- The layout of every block type covers the 640 bits of a block (R55). -/
theorem order_chained (t : BlockType) : chained params (params.layout.order t) 0 640 = true := by
  cases t <;> decide

theorem idFields_chained : chained params idFields 0 24 = true := by decide

theorem chained_cons {P : Params} {f : RawField} {fs : List RawField} {a b : Nat}
    (h : chained P (f :: fs) a b = true) :
    fieldStart P f = a ∧ a ≤ fieldEnd P f ∧ chained P fs (fieldEnd P f) b = true := by
  simpa [chained, and_assoc] using h

theorem chained_le {P : Params} {fs : List RawField} {a b : Nat} (h : chained P fs a b = true) : a ≤ b := by
  induction fs generalizing a with
  | nil => simp [chained] at h; omega
  | cons f fs ih =>
    obtain ⟨_, h2, h3⟩ := chained_cons h
    exact le_trans h2 (ih h3)

theorem chained_mem {P : Params} {fs : List RawField} {a b : Nat} (h : chained P fs a b = true) {f : RawField}
    (hf : f ∈ fs) : a ≤ fieldStart P f ∧ fieldEnd P f ≤ b := by
  induction fs generalizing a with
  | nil => simp at hf
  | cons g fs ih =>
    obtain ⟨h1, h2, h3⟩ := chained_cons h
    rcases List.mem_cons.1 hf with rfl | hf
    · exact ⟨by omega, chained_le h3⟩
    · have := ih h3 hf; exact ⟨by omega, this.2⟩

/-- Of the fields of a chain, exactly one holds a bit of the range the chain covers (R55). -/
theorem chained_unique {P : Params} {fs : List RawField} {a b : Nat} (h : chained P fs a b = true) {k : Nat} (h1 : a ≤ k)
    (h2 : k < b) :
    ∃ f ∈ fs, (fieldStart P f ≤ k ∧ k < fieldEnd P f) ∧ ∀ g ∈ fs, fieldStart P g ≤ k → k < fieldEnd P g → g = f := by
  induction fs generalizing a with
  | nil => simp [chained] at h; omega
  | cons f fs ih =>
    obtain ⟨e1, e2, e3⟩ := chained_cons h
    by_cases hk : k < fieldEnd P f
    · refine ⟨f, by simp, ⟨by omega, hk⟩, fun g hg hc hc' => ?_⟩
      rcases List.mem_cons.1 hg with rfl | hg
      · rfl
      · have := (chained_mem e3 hg).1; omega
    · obtain ⟨g, h3, h4, h5⟩ := ih e3 (by omega)
      refine ⟨g, by simp [h3], h4, fun g' hg hc hc' => ?_⟩
      rcases List.mem_cons.1 hg with rfl | hg
      · omega
      · exact h5 g' hg hc hc'

/-- Two buffers give a raw field the same content. -/
def sameField (P : Params) (a b : Bytes) : RawField → Prop
  | .int f => readInt P a f = readInt P b f
  | .bytes f => readBytes P a f = readBytes P b f

theorem bitAt_eq_of_sameField {P : Params} {a b : Bytes} {f : RawField} (h : sameField P a b f) {k : Nat}
    (h1 : fieldStart P f ≤ k) (h2 : k < fieldEnd P f) : bitAt a k = bitAt b k := by
  cases f with
  | int f => exact bitAt_eq_of_fieldBits_eq h h1 h2
  | bytes f =>
    simp only [fieldStart, fieldEnd, sameField, readBytes] at *
    obtain ⟨j, rfl⟩ : ∃ j, k = 8 * (P.layout.bytes f).byte + j := ⟨k - 8 * (P.layout.bytes f).byte, by omega⟩
    rw [← bitAt_memRead a (P.layout.bytes f).byte (n := (P.layout.bytes f).len) (by omega),
      ← bitAt_memRead b (P.layout.bytes f).byte (n := (P.layout.bytes f).len) (by omega), h]

/-- Buffers that agree on chained fields agree on every bit the fields cover. -/
theorem bitAt_eq_of_chained {P : Params} {fs : List RawField} {lo hi : Nat} (h : chained P fs lo hi = true)
    {a b : Bytes} (hs : ∀ f ∈ fs, sameField P a b f) {k : Nat} (h1 : lo ≤ k) (h2 : k < hi) : bitAt a k = bitAt b k := by
  induction fs generalizing lo with
  | nil => simp [chained] at h; omega
  | cons f fs ih =>
    obtain ⟨e1, e2, e3⟩ := chained_cons h
    by_cases hk : k < fieldEnd P f
    · exact bitAt_eq_of_sameField (hs f (List.mem_cons_self ..)) (by omega) hk
    · exact ih e3 (fun g hg => hs g (List.mem_cons_of_mem _ hg)) (by omega)

/-- Two 80-byte blocks whose every field of one block type agrees are equal (R100). -/
theorem block_ext {t : BlockType} {a b : Bytes} (ha : a.length = 80) (hb : b.length = 80)
    (hs : ∀ f ∈ params.layout.order t, sameField params a b f) : a = b :=
  bytes_ext (by omega) fun k hk => bitAt_eq_of_chained (order_chained t) hs (by omega) (by omega)

/-! ## A record holds a buffer's fields -/

/-- A record's raw field is what a buffer holds at the field's place. -/
def holds (P : Params) (r : DecodedBlock) (buf : Bytes) : RawField → Prop
  | .int f => recGetInt r f = some (readInt P buf f)
  | .bytes f => recGetBytes r f = some (readBytes P buf f)

theorem sameField_of_bits {P : Params} {a b : Bytes} (hl : a.length = b.length) {f : RawField}
    (h : ∀ k, fieldStart P f ≤ k → k < fieldEnd P f → bitAt a k = bitAt b k) : sameField P a b f := by
  cases f with
  | int f =>
    exact fieldBits_congr fun i hi => h _ (by simp only [fieldStart]; omega) (by simp only [fieldEnd]; omega)
  | bytes f =>
    simp only [sameField, readBytes]
    have hl' : (memRead a (P.layout.bytes f).byte (P.layout.bytes f).len).length =
        (memRead b (P.layout.bytes f).byte (P.layout.bytes f).len).length := by simp [memRead, hl]
    refine bytes_ext hl' fun k hk => ?_
    have : k < 8 * (P.layout.bytes f).len := by simp [memRead] at hk; omega
    rw [bitAt_memRead _ _ this, bitAt_memRead _ _ this]
    exact h _ (by simp only [fieldStart]; omega) (by simp only [fieldEnd]; omega)

theorem holds_of_sameField {P : Params} {r : DecodedBlock} {a b : Bytes} {f : RawField} (h : holds P r a f)
    (hs : sameField P a b f) : holds P r b f := by
  cases f <;> simp only [holds, sameField] at * <;> rw [h, hs]

theorem sameField_of_holds {P : Params} {r : DecodedBlock} {a b : Bytes} {f : RawField} (ha : holds P r a f)
    (hb : holds P r b f) : sameField P a b f := by
  cases f <;> simp only [holds, sameField] at * <;> simpa [ha] using hb

/-- Two records give a raw field the same value. -/
def sameValue (r r' : DecodedBlock) : RawField → Prop
  | .int f => recGetInt r f = recGetInt r' f
  | .bytes f => recGetBytes r f = recGetBytes r' f

theorem id_ext {i i' : BlockId} (h : ∀ f, idGet i f = idGet i' f) : i = i' := by
  cases i; cases i'
  simpa using ⟨h .sct, h .res0, h .seq, h .dseq, h .fsc, h .res1, h .dbn⟩

theorem header_ext {b b' : HeaderBody} (h : ∀ f, headerGet b f = headerGet b' f) (ht : b.tail = b'.tail) : b = b' := by
  cases b; cases b'
  simpa using ⟨h .dsf, h .zero, h .res3, h .res4, h .apt, h .tf1, h .res5, h .ap1, h .tf2, h .res6, h .ap2, h .tf3,
    h .res7, h .ap3, ht⟩

theorem pack_ext {p p' : Pack} (h : ∀ b, packGet p b = packGet p' b) : p = p' := by
  cases p; cases p'
  simpa using ⟨h .pc0, h .pc1, h .pc2, h .pc3, h .pc4⟩

theorem ssyb_ext {y y' : Ssyb} (h : ∀ f, ssybGet y f = ssybGet y' f) (hp : y.pack = y'.pack) : y = y' := by
  cases y; cases y'
  simpa using ⟨h .fr, h .ap, h .id0lo, h .id1hi, h .syb, h .idp, hp⟩

theorem mem_order_id (t : BlockType) (f : IdField) : .int (.id f) ∈ params.layout.order t := by
  cases t <;> cases f <;> decide

theorem mem_order_header (f : HeaderField) : .int (.header f) ∈ params.layout.order .header := by
  cases f <;> decide

theorem mem_order_ssyb (k : Fin 6) (f : SsybField) : .int (.ssyb k f) ∈ params.layout.order .subcode := by
  revert k; cases f <;> decide

theorem mem_order_ssybPack (k : Fin 6) (b : PackByte) :
    .int (.pack (.ssyb k) b) ∈ params.layout.order .subcode := by
  revert k; cases b <;> decide

theorem mem_order_vauxPack (i : Fin 15) (b : PackByte) : .int (.pack (.vaux i) b) ∈ params.layout.order .vaux := by
  revert i; cases b <;> decide

theorem mem_order_aaux (b : PackByte) : .int (.pack .aaux b) ∈ params.layout.order .audio := by
  cases b <;> decide

theorem mem_order_video (f : VideoField) : .int (.video f) ∈ params.layout.order .video := by
  cases f <;> decide

/-- The fields of a block type are its ID fields and its body's. -/
theorem mem_order_cases {t : BlockType} {f : RawField} (h : f ∈ params.layout.order t) :
    f ∈ idFields ∨ f ∈ bodyFields t := List.mem_append.1 h

theorem mem_packFields {slot : PackSlot} {f : RawField} (h : f ∈ packFields slot) :
    ∃ b, f = .int (.pack slot b) := by
  simp only [packFields, List.mem_cons, List.not_mem_nil, or_false] at h
  rcases h with h | h | h | h | h <;> exact ⟨_, h⟩

/-- The byte-sequence field of a block type (R55). -/
def bytesFieldOf : BlockType → BytesField
  | .header  => .headerTail
  | .subcode => .subcodeTail
  | .vaux    => .vauxTail
  | .audio   => .audioSamples
  | .video   => .videoData

theorem mem_order_bytes (t : BlockType) : .bytes (bytesFieldOf t) ∈ params.layout.order t := by
  cases t <;> decide

/-- A record is determined by its raw fields (R100). -/
theorem record_ext {r r' : DecodedBlock} (ht : r.body.type = r'.body.type)
    (h : ∀ f ∈ params.layout.order r.body.type, sameValue r r' f) : r = r' := by
  obtain ⟨i, b⟩ := r
  obtain ⟨i', b'⟩ := r'
  have hid : i = i' := id_ext fun f => by simpa [sameValue, recGetInt] using h _ (mem_order_id _ f)
  subst hid
  congr 1
  cases b with
  | header b =>
    cases b' <;> simp only [Body.type, reduceCtorEq] at ht
    congr 1
    refine header_ext (fun f => ?_) ?_
    · simpa [sameValue, recGetInt] using h _ (mem_order_header f)
    · simpa [sameValue, recGetBytes, bytesFieldOf] using h _ (mem_order_bytes .header)
  | subcode b =>
    cases b' <;> simp only [Body.type, reduceCtorEq] at ht
    rename_i b'
    obtain ⟨y, tl⟩ := b
    obtain ⟨y', tl'⟩ := b'
    have hy : y = y' := Vector.ext fun n hn => by
      refine ssyb_ext (fun f => ?_) (pack_ext fun c => ?_)
      · simpa [sameValue, recGetInt] using h _ (mem_order_ssyb ⟨n, hn⟩ f)
      · simpa [sameValue, recGetInt, slotPack] using h _ (mem_order_ssybPack ⟨n, hn⟩ c)
    have htl : tl = tl' := by simpa [sameValue, recGetBytes, bytesFieldOf] using h _ (mem_order_bytes .subcode)
    rw [hy, htl]
  | vaux b =>
    cases b' <;> simp only [Body.type, reduceCtorEq] at ht
    rename_i b'
    obtain ⟨y, tl⟩ := b
    obtain ⟨y', tl'⟩ := b'
    have hy : y = y' := Vector.ext fun n hn => by
      refine pack_ext fun c => ?_
      simpa [sameValue, recGetInt, slotPack] using h _ (mem_order_vauxPack ⟨n, hn⟩ c)
    have htl : tl = tl' := by simpa [sameValue, recGetBytes, bytesFieldOf] using h _ (mem_order_bytes .vaux)
    rw [hy, htl]
  | audio b =>
    cases b' <;> simp only [Body.type, reduceCtorEq] at ht
    rename_i b'
    obtain ⟨y, tl⟩ := b
    obtain ⟨y', tl'⟩ := b'
    have hy : y = y' := pack_ext fun c => by
      simpa [sameValue, recGetInt, slotPack] using h _ (mem_order_aaux c)
    have htl : tl = tl' := by simpa [sameValue, recGetBytes, bytesFieldOf] using h _ (mem_order_bytes .audio)
    rw [hy, htl]
  | video b =>
    cases b' <;> simp only [Body.type, reduceCtorEq] at ht
    rename_i b'
    obtain ⟨s, q, tl⟩ := b
    obtain ⟨s', q', tl'⟩ := b'
    have h1 : s = s' := by simpa [sameValue, recGetInt] using h _ (mem_order_video .sta)
    have h2 : q = q' := by simpa [sameValue, recGetInt] using h _ (mem_order_video .qno)
    have h3 : tl = tl' := by simpa [sameValue, recGetBytes, bytesFieldOf] using h _ (mem_order_bytes .video)
    rw [h1, h2, h3]

/-! ## Replacing a field of a record -/

theorem idGet_idSet (i : BlockId) (f g : IdField) (v : Nat) : idGet (idSet i f v) g = if g = f then v else idGet i g := by
  cases f <;> cases g <;> rfl

theorem headerGet_headerSet (h : HeaderBody) (f g : HeaderField) (v : Nat) :
    headerGet (headerSet h f v) g = if g = f then v else headerGet h g := by
  cases f <;> cases g <;> rfl

@[simp] theorem headerSet_tail (h : HeaderBody) (f : HeaderField) (v : Nat) : (headerSet h f v).tail = h.tail := by
  cases f <;> rfl

theorem ssybGet_ssybSet (y : Ssyb) (f g : SsybField) (v : Nat) :
    ssybGet (ssybSet y f v) g = if g = f then v else ssybGet y g := by
  cases f <;> cases g <;> rfl

@[simp] theorem ssybSet_pack (y : Ssyb) (f : SsybField) (v : Nat) : (ssybSet y f v).pack = y.pack := by
  cases f <;> rfl

@[simp] theorem ssybGet_pack (y : Ssyb) (p : Pack) (g : SsybField) : ssybGet { y with pack := p } g = ssybGet y g := by
  cases g <;> rfl

theorem packGet_packSet (p : Pack) (f g : PackByte) (v : Nat) :
    packGet (packSet p f v) g = if g = f then v else packGet p g := by
  cases f <;> cases g <;> rfl

/-- What replacing an integer field of a record does (R71), said once: the field reads as the new value, and every other
raw field, and the body's constructor, as before. -/
theorem recSetInt_spec {r r' : DecodedBlock} {f : IntField} {v : Nat} (h : recSetInt r f v = some r') :
    r'.body.type = r.body.type ∧ (∀ g, recGetBytes r' g = recGetBytes r g) ∧
      ∀ g, recGetInt r' g = if g = f then (recGetInt r g).map fun _ => v else recGetInt r g := by
  obtain ⟨i, b⟩ := r
  cases f with
  | id f =>
    cases h
    refine ⟨rfl, fun g => rfl, fun g => ?_⟩
    cases g with
    | id g => simp only [recGetInt, idGet_idSet, IntField.id.injEq, Option.map_some]; split <;> rfl
    | _ => rfl
  | header f =>
    cases b <;> simp only [recSetInt, reduceCtorEq] at h
    cases h
    refine ⟨rfl, fun g => by cases g <;> simp [recGetBytes], fun g => ?_⟩
    cases g with
    | header g => simp only [recGetInt, headerGet_headerSet, IntField.header.injEq, Option.map_some]; split <;> rfl
    | _ => rfl
  | ssyb k f =>
    cases b <;> simp only [recSetInt, reduceCtorEq] at h
    cases h
    refine ⟨rfl, fun g => by cases g <;> rfl, fun g => ?_⟩
    cases g with
    | ssyb k' g =>
      by_cases hk : k' = k
      · subst hk
        simp [recGetInt, ssybGet_ssybSet]; split <;> simp_all
      · have : k.val ≠ k'.val := fun e => hk (Fin.ext e.symm)
        simp [recGetInt, hk, this]
    | pack slot c =>
      cases slot with
      | ssyb k' =>
        by_cases hk : k = k'
        · subst hk; simp [recGetInt, slotPack]
        · have : k.val ≠ k'.val := fun e => hk (Fin.ext e)
          simp [recGetInt, slotPack, this]
      | _ => rfl
    | _ => rfl
  | pack slot c =>
    cases b <;> cases slot <;> simp only [recSetInt, mapSlot, Option.map_none, Option.map_some, reduceCtorEq] at h <;> cases h
    · rename_i b k
      refine ⟨rfl, fun g => by cases g <;> rfl, fun g => ?_⟩
      cases g with
      | ssyb k' g =>
        by_cases hk : k = k'
        · subst hk; simp [recGetInt]
        · have : k.val ≠ k'.val := fun e => hk (Fin.ext e)
          simp [recGetInt, this]
      | pack slot' c' =>
        cases slot' with
        | ssyb k' =>
          by_cases hk : k' = k
          · subst hk; simp [recGetInt, slotPack, packGet_packSet]; split <;> simp_all
          · have : k.val ≠ k'.val := fun e => hk (Fin.ext e.symm)
            simp [recGetInt, slotPack, hk, this]
        | _ => simp [recGetInt, slotPack]
      | _ => rfl
    · rename_i b k
      refine ⟨rfl, fun g => by cases g <;> rfl, fun g => ?_⟩
      cases g with
      | pack slot' c' =>
        cases slot' with
        | vaux k' =>
          by_cases hk : k' = k
          · subst hk; simp [recGetInt, slotPack, packGet_packSet]; split <;> simp_all
          · have : k.val ≠ k'.val := fun e => hk (Fin.ext e.symm)
            simp [recGetInt, slotPack, hk, this]
        | _ => simp [recGetInt, slotPack]
      | _ => rfl
    · rename_i b
      refine ⟨rfl, fun g => by cases g <;> rfl, fun g => ?_⟩
      cases g with
      | pack slot' c' =>
        cases slot' with
        | aaux => simp [recGetInt, slotPack, packGet_packSet]; split <;> simp_all
        | _ => simp [recGetInt, slotPack]
      | _ => rfl
  | video f =>
    cases b <;> cases f <;> simp only [recSetInt, reduceCtorEq] at h <;> cases h
    all_goals
      refine ⟨rfl, fun g => by cases g <;> rfl, fun g => ?_⟩
      cases g with
      | video g => cases g <;> rfl
      | _ => rfl

/-- A record's integer field can be replaced exactly where the record has it. -/
theorem recSetInt_of_get {r : DecodedBlock} {f : IntField} {w : Nat} (h : recGetInt r f = some w) (v : Nat) :
    ∃ r', recSetInt r f v = some r' := by
  obtain ⟨i, b⟩ := r
  cases f with
  | id f => exact ⟨_, rfl⟩
  | pack slot c => cases b <;> cases slot <;> first | exact ⟨_, rfl⟩ | cases h
  | video f => cases b <;> cases f <;> first | exact ⟨_, rfl⟩ | cases h
  | _ => cases b <;> first | exact ⟨_, rfl⟩ | cases h

/-- What replacing a byte-sequence field of a record does (R71), said once. -/
theorem recSetBytes_spec {r r' : DecodedBlock} {f : BytesField} {v : Bytes} (h : recSetBytes r f v = some r') :
    r'.body.type = r.body.type ∧ (∀ g, recGetInt r' g = recGetInt r g) ∧
      ∀ g, recGetBytes r' g = if g = f then (recGetBytes r g).map fun _ => v else recGetBytes r g := by
  obtain ⟨i, b⟩ := r
  cases b <;> cases f <;> cases h
  all_goals
    refine ⟨rfl, fun g => ?_, fun g => by cases g <;> rfl⟩
    cases g with
    | pack slot c => cases slot <;> rfl
    | video f => cases f <;> rfl
    | _ => rfl

/-- A record's byte-sequence field can be replaced exactly where the record has it. -/
theorem recSetBytes_of_get {r : DecodedBlock} {f : BytesField} {w : Bytes} (h : recGetBytes r f = some w) (v : Bytes) :
    ∃ r', recSetBytes r f v = some r' := by
  obtain ⟨i, b⟩ := r
  cases b <;> cases f <;> first | exact ⟨_, rfl⟩ | cases h

/-- An integer field that the record does not have cannot be replaced. -/
theorem recSetInt_of_none {r : DecodedBlock} {f : IntField} (h : recGetInt r f = none) (v : Nat) :
    recSetInt r f v = none := by
  obtain ⟨i, b⟩ := r
  cases f with
  | id f => cases h
  | pack slot c => cases b <;> cases slot <;> first | rfl | cases h
  | video f => cases b <;> cases f <;> first | rfl | cases h
  | _ => cases b <;> first | rfl | cases h

/-- A byte-sequence field that the record does not have cannot be replaced. -/
theorem recSetBytes_of_none {r : DecodedBlock} {f : BytesField} (h : recGetBytes r f = none) (v : Bytes) :
    recSetBytes r f v = none := by
  obtain ⟨i, b⟩ := r
  cases b <;> cases f <;> first | rfl | cases h

end Sys2Proof.Machine
end

