-- ==== Sys2Proof/Laws/Block.lean ====
section
/-! SUPPORT. What DECODE can answer, and that a decoded record holds the block's fields and fits the layout. -/

namespace Sys2Proof.Machine

theorem withLength_long {std : Std} {pos : PosWord} {blk : Bytes} (a : Response) (h : 80 < blk.length) :
    withLength params std pos blk a = refusal .lengthError := by
  simp only [withLength]; rw [if_pos h]

theorem withLength_short {std : Std} {pos : PosWord} {blk : Bytes} (a : Response) (h : blk.length < 80) :
    withLength params std pos blk a = unreadable pos .boundsError none := by
  simp only [withLength]; rw [if_neg (by omega), if_pos h]

theorem withLength_exact {std : Std} {pos : PosWord} {blk : Bytes} (a : Response) (h : blk.length = 80) :
    withLength params std pos blk a = a := by
  simp only [withLength]; rw [if_neg (by omega), if_neg (by omega)]

/-- What a length-checked answer is (R96). -/
theorem withLength_cases (std : Std) (pos : PosWord) (blk : Bytes) (a : Response) :
    (80 < blk.length ∧ withLength params std pos blk a = refusal .lengthError) ∨
    (blk.length < 80 ∧ withLength params std pos blk a = unreadable pos .boundsError none) ∨
    (blk.length = 80 ∧ withLength params std pos blk a = a) := by
  rcases lt_trichotomy blk.length 80 with h | h | h
  · exact .inr (.inl ⟨h, withLength_short a h⟩)
  · exact .inr (.inr ⟨h, withLength_exact a h⟩)
  · exact .inl ⟨h, withLength_long a h⟩

/-- The dispatch of an 80-byte block (R97). -/
theorem decodeBlock_known {std : Std} {pos : PosWord} {blk : Bytes} {t : BlockType} (h : blk.length = 80)
    (ht : sctMap (readInt params blk (.id .sct)) = some t) :
    decodeBlock params std pos blk = decodedAs params t std blk := by
  rw [decodeBlock, withLength_exact _ h]
  simp only [enumView, ht]

theorem decodeBlock_unknown {std : Std} {pos : PosWord} {blk : Bytes} (h : blk.length = 80)
    (ht : sctMap (readInt params blk (.id .sct)) = none) :
    decodeBlock params std pos blk = unknownBlock params pos blk := by
  rw [decodeBlock, withLength_exact _ h]
  simp only [enumView, ht]

@[simp] theorem decodeBody_type (P : Params) (t : BlockType) (blk : Bytes) : (decodeBody P t blk).type = t := by
  cases t <;> rfl

@[simp] theorem decodeRecord_id (P : Params) (t : BlockType) (blk : Bytes) :
    (decodeRecord P t blk).id = decodeId P blk := rfl

@[simp] theorem decodeRecord_body (P : Params) (t : BlockType) (blk : Bytes) :
    (decodeRecord P t blk).body = decodeBody P t blk := rfl

theorem decodeId_get (P : Params) (blk : Bytes) (f : IdField) :
    idGet (decodeId P blk) f = readInt P blk (.id f) := by cases f <;> rfl

theorem decodeHeader_get (P : Params) (blk : Bytes) (f : HeaderField) :
    headerGet (decodeHeader P blk) f = readInt P blk (.header f) := by cases f <;> rfl

theorem decodeSsyb_get (P : Params) (blk : Bytes) (k : Fin 6) (f : SsybField) :
    ssybGet (decodeSsyb P blk k) f = readInt P blk (.ssyb k f) := by cases f <;> rfl

theorem readPack_get (P : Params) (blk : Bytes) (slot : PackSlot) (b : PackByte) :
    packGet (readPack P blk slot) b = readInt P blk (.pack slot b) := by cases b <;> rfl

theorem decodeSubcode_ssyb (P : Params) (blk : Bytes) (k : Fin 6) :
    (decodeSubcode P blk).ssyb[k] = decodeSsyb P blk k := by
  revert k
  simp only [Fin.forall_fin_succ]
  exact ⟨rfl, rfl, rfl, rfl, rfl, rfl, fun k => k.elim0⟩

theorem decodeVaux_pack (P : Params) (blk : Bytes) (i : Fin 15) :
    (decodeVaux P blk).pack[i] = readPack P blk (.vaux i) := by
  revert i
  simp only [Fin.forall_fin_succ]
  exact ⟨rfl, rfl, rfl, rfl, rfl, rfl, rfl, rfl, rfl, rfl, rfl, rfl, rfl, rfl, rfl, fun k => k.elim0⟩

/-- A decoded record holds every field of its block (R100). -/
theorem decodeRecord_holds (t : BlockType) (blk : Bytes) {f : RawField} (h : f ∈ params.layout.order t) :
    holds params (decodeRecord params t blk) blk f := by
  rcases mem_order_cases h with h | h
  · simp only [idFields, List.mem_cons, List.not_mem_nil, or_false] at h
    rcases h with h | h | h | h | h | h | h <;> subst h <;> rfl
  · cases t with
    | header =>
      simp only [bodyFields, List.mem_cons, List.not_mem_nil, or_false] at h
      rcases h with h | h | h | h | h | h | h | h | h | h | h | h | h | h | h <;> subst h <;> rfl
    | subcode =>
      rcases List.mem_append.1 h with h | h
      · obtain ⟨k, -, h⟩ := List.mem_flatMap.1 h
        rcases List.mem_append.1 h with h | h
        · simp only [List.mem_cons, List.not_mem_nil, or_false] at h
          rcases h with h | h | h | h | h | h <;> subst h <;>
            simp only [holds, recGetInt, decodeRecord, decodeBody, decodeSubcode_ssyb, decodeSsyb_get]
        · obtain ⟨b, rfl⟩ := mem_packFields h
          simp only [holds, recGetInt, slotPack, decodeRecord, decodeBody, decodeSubcode_ssyb, Option.map_some]
          exact congrArg some (readPack_get ..)
      · rw [List.mem_singleton] at h; subst h; rfl
    | vaux =>
      rcases List.mem_append.1 h with h | h
      · obtain ⟨i, -, h⟩ := List.mem_flatMap.1 h
        obtain ⟨b, rfl⟩ := mem_packFields h
        simp only [holds, recGetInt, slotPack, decodeRecord, decodeBody, decodeVaux_pack, Option.map_some]
        exact congrArg some (readPack_get ..)
      · rw [List.mem_singleton] at h; subst h; rfl
    | audio =>
      rcases List.mem_append.1 h with h | h
      · obtain ⟨b, rfl⟩ := mem_packFields h
        simp only [holds, recGetInt, slotPack, decodeRecord, decodeBody, decodeAudio, Option.map_some]
        exact congrArg some (readPack_get ..)
      · rw [List.mem_singleton] at h; subst h; rfl
    | video =>
      simp only [bodyFields, List.mem_cons, List.not_mem_nil, or_false] at h
      rcases h with h | h | h <;> subst h <;> rfl

theorem fieldFits_of_holds {r : DecodedBlock} {blk : Bytes} (hl : blk.length = 80) {t : BlockType} {f : RawField}
    (hm : f ∈ params.layout.order t) (h : holds params r blk f) : fieldFits params r f = true := by
  have hend := (chained_mem (order_chained t) hm).2
  cases f with
  | int f =>
    simp only [holds] at h
    simp only [fieldFits, h]
    exact decide_eq_true (fieldBits_lt ..)
  | bytes f =>
    simp only [holds] at h
    simp only [fieldFits, h, readBytes]
    rw [length_memRead (by simp only [fieldEnd] at hend; omega)]
    exact beq_self_eq_true _

/-- A record decoded from an 80-byte block agrees with its `sct` and fits the layout (R99, R154). -/
theorem decodeRecord_fits {t : BlockType} {blk : Bytes} (hl : blk.length = 80)
    (ht : sctMap (readInt params blk (.id .sct)) = some t) : recordFits params (decodeRecord params t blk) = true := by
  simp only [recordFits, recordMatches, Bool.and_eq_true, decodeRecord_body, decodeBody_type, decodeRecord_id,
    List.all_eq_true]
  refine ⟨?_, fun f hf => fieldFits_of_holds hl hf (decodeRecord_holds t blk hf)⟩
  show (sctMap (readInt params blk (.id .sct)) == some t) = true
  rw [ht]
  exact beq_self_eq_true _

end Sys2Proof.Machine
end

