-- ==== Sys2Proof/Laws/Codec.lean ====
section
/-! SUPPORT. What a codec operation can answer: one lemma per shared operation. -/

namespace Sys2Proof.Machine

/-- A codec request is admitted (R76). -/
abbrev Admitted (w len : Nat) : Prop := 1 ≤ w ∧ w ≤ 32 ∧ len ≤ 2 ^ 29

theorem admit_of_admitted {w len : Nat} (h : Admitted w len) : admission params w len = none := by
  obtain ⟨h1, h2, h3⟩ := h
  simp only [admission]
  rw [if_neg (by omega), if_neg (by omega)]

theorem admit_width {w len : Nat} (h : w < 1 ∨ 32 < w) : admission params w len = some .widthError := by
  simp only [admission]
  rw [if_pos h]

theorem admit_length {w len : Nat} (h1 : 1 ≤ w) (h2 : w ≤ 32) (h : 2 ^ 29 < len) :
    admission params w len = some .bufTooLong := by
  simp only [admission]
  rw [if_neg (by omega), if_pos h]

theorem admit_of_not_admitted {w len : Nat} (h : ¬ Admitted w len) : ∃ reason, admission params w len = some reason := by
  unfold Admitted at h
  simp only [admission]
  split
  · exact ⟨_, rfl⟩
  · rw [if_pos (by omega)]; exact ⟨_, rfl⟩

/-- What a codec operation answers, in the order of its checks (R86). -/
theorem codecResponse_cases {α : Type} (w : WidthWord) (buf : Bytes) (op : Except ErrInfo α) (ok : α → Response) :
    (∃ reason, codecResponse params w buf op ok = refusal reason) ∨
    (∃ info, op = .error info ∧ codecResponse params w buf op ok = raise info) ∨
    (∃ v, op = .ok v ∧ codecResponse params w buf op ok = ok v) := by
  unfold codecResponse
  split
  · exact .inl ⟨_, rfl⟩
  · split
    · exact .inr (.inr ⟨_, rfl, rfl⟩)
    · exact .inr (.inl ⟨_, rfl, rfl⟩)

theorem codecResponse_of_admitted {α : Type} {w : WidthWord} {buf : Bytes} (h : Admitted w.toNat buf.length)
    (op : Except ErrInfo α) (ok : α → Response) :
    codecResponse params w buf op ok = match op with | .ok v => ok v | .error info => raise info := by
  cases op <;> simp only [codecResponse, admit_of_admitted h]

theorem readUnsigned_ok {buf : Bytes} {o w : Nat} (h : o + w ≤ 8 * buf.length) :
    readUnsigned buf o w = .ok (fieldBits buf o w) := by simp [readUnsigned, inBounds, h]

theorem readSigned_ok {buf : Bytes} {o w : Nat} (h : o + w ≤ 8 * buf.length) :
    readSigned buf o w = .ok (signedValue w (fieldBits buf o w)) := by simp [readSigned, inBounds, h]

theorem writeUnsigned_ok {buf : Bytes} {o w : Nat} {v : Int} (h : o + w ≤ 8 * buf.length) (h0 : 0 ≤ v)
    (h1 : v ≤ 2 ^ w - 1) : writeUnsigned buf o w v = .ok (putBits buf o w v.toNat) := by
  simp [writeUnsigned, inBounds, inUnsignedRange, h, h0, h1]

theorem writeSigned_ok {buf : Bytes} {o w : Nat} {v : Int} (h : o + w ≤ 8 * buf.length) (h0 : -(2 ^ (w - 1)) ≤ v)
    (h1 : v ≤ 2 ^ (w - 1) - 1) : writeSigned buf o w v = .ok (putBits buf o w (signedRaw w v)) := by
  have : inSignedRange w v = true := decide_eq_true ⟨h0, h1⟩
  simp [writeSigned, inBounds, h, this]

theorem writeUnsigned_bounds {buf : Bytes} {o w : Nat} {v : Int} (h : ¬ o + w ≤ 8 * buf.length) :
    writeUnsigned buf o w v = .error (.bounds o w buf.length) := by simp [writeUnsigned, inBounds, h]

theorem writeSigned_bounds {buf : Bytes} {o w : Nat} {v : Int} (h : ¬ o + w ≤ 8 * buf.length) :
    writeSigned buf o w v = .error (.bounds o w buf.length) := by simp [writeSigned, inBounds, h]

theorem readUnsigned_bounds {buf : Bytes} {o w : Nat} (h : ¬ o + w ≤ 8 * buf.length) :
    readUnsigned buf o w = .error (.bounds o w buf.length) := by simp [readUnsigned, inBounds, h]

theorem readSigned_bounds {buf : Bytes} {o w : Nat} (h : ¬ o + w ≤ 8 * buf.length) :
    readSigned buf o w = .error (.bounds o w buf.length) := by simp [readSigned, inBounds, h]

/-- Writing a natural number: it fits, or its range error (R84). -/
theorem writeUnsigned_nat {buf : Bytes} {o w v : Nat} (h : o + w ≤ 8 * buf.length) :
    writeUnsigned buf o w (v : Int) = if v < 2 ^ w then .ok (putBits buf o w v) else .error (.range v w) := by
  have c : (2 : Int) ^ w = ((2 ^ w : Nat) : Int) := by push_cast; rfl
  have : inUnsignedRange w (v : Int) = decide (v < 2 ^ w) := by
    simp only [inUnsignedRange, c]
    congr 1
    generalize 2 ^ w = m
    exact propext ⟨fun h => by omega, fun h => by omega⟩
  simp only [writeUnsigned, inBounds, h, this, decide_true, if_true, Int.toNat_natCast]
  by_cases hv : v < 2 ^ w <;> simp [hv]

end Sys2Proof.Machine
end

