-- ==== Sys2Proof/Laws/Decode.lean ====
section
/-! SUPPORT. The ID bytes: what they read as, and that a block is its ID bytes and its section data. -/

namespace Sys2Proof.Machine

/-! What the decoder reads from each kind of item. -/

@[simp] theorem decode_request (r : Request) : decode (.request r) = .ok (decodeRequest r) := rfl

@[simp] theorem decode_block (std : Std) (pos : PosWord) (bytes : Bytes) :
    decode (.block std pos bytes) = decodeBlockItem std pos bytes := rfl

@[simp] theorem decode_pack (std : Std) (slot : PackSlot) (bytes : Bytes) :
    decode (.pack std slot bytes) = decodePackItem std slot bytes := rfl

theorem length_idBytes (n : Nat) (id : IdOperands) : (idBytes n id).length = 3 := by
  simp [idBytes]

/-- The field values that `idBytes` puts in place. -/
def idValue (n : Nat) (id : IdOperands) : IdField → Nat
  | .sct  => n
  | .res0 => id.res0.toNat
  | .seq  => id.seq.toNat
  | .dseq => id.dseq.toNat
  | .fsc  => id.fsc.toNat
  | .res1 => id.res1.toNat
  | .dbn  => id.dbn.toNat

theorem idValue_lt {n : Nat} (hn : n < 8) (id : IdOperands) (f : IdField) : idValue n id f < 2 ^ (idLoc f).width := by
  cases f
  · exact hn
  · exact id.res0.isLt
  · exact id.seq.isLt
  · exact id.dseq.isLt
  · exact id.fsc.isLt
  · exact id.res1.isLt
  · exact id.dbn.isLt

/-- Each ID field of the ID bytes reads as the value put there (R54). -/
theorem readInt_idBytes {n : Nat} (hn : n < 8) (id : IdOperands) (payload : Bytes) (f : IdField) :
    readInt params (idBytes n id ++ payload) (.id f) = idValue n id f := by
  have hv := idValue_lt hn id f
  have hb : ∀ g : IdField, (idLoc g).off + (idLoc g).width ≤ 24 := by intro g; cases g <;> decide
  have key : fieldBits (idBytes n id) (idLoc f).off (idLoc f).width = idValue n id f := by
    simp only [idBytes, List.foldl]
    cases f
    all_goals
      repeat rw [fieldBits_putBits_disjoint _ (by decide)]
      exact fieldBits_putBits_same (by simp [intLoc, idLoc]) hv
  rw [← key]
  exact fieldBits_append_left _ (by rw [length_idBytes]; exact hb f)

/-- A block of at least three bytes is its ID bytes followed by its section data (R55). -/
theorem idBytes_idOperandsOf {blk : Bytes} (h : 3 ≤ blk.length) :
    idBytes (readInt params blk (.id .sct)) (idOperandsOf blk) ++ blk.drop 3 = blk := by
  have hsct : readInt params blk (.id .sct) < 8 := fieldBits_lt blk 0 3
  have hval : ∀ f, idValue (readInt params blk (.id .sct)) (idOperandsOf blk) f = readInt params blk (.id f) := by
    intro f
    cases f
    · rfl
    all_goals
      simp only [idValue, idOperandsOf, BitVec.toNat_ofNat]
      exact Nat.mod_eq_of_lt (fieldBits_lt ..)
  have hlen : (idBytes (readInt params blk (.id .sct)) (idOperandsOf blk) ++ blk.drop 3).length = blk.length := by
    simp [length_idBytes]; omega
  refine bytes_ext hlen fun k hk => ?_
  by_cases h24 : k < 24
  · refine bitAt_eq_of_chained idFields_chained (fun f hf => ?_) (Nat.zero_le k) h24
    have : ∃ g : IdField, f = .int (.id g) := by
      simp only [idFields, List.mem_cons, List.not_mem_nil, or_false] at hf
      rcases hf with h | h | h | h | h | h | h <;> exact ⟨_, h⟩
    obtain ⟨g, rfl⟩ := this
    exact (readInt_idBytes hsct _ _ g).trans (hval g)
  · rw [bitAt_append_right _ (by rw [length_idBytes]; omega), length_idBytes, bitAt_drop]
    congr 1; omega

theorem drop_idBytes (n : Nat) (id : IdOperands) (payload : Bytes) : (idBytes n id ++ payload).drop 3 = payload := by
  rw [List.drop_append_of_le_length (by rw [length_idBytes]), List.drop_eq_nil_of_le (by rw [length_idBytes])]
  rfl

/-- The operands read from ID bytes are the ones put there. -/
theorem idOperandsOf_idBytes {n : Nat} (hn : n < 8) (id : IdOperands) (payload : Bytes) :
    idOperandsOf (idBytes n id ++ payload) = id := by
  obtain ⟨a, b, c, d, e, f⟩ := id
  simp only [idOperandsOf, readInt_idBytes hn, idValue, BitVec.ofNat_toNat, BitVec.setWidth_eq]

end Sys2Proof.Machine
end

