-- ==== Sys2Proof/Laws/Encoder.lean ====
section
/-! SUPPORT. What ENCODE's loop over the fields does, said once: it succeeds when every field fits, and then each field
reads back; it stops at the first that does not fit. -/

namespace Sys2Proof.Machine

/-- One field that fits is put in place: it reads back, and no other bit changes. -/
theorem encodeField_ok {P : Params} {r : DecodedBlock} {buf : Bytes} {f : RawField} (hf : fieldFits P r f = true)
    (he : fieldEnd P f ≤ 8 * buf.length) :
    ∃ buf', encodeField P r buf f = .ok buf' ∧ buf'.length = buf.length ∧ holds P r buf' f ∧
      ∀ k, ¬(fieldStart P f ≤ k ∧ k < fieldEnd P f) → bitAt buf' k = bitAt buf k := by
  cases f with
  | int f =>
    simp only [fieldFits] at hf
    split at hf
    · rename_i v hv
      have hlt := of_decide_eq_true hf
      refine ⟨putBits buf (P.layout.int f).off (P.layout.int f).width v, ?_, by simp, ?_, ?_⟩
      · simp only [encodeField, encodeInt, hv]
        rw [writeUnsigned_nat (by simpa [fieldEnd] using he), if_pos hlt]
      · simp only [holds, readInt]
        rw [fieldBits_putBits_same (by simpa [fieldEnd] using he) hlt, hv]
      · intro k hk
        exact bitAt_putBits_of_not_mem _ _ _ _ (by simpa [fieldStart, fieldEnd] using hk)
    · cases hf
  | bytes f =>
    simp only [fieldFits] at hf
    split at hf
    · rename_i v hv
      have hlen : v.length = (P.layout.bytes f).len := by simpa using hf
      have hfit : (P.layout.bytes f).byte + (P.layout.bytes f).len ≤ buf.length := by
        simp only [fieldEnd] at he; omega
      refine ⟨memWrite buf (P.layout.bytes f).byte (P.layout.bytes f).len v, ?_, length_memWrite hfit hlen, ?_, ?_⟩
      · simp only [encodeField, encodeBytes, hv, hlen, ne_eq, not_true_eq_false, if_false]
      · simp only [holds, readBytes]
        rw [memRead_memWrite_same hfit hlen, hv]
      · intro k hk
        rw [bitAt_memWrite hfit hlen, if_neg (by simpa [fieldStart, fieldEnd] using hk)]
    · cases hf

/-- Chained fields that fit are all put in place and all read back. -/
theorem encodeFields_ok {P : Params} {r : DecodedBlock} {fs : List RawField} {lo hi : Nat}
    (hc : chained P fs lo hi = true) (hf : ∀ f ∈ fs, fieldFits P r f = true) {buf : Bytes}
    (hb : hi ≤ 8 * buf.length) :
    ∃ buf', encodeFields P r fs buf = .ok buf' ∧ buf'.length = buf.length ∧ (∀ f ∈ fs, holds P r buf' f) ∧
      ∀ k < lo, bitAt buf' k = bitAt buf k := by
  induction fs generalizing lo buf with
  | nil => exact ⟨buf, rfl, rfl, by simp, fun _ _ => rfl⟩
  | cons f fs ih =>
    obtain ⟨h1, h2, h3⟩ := chained_cons hc
    have hend := (chained_mem hc (List.mem_cons_self ..)).2
    obtain ⟨b1, e1, l1, o1, u1⟩ := encodeField_ok (hf f (List.mem_cons_self ..)) (le_trans hend hb)
    obtain ⟨b2, e2, l2, o2, u2⟩ := ih h3 (fun g hg => hf g (List.mem_cons_of_mem _ hg)) (buf := b1) (by omega)
    refine ⟨b2, ?_, by omega, ?_, ?_⟩
    · simp only [encodeFields, e1, e2]
    · intro g hg
      rcases List.mem_cons.1 hg with rfl | hg
      · exact holds_of_sameField o1 (sameField_of_bits (by omega) fun k _ hk => (u2 k hk).symm)
      · exact o2 g hg
    · intro k hk
      rw [u2 k (by omega), u1 k (by omega)]

/-- The loop stops at the first field that does not fit, with that field's error. -/
theorem encodeFields_error {P : Params} {r : DecodedBlock} {fs : List RawField} {buf : Bytes} {info : ErrInfo}
    (h : encodeFields P r fs buf = .error info) :
    ∃ pre f post buf', fs = pre ++ f :: post ∧ encodeFields P r pre buf = .ok buf' ∧
      encodeField P r buf' f = .error info := by
  induction fs generalizing buf with
  | nil => cases h
  | cons f fs ih =>
    simp only [encodeFields] at h
    split at h
    · rename_i b hb
      obtain ⟨pre, g, post, b', h1, h2, h3⟩ := ih h
      exact ⟨f :: pre, g, post, b', by simp [h1], by simp only [encodeFields, hb, h2], h3⟩
    · rename_i e he
      cases h
      exact ⟨[], f, fs, buf, rfl, rfl, he⟩

/-- What ENCODE answers: a refusal, an error, or a buffer. -/
theorem encodeBlock_cases (P : Params) (std : Std) (r : DecodedBlock) :
    encodeBlock P std r = refusal .badRecord ∨ (∃ info, encodeBlock P std r = raise info) ∨
      ∃ buf, encodeBlock P std r = okData buf := by
  unfold encodeBlock
  split
  · split
    · exact .inr (.inr ⟨_, rfl⟩)
    · exact .inr (.inl ⟨_, rfl⟩)
  · exact .inl rfl

/-- Fields put in place before others. -/
theorem encodeFields_append {P : Params} {r : DecodedBlock} {fs gs : List RawField} {buf buf' : Bytes}
    (h : encodeFields P r fs buf = .ok buf') : encodeFields P r (fs ++ gs) buf = encodeFields P r gs buf' := by
  induction fs generalizing buf with
  | nil => cases h; rfl
  | cons f fs ih =>
    simp only [List.cons_append, encodeFields] at *
    split at h
    · exact ih h
    · cases h

/-- Chained fields, cut in two. -/
theorem chained_append {P : Params} {fs gs : List RawField} {lo hi : Nat} (h : chained P (fs ++ gs) lo hi = true) :
    ∃ m, chained P fs lo m = true ∧ chained P gs m hi = true := by
  induction fs generalizing lo with
  | nil => exact ⟨lo, by simp [chained], h⟩
  | cons f fs ih =>
    obtain ⟨h1, h2, h3⟩ := chained_cons h
    obtain ⟨m, h4, h5⟩ := ih h3
    exact ⟨m, by simp [chained, h1, h2, h4], h5⟩

/-- The first element that fails a test. -/
theorem exists_first_failing {α : Type} (p : α → Bool) (l : List α) (h : ¬ ∀ x ∈ l, p x = true) :
    ∃ pre f post, l = pre ++ f :: post ∧ (∀ g ∈ pre, p g = true) ∧ p f = false := by
  induction l with
  | nil => simp at h
  | cons x l ih =>
    by_cases hx : p x = true
    · obtain ⟨pre, f, post, h1, h2, h3⟩ := ih (fun hl => h (by simpa [hx] using hl))
      exact ⟨x :: pre, f, post, by simp [h1], by simpa [hx] using h2, h3⟩
    · exact ⟨[], x, l, rfl, by simp, by simpa using hx⟩

/-- A record has every field of its block type's order. -/
theorem exists_namedValue (r : DecodedBlock) {f : RawField} (h : f ∈ params.layout.order r.body.type) :
    ∃ v, namedValue r f = some v := by
  rcases mem_order_cases h with h | h
  · simp only [idFields, List.mem_cons, List.not_mem_nil, or_false] at h
    rcases h with h | h | h | h | h | h | h <;> subst h <;> exact ⟨_, rfl⟩
  · obtain ⟨i, b⟩ := r
    cases b with
    | header b =>
      simp only [Body.type, bodyFields, List.mem_cons, List.not_mem_nil, or_false] at h
      rcases h with h | h | h | h | h | h | h | h | h | h | h | h | h | h | h <;> subst h <;> exact ⟨_, rfl⟩
    | subcode b =>
      rcases List.mem_append.1 h with h | h
      · obtain ⟨k, -, h⟩ := List.mem_flatMap.1 h
        rcases List.mem_append.1 h with h | h
        · simp only [List.mem_cons, List.not_mem_nil, or_false] at h
          rcases h with h | h | h | h | h | h <;> subst h <;> exact ⟨_, rfl⟩
        · obtain ⟨b, rfl⟩ := mem_packFields h
          exact ⟨_, rfl⟩
      · rw [List.mem_singleton] at h; subst h; exact ⟨_, rfl⟩
    | vaux b =>
      rcases List.mem_append.1 h with h | h
      · obtain ⟨k, -, h⟩ := List.mem_flatMap.1 h
        obtain ⟨b, rfl⟩ := mem_packFields h
        exact ⟨_, rfl⟩
      · rw [List.mem_singleton] at h; subst h; exact ⟨_, rfl⟩
    | audio b =>
      rcases List.mem_append.1 h with h | h
      · obtain ⟨b, rfl⟩ := mem_packFields h
        exact ⟨_, rfl⟩
      · rw [List.mem_singleton] at h; subst h; exact ⟨_, rfl⟩
    | video b =>
      simp only [Body.type, bodyFields, List.mem_cons, List.not_mem_nil, or_false] at h
      rcases h with h | h | h <;> subst h <;> exact ⟨_, rfl⟩

/-- ENCODE of a record that fits (R150, R154): an 80-byte block that holds every raw field. -/
theorem encodeBlock_fits {std : Std} {r : DecodedBlock} (h : recordFits params r = true) :
    ∃ blk, encodeBlock params std r = okData blk ∧ blk.length = 80 ∧
      ∀ f ∈ params.layout.order r.body.type, holds params r blk f := by
  simp only [recordFits, Bool.and_eq_true, List.all_eq_true] at h
  obtain ⟨b, h1, h2, h3, _⟩ := encodeFields_ok (order_chained r.body.type) h.2 (buf := List.replicate 80 0) (by simp)
  refine ⟨b, ?_, by simpa using h2, h3⟩
  simp only [encodeBlock, h.1, if_true]
  show (match encodeFields params r (params.layout.order r.body.type) (List.replicate 80 0) with
    | .ok buf => okData buf
    | .error info => raise info) = okData b
  rw [h1]

end Sys2Proof.Machine
end

