-- ==== Sys2Proof/Laws/Memory.lean ====
section
/-! SUPPORT. The named buffers: read after write, and that every operation keeps the canonical form. -/

namespace Sys2Proof.Machine

@[simp] theorem get?_nil (b : Name) : Memory.get? [] b = none := rfl

theorem get?_cons (n : Name) (d : Bytes) (m : Memory) (b : Name) :
    Memory.get? ((n, d) :: m) b = if n = b then some d else Memory.get? m b := rfl

theorem set_cons (n : Name) (x : Bytes) (m : Memory) (b : Name) (d : Bytes) :
    Memory.set ((n, x) :: m) b d =
      if b < n then (b, d) :: (n, x) :: m else if b = n then (b, d) :: m else (n, x) :: Memory.set m b d := rfl

/-- A written buffer reads as what was written. -/
@[simp] theorem get?_set_same (m : Memory) (b : Name) (d : Bytes) : (m.set b d).get? b = some d := by
  induction m with
  | nil => simp [Memory.set, get?_cons]
  | cons x m ih =>
    obtain ⟨n, x⟩ := x
    rw [set_cons]
    split
    · simp [get?_cons]
    · split
      · simp [get?_cons]
      · rename_i h; rw [get?_cons, if_neg (fun e => h e.symm), ih]

/-- A write leaves every other buffer alone. -/
theorem get?_set_other (m : Memory) {b c : Name} (d : Bytes) (h : b ≠ c) : (m.set b d).get? c = m.get? c := by
  induction m with
  | nil => simp [Memory.set, get?_cons, h]
  | cons x m ih =>
    obtain ⟨n, x⟩ := x
    rw [set_cons]
    split
    · rw [get?_cons, if_neg h]
    · split
      · rename_i h2; subst h2; rw [get?_cons, get?_cons, if_neg h, if_neg h]
      · rw [get?_cons, get?_cons, ih]

theorem mem_names_set {m : Memory} {b : Name} {d : Bytes} {c : Name} (h : c ∈ (m.set b d).map Prod.fst) :
    c = b ∨ c ∈ m.map Prod.fst := by
  induction m with
  | nil => simp [Memory.set] at h; exact .inl h
  | cons x m ih =>
    obtain ⟨n, x⟩ := x
    rw [set_cons] at h
    split at h
    · simpa using h
    · split at h
      · simp at h ⊢; tauto
      · simp only [List.map_cons, List.mem_cons] at h ⊢
        rcases h with h | h
        · exact .inr (.inl h)
        · rcases ih h with h | h
          · exact .inl h
          · exact .inr (.inr h)

/-- A write keeps the canonical form. -/
theorem wf_set {m : Memory} (h : m.wf) (b : Name) (d : Bytes) : (m.set b d).wf := by
  induction m with
  | nil => simp [Memory.set, Memory.wf]
  | cons x m ih =>
    obtain ⟨n, x⟩ := x
    have h' : (∀ c ∈ m.map Prod.fst, n < c) ∧ Memory.wf m := by simpa [Memory.wf] using h
    rw [set_cons]
    split
    · rename_i hbn
      have : ∀ c ∈ m.map Prod.fst, b < c := fun c hc => lt_trans hbn (h'.1 c hc)
      simp only [Memory.wf, List.map_cons, List.pairwise_cons, List.mem_cons, forall_eq_or_imp]
      exact ⟨⟨hbn, this⟩, h'.1, h'.2⟩
    · split
      · rename_i hb; subst hb; simpa [Memory.wf] using h
      · rename_i h1 h2
        simp only [Memory.wf, List.map_cons, List.pairwise_cons]
        refine ⟨fun c hc => ?_, ih h'.2⟩
        rcases mem_names_set hc with rfl | hc
        · exact lt_of_le_of_ne (not_lt.1 h1) (Ne.symm h2)
        · exact h'.1 c hc

/-- Collecting a response keeps the canonical form. -/
theorem wf_collect {m : Memory} (h : m.wf) (dest : Option Name) (r : Response) : (m.collect dest r).wf := by
  unfold Memory.collect
  split
  · exact wf_set h _ _
  · exact h

/-- Collecting a response changes no buffer but the destination. -/
theorem get?_collect_other (m : Memory) {dest : Option Name} (r : Response) {c : Name} (h : dest ≠ some c) :
    (m.collect dest r).get? c = m.get? c := by
  unfold Memory.collect
  split
  · exact get?_set_other _ _ fun e => h (by rw [e])
  · rfl

theorem wf_reset : State.reset.bufs.wf := List.Pairwise.nil

end Sys2Proof.Machine
end

