-- ==== Sys2Proof/Laws/Step.lean ====
section
/-! SUPPORT. What an instruction and a step can do, said once. -/

namespace Sys2Proof.Machine

/-- Every instruction answers in one of two shapes: it delivers a response, or a pack result, that depends on the
instruction alone. -/
theorem exec_shape (i : Instr) :
    (∃ r, ∀ s, exec i s = .next (s.deliver r)) ∨ (∃ p, ∀ s, exec i s = .next (s.deliverPack p)) := by
  cases i with
  | freadU => exact .inl ⟨_, fun _ => rfl⟩
  | freadS => exact .inl ⟨_, fun _ => rfl⟩
  | fwriteU => exact .inl ⟨_, fun _ => rfl⟩
  | fwriteS => exact .inl ⟨_, fun _ => rfl⟩
  | decode => exact .inl ⟨_, fun _ => rfl⟩
  | encode => exact .inl ⟨_, fun _ => rfl⟩
  | reservedOp67 => exact .inl ⟨_, fun _ => rfl⟩
  | reservedOp8F => exact .inl ⟨_, fun _ => rfl⟩
  | blkHeader => exact .inl ⟨_, fun _ => rfl⟩
  | blkSubcode => exact .inl ⟨_, fun _ => rfl⟩
  | blkVaux => exact .inl ⟨_, fun _ => rfl⟩
  | blkAudio => exact .inl ⟨_, fun _ => rfl⟩
  | blkVideo => exact .inl ⟨_, fun _ => rfl⟩
  | blkUnknown5 => exact .inl ⟨_, fun _ => rfl⟩
  | blkUnknown67 => exact .inl ⟨_, fun _ => rfl⟩
  | packTc => exact .inr ⟨_, fun _ => rfl⟩
  | packRecdate => exact .inr ⟨_, fun _ => rfl⟩
  | packRectime => exact .inr ⟨_, fun _ => rfl⟩
  | packNoinfo => exact .inr ⟨_, fun _ => rfl⟩
  | packRaw => exact .inr ⟨_, fun _ => rfl⟩

/-- With an item outstanding that decodes, a step runs its instruction. -/
theorem step_outstanding {s : State} {o : Outstanding} {i : Instr} (h : s.request = some o)
    (hd : decode o.item = .ok i) : step s = exec i s := by
  simp only [step, h, serve, hd]

/-- What a line without a request does: `LOAD` sets its buffer; no other line gets this far. -/
theorem lineEffect_loaded {l : Line} {s s' : State} (h : lineEffect l s = .loaded s') :
    s' = s ∨ ∃ b d, s' = { s with bufs := s.bufs.set b d } := by
  unfold lineEffect at h
  split at h
  · cases h; exact .inr ⟨_, _, rfl⟩
  · split at h
    · cases h
    · cases h
    · cases h; exact .inl rfl

/-- What a line that presents a request does: the request stands on the port and nothing else changes. -/
theorem lineEffect_presented {l : Line} {s s' : State} {o : Outstanding} (h : lineEffect l s = .presented s' o) :
    s' = { s with request := some o } := by
  unfold lineEffect at h
  split at h
  · cases h
  · split at h
    · cases h; rfl
    · cases h
    · cases h

/-- Everything a step that answers a next state can have done. -/
theorem step_cases {s t : State} (h : step s = .next t) :
    (s.request = none ∧ s.program = [] ∧ t = s) ∨
    (∃ l rest, s.request = none ∧ s.program = l :: rest ∧
      (t = { s with program := rest } ∨ ∃ b d, t = { s with program := rest, bufs := s.bufs.set b d })) ∨
    (∃ l rest o i, s.request = none ∧ s.program = l :: rest ∧ decode o.item = .ok i ∧
      exec i { s with program := rest, request := some o } = .next t) ∨
    (∃ o i, s.request = some o ∧ decode o.item = .ok i ∧ exec i s = .next t) := by
  unfold step at h
  split at h
  · rename_i o ho
    unfold serve at h
    split at h
    · rename_i i hi; exact .inr (.inr (.inr ⟨o, i, ho, hi, h⟩))
    · cases h
  · rename_i hn
    split at h
    · rename_i hp; cases h; exact .inl ⟨hn, hp, rfl⟩
    · rename_i l rest hp
      unfold takeLine at h
      split at h
      · rename_i s' he
        cases h
        refine .inr (.inl ⟨l, rest, hn, hp, ?_⟩)
        rcases lineEffect_loaded he with rfl | ⟨b, d, rfl⟩
        · exact .inl rfl
        · exact .inr ⟨b, d, rfl⟩
      · rename_i s' o he
        have hs := lineEffect_presented he
        subst hs
        unfold serve at h
        split at h
        · rename_i i hi; exact .inr (.inr (.inl ⟨l, rest, o, i, hn, hp, hi, h⟩))
        · cases h
      · cases h

end Sys2Proof.Machine
end

