-- ==== Sys2Proof/Laws/Answers.lean ====
section
/-! SUPPORT. What an instruction can answer, said once, and what it means that an instruction answers a response in every
state. -/

namespace Sys2Proof.Machine

theorem served_deliver (s : State) (r : Response) : Served s (s.deliver r) r := ⟨rfl, rfl, rfl, rfl, rfl, rfl⟩

theorem packServed_deliverPack (s : State) (p : PackResult) : PackServed s (s.deliverPack p) p :=
  ⟨rfl, rfl, rfl, rfl, rfl, rfl, rfl⟩

/-- A response without data leaves every buffer as it was (R40). -/
theorem bufs_deliver (s : State) {r : Response} (h : r.data = none) : (s.deliver r).bufs = s.bufs := by
  simp [collect_no_data _ _ h]

/-- An instruction that always delivers `r'` answers `r` in every state exactly if `r'` is `r`. -/
theorem answers_iff {i : Instr} {r r' : Response} (h : ∀ s, exec i s = .next (s.deliver r')) :
    Answers i r ↔ r' = r := by
  constructor
  · intro ha
    obtain ⟨t, h1, h2⟩ := ha State.reset
    rw [h] at h1; cases h1; simpa using h2
  · rintro rfl s; exact ⟨_, h s, rfl⟩

/-! ## Every response the block gives -/

/-- The responses the block gives (R51, R161 to R163). -/
inductive Given : Response → Prop
  | result (v : ResultWord) : Given (okResult v)
  | data (d : Bytes) : Given (okData d)
  | decoded (b : DecodedBlock) (vs : List Violation) (h : recordFits params b = true) : Given (okDecoded b vs)
  | short (pos : PosWord) : Given (unreadable pos .boundsError none)
  | unknown (pos : PosWord) (sct : Option (BitVec 3)) : Given (unreadable pos .unknownBlockType sct)
  | error (info : ErrInfo) : Given (raise info)
  | refused (r : RefusalReason) : Given (refusal r)

theorem given_codec {α : Type} (w : WidthWord) (buf : Bytes) (op : Except ErrInfo α) {ok : α → Response}
    (h : ∀ v, Given (ok v)) : Given (codecResponse params w buf op ok) := by
  rcases codecResponse_cases w buf op ok with ⟨r, e⟩ | ⟨i, _, e⟩ | ⟨v, _, e⟩ <;> rw [e]
  · exact .refused _
  · exact .error _
  · exact h v

theorem given_decodedAs {std : Std} {pos : PosWord} {blk : Bytes} {t : BlockType}
    (ht : sctMap (readInt params blk (.id .sct)) = some t) :
    Given (withLength params std pos blk (decodedAs params t std blk)) := by
  rcases withLength_cases std pos blk (decodedAs params t std blk) with ⟨_, e⟩ | ⟨_, e⟩ | ⟨h, e⟩ <;> rw [e]
  · exact .refused _
  · exact .short _
  · exact .decoded _ _ (decodeRecord_fits h ht)

theorem given_unknownBlock (std : Std) (pos : PosWord) (blk : Bytes) :
    Given (withLength params std pos blk (unknownBlock params pos blk)) := by
  rcases withLength_cases std pos blk (unknownBlock params pos blk) with ⟨_, e⟩ | ⟨_, e⟩ | ⟨h, e⟩ <;> rw [e]
  · exact .refused _
  · exact .short _
  · exact .unknown _ _

theorem decodeBlock_short {std : Std} {pos : PosWord} {blk : Bytes} (h : blk.length < 80) :
    decodeBlock params std pos blk = unreadable pos .boundsError none := withLength_short _ h

theorem decodeBlock_long {std : Std} {pos : PosWord} {blk : Bytes} (h : 80 < blk.length) :
    decodeBlock params std pos blk = refusal .lengthError := withLength_long _ h

theorem given_decodeBlock (std : Std) (pos : PosWord) (blk : Bytes) : Given (decodeBlock params std pos blk) := by
  rcases lt_trichotomy blk.length 80 with h | h | h
  · rw [decodeBlock_short h]; exact .short _
  · cases ht : sctMap (readInt params blk (.id .sct)) with
    | some t => rw [decodeBlock_known h ht]; exact .decoded _ _ (decodeRecord_fits h ht)
    | none => rw [decodeBlock_unknown h ht]; exact .unknown _ _
  · rw [decodeBlock_long h]; exact .refused _

theorem given_encodeBlock (std : Std) (r : DecodedBlock) : Given (encodeBlock params std r) := by
  rcases encodeBlock_cases params std r with h | ⟨i, h⟩ | ⟨b, h⟩ <;> rw [h]
  · exact .refused _
  · exact .error _
  · exact .data _

theorem given_blockRow (std : Std) (pos : PosWord) {n : Nat} (id : IdOperands) (p : Bytes) {t : BlockType} (hn : n < 8)
    (ht : sctMap n = some t) :
    Given (withLength params std pos (idBytes n id ++ p) (decodedAs params t std (idBytes n id ++ p))) :=
  given_decodedAs (by rw [readInt_idBytes hn]; exact ht)

/-- Every instruction delivers one response the block gives, the same in every state, or one pack result. -/
theorem exec_given (i : Instr) :
    (∃ r, Given r ∧ ∀ s, exec i s = .next (s.deliver r)) ∨ (∃ p, ∀ s, exec i s = .next (s.deliverPack p)) := by
  cases i with
  | freadU => exact .inl ⟨_, given_codec _ _ _ (fun _ => .result _), fun _ => rfl⟩
  | freadS => exact .inl ⟨_, given_codec _ _ _ (fun _ => .result _), fun _ => rfl⟩
  | fwriteU => exact .inl ⟨_, given_codec _ _ _ (fun _ => .data _), fun _ => rfl⟩
  | fwriteS => exact .inl ⟨_, given_codec _ _ _ (fun _ => .data _), fun _ => rfl⟩
  | decode => exact .inl ⟨_, given_decodeBlock .., fun _ => rfl⟩
  | encode => exact .inl ⟨_, given_encodeBlock .., fun _ => rfl⟩
  | reservedOp67 => exact .inl ⟨_, .refused _, fun _ => rfl⟩
  | reservedOp8F => exact .inl ⟨_, .refused _, fun _ => rfl⟩
  | blkHeader => exact .inl ⟨_, given_blockRow _ _ _ _ (by decide) rfl, fun _ => rfl⟩
  | blkSubcode => exact .inl ⟨_, given_blockRow _ _ _ _ (by decide) rfl, fun _ => rfl⟩
  | blkVaux => exact .inl ⟨_, given_blockRow _ _ _ _ (by decide) rfl, fun _ => rfl⟩
  | blkAudio => exact .inl ⟨_, given_blockRow _ _ _ _ (by decide) rfl, fun _ => rfl⟩
  | blkVideo => exact .inl ⟨_, given_blockRow _ _ _ _ (by decide) rfl, fun _ => rfl⟩
  | blkUnknown5 => exact .inl ⟨_, given_unknownBlock .., fun _ => rfl⟩
  | blkUnknown67 => exact .inl ⟨_, given_unknownBlock .., fun _ => rfl⟩
  | packTc => exact .inr ⟨_, fun _ => rfl⟩
  | packRecdate => exact .inr ⟨_, fun _ => rfl⟩
  | packRectime => exact .inr ⟨_, fun _ => rfl⟩
  | packNoinfo => exact .inr ⟨_, fun _ => rfl⟩
  | packRaw => exact .inr ⟨_, fun _ => rfl⟩

theorem responseSound_of_given {r : Response} (h : Given r) : responseSound r = true := by
  cases h with
  | decoded b vs h => simp [responseSound, okDecoded, statusLegal, h, statusRaised]
  | error i => cases i <;> rfl
  | refused r => cases r <;> rfl
  | _ => rfl

/-! ## What a codec answer says about its operands -/

/-- A codec read answers a value exactly where it is admitted and in bounds, and the value is the field's. -/
theorem answers_read_iff {sg : Bool} {w : WidthWord} {o : OffsetWord} {d : Bytes} {v : ResultWord} :
    Answers (readInstr sg w o d) (okResult v) ↔
      Admitted w.toNat d.length ∧ o.toNat + w.toNat ≤ 8 * d.length ∧
      v = if sg then BitVec.ofInt 32 (signedValue w.toNat (fieldBits d o.toNat w.toNat))
          else BitVec.ofNat 32 (fieldBits d o.toNat w.toNat) := by
  have key : Answers (readInstr sg w o d) (okResult v) ↔
      (if sg then freadS params w o d else freadU params w o d) = okResult v := by
    cases sg
    · exact answers_iff (i := readInstr false w o d) (fun _ => rfl)
    · exact answers_iff (i := readInstr true w o d) (fun _ => rfl)
  rw [key]
  by_cases hA : Admitted w.toNat d.length
  · by_cases hB : o.toNat + w.toNat ≤ 8 * d.length
    · cases sg
      · simp [freadU, codecResponse_of_admitted hA, readUnsigned_ok hB, hB, okResult, eq_comm]; exact fun _ => hA
      · simp [freadS, codecResponse_of_admitted hA, readSigned_ok hB, hB, okResult, eq_comm]; exact fun _ => hA
    · cases sg
      · simp [freadU, codecResponse_of_admitted hA, readUnsigned_bounds hB, hB, okResult, raise, raised]
      · simp [freadS, codecResponse_of_admitted hA, readSigned_bounds hB, hB, okResult, raise, raised]
  · obtain ⟨reason, hr⟩ := admit_of_not_admitted hA
    cases sg <;> simp [freadS, freadU, codecResponse, hr, refusal, okResult, hA]

/-- The bits a codec write in range puts in the field (R84, R85). -/
def writtenAs (sg : Bool) (w : WidthWord) (v : ValueWord) (raw : Nat) : Prop :=
  if sg then inSignedRange w.toNat v.toInt = true ∧ raw = signedRaw w.toNat v.toInt
  else inUnsignedRange w.toNat v.toInt = true ∧ raw = v.toInt.toNat

/-- A codec write that is admitted, in bounds and in range answers the buffer with the field replaced. -/
theorem answers_write {sg : Bool} {w : WidthWord} {o : OffsetWord} {v : ValueWord} {d : Bytes} {raw : Nat}
    (hA : Admitted w.toNat d.length) (hB : o.toNat + w.toNat ≤ 8 * d.length) (h : writtenAs sg w v raw) :
    Answers (writeInstr sg w o v d) (okData (putBits d o.toNat w.toNat raw)) := by
  cases sg
  · refine (answers_iff (i := writeInstr false w o v d) (fun _ => rfl)).2 ?_
    obtain ⟨h1, rfl⟩ := h
    simp [fwriteU, codecResponse_of_admitted hA, writeUnsigned, inBounds, hB, h1]
  · refine (answers_iff (i := writeInstr true w o v d) (fun _ => rfl)).2 ?_
    obtain ⟨h1, rfl⟩ := h
    simp [fwriteS, codecResponse_of_admitted hA, writeSigned, inBounds, hB, h1]

/-- What it says that a codec write answered a buffer. -/
theorem answers_write_cases {sg : Bool} {w : WidthWord} {o : OffsetWord} {v : ValueWord} {d d' : Bytes}
    (h : Answers (writeInstr sg w o v d) (okData d')) :
    Admitted w.toNat d.length ∧ o.toNat + w.toNat ≤ 8 * d.length ∧
      ∃ raw, raw < 2 ^ w.toNat ∧ d' = putBits d o.toNat w.toNat raw ∧ writtenAs sg w v raw := by
  have key : (if sg then fwriteS params w o v d else fwriteU params w o v d) = okData d' := by
    cases sg
    · exact (answers_iff (i := writeInstr false w o v d) (fun _ => rfl)).1 h
    · exact (answers_iff (i := writeInstr true w o v d) (fun _ => rfl)).1 h
  have hA : Admitted w.toNat d.length := by
    by_contra hA
    obtain ⟨reason, hr⟩ := admit_of_not_admitted hA
    cases sg <;> simp [fwriteS, fwriteU, codecResponse, hr, refusal, okData] at key
  refine ⟨hA, ?_⟩
  by_cases hB : o.toNat + w.toNat ≤ 8 * d.length
  · refine ⟨hB, ?_⟩
    cases sg
    · simp only [fwriteU, codecResponse_of_admitted hA, writeUnsigned, inBounds, hB, decide_true, if_true] at key
      by_cases hr : inUnsignedRange w.toNat v.toInt = true
      · simp only [hr, if_true, okData] at key
        simp at key
        refine ⟨_, ?_, key.symm, hr, rfl⟩
        have := of_decide_eq_true hr
        have c : (2 : Int) ^ w.toNat = ((2 ^ w.toNat : Nat) : Int) := by push_cast; rfl
        rw [c] at this; omega
      · simp [hr, okData, raise, raised] at key
    · simp only [fwriteS, codecResponse_of_admitted hA, writeSigned, inBounds, hB, decide_true, if_true] at key
      by_cases hr : inSignedRange w.toNat v.toInt = true
      · simp only [hr, if_true, okData] at key
        simp at key
        have := of_decide_eq_true hr
        exact ⟨_, signedRaw_lt hA.1 this.1 this.2, key.symm, hr, rfl⟩
      · simp [hr, okData, raise, raised] at key
  · cases sg
    · simp [fwriteU, codecResponse_of_admitted hA, writeUnsigned, inBounds, hB, okData, raise, raised] at key
    · simp [fwriteS, codecResponse_of_admitted hA, writeSigned, inBounds, hB, okData, raise, raised] at key

/-! ## What a decode answer says about its block -/

theorem answers_decode {std : Std} {pos : PosWord} {blk : Bytes} {t : BlockType} (h1 : blk.length = 80)
    (h2 : sctMap (readInt params blk (.id .sct)) = some t) :
    Answers (.decode std pos blk)
      (okDecoded (decodeRecord params t blk) (recordChecks params std (decodeRecord params t blk))) :=
  (answers_iff (i := .decode std pos blk) (fun _ => rfl)).2 (decodeBlock_known h1 h2)

/-- A `Decoded` answer comes from an 80-byte block with a mapped `sct`, and is its record and the record's checks. -/
theorem answers_decode_cases {std : Std} {pos : PosWord} {blk : Bytes} {rcd : DecodedBlock} {vs : List Violation}
    (h : Answers (.decode std pos blk) (okDecoded rcd vs)) :
    blk.length = 80 ∧ ∃ t, sctMap (readInt params blk (.id .sct)) = some t ∧ rcd = decodeRecord params t blk ∧
      vs = recordChecks params std rcd := by
  have e := (answers_iff (i := .decode std pos blk) (fun _ => rfl)).1 h
  rcases lt_trichotomy blk.length 80 with h1 | h1 | h1
  · rw [decodeBlock_short h1] at e; simp [unreadable, okDecoded] at e
  · refine ⟨h1, ?_⟩
    cases ht : sctMap (readInt params blk (.id .sct)) with
    | none => rw [decodeBlock_unknown h1 ht] at e; simp [unknownBlock, unreadable, okDecoded] at e
    | some t =>
      rw [decodeBlock_known h1 ht] at e
      simp [decodedAs, okDecoded] at e
      exact ⟨t, rfl, e.1.symm, by rw [← e.2, e.1]⟩
  · rw [decodeBlock_long h1] at e; simp [refusal, okDecoded] at e

end Sys2Proof.Machine
end

