-- ==== Sys2Proof/Laws/Packs.lean ====
section
/-! SUPPORT. A field of a pack made of five bytes, in words of the byte it lies in; where packs stand. -/

namespace Sys2Proof.Machine

@[simp] theorem packBytes_packOf (a b c d e : Byte) : packBytes (packOf a b c d e) = [a, b, c, d, e] := by
  simp [packBytes, packOf]

/-- A field of a pack that lies in byte `k` of the pack. -/
theorem packField_packOf (a b c d e : Byte) (k j w : Nat) (h : j + w ≤ 8) :
    packField (packOf a b c d e) ⟨8 * k + j, w⟩ =
      (([a, b, c, d, e] : Bytes).getD k 0).toNat / 2 ^ (8 - (j + w)) % 2 ^ w := by
  rw [packField, packBytes_packOf, fieldBits_byte _ _ _ _ h]

theorem packField_lt (p : Pack) (loc : FieldLoc) : packField p loc < 2 ^ loc.width := fieldBits_lt ..

/-- Every pack stands inside the block (R118, R121, R123). -/
theorem packByte_le (slot : PackSlot) : packByte slot ≤ 73 := by
  cases slot with
  | ssyb k => have := k.isLt; simp [packByte, ssybByte]; omega
  | vaux i => have := i.isLt; simp [packByte]; omega
  | aaux => simp [packByte]

theorem packKind_tc {pc0 : Byte} (h : packKind pc0.toNat = .tc) : pc0 = 0x13 := by
  revert h; revert pc0; decide

theorem packKind_recdate {pc0 : Byte} (h : packKind pc0.toNat = .recdate) : pc0 = 0x62 := by
  revert h; revert pc0; decide

theorem packKind_rectime {pc0 : Byte} (h : packKind pc0.toNat = .rectime) : pc0 = 0x63 := by
  revert h; revert pc0; decide

theorem packKind_noinfo {pc0 : Byte} (h : packKind pc0.toNat = .noinfo) : pc0 = 0xFF := by
  revert h; revert pc0; decide

/-- A byte of the pack in a slot is the block's byte. -/
theorem readInt_packByte (blk : Bytes) (slot : PackSlot) (b : PackByte) :
    BitVec.ofNat 8 (readInt params blk (.pack slot b)) = blk.getD (packByte slot + packByteIndex b) 0 := by
  have h := fieldBits_byte blk (packByte slot + packByteIndex b) 0 8 (by omega)
  have h2 := (blk.getD (packByte slot + packByteIndex b) 0).isLt
  have e : readInt params blk (.pack slot b) = fieldBits blk (8 * (packByte slot + packByteIndex b)) 8 := rfl
  simp only [Nat.add_zero] at h
  rw [e, h, show 2 ^ (8 - (0 + 8)) = 1 from rfl, Nat.div_one, Nat.mod_eq_of_lt h2, BitVec.ofNat_toNat,
    BitVec.setWidth_eq]

/-- A field of the pack in a slot of a block is the block's field at the pack's place. -/
theorem packField_readPack (blk : Bytes) (slot : PackSlot) (loc : FieldLoc) (h : loc.off + loc.width ≤ 40) :
    packField (readPack params blk slot) loc = fieldBits blk (8 * packByte slot + loc.off) loc.width := by
  refine fieldBits_congr fun i hi => ?_
  have hk : loc.off + i < 40 := by omega
  rw [show 8 * packByte slot + loc.off + i = 8 * packByte slot + (loc.off + i) by omega]
  generalize loc.off + i = k at hk
  have e : (packBytes (readPack params blk slot)).getD (k / 8) 0 = blk.getD (packByte slot + k / 8) 0 := by
    simp only [packBytes, readPack, readInt_packByte, packByteIndex]
    have : k / 8 < 5 := by omega
    interval_cases k / 8 <;> rfl
  simp only [bitAt, e, show (8 * packByte slot + k) / 8 = packByte slot + k / 8 by omega,
    show (8 * packByte slot + k) % 8 = k % 8 by omega]

/-- A flagged typed value is the raw value (R91). -/
theorem typedBcd_flagged {raw tw lo hi r : Nat} (h : typedBcd raw tw lo hi = .flagged r) : r = raw := by
  unfold typedBcd at h
  split at h
  · cases h
  · rename_i r' e
    unfold bcdView at e
    split at e
    · cases e
    · split at e
      · cases e; cases h; rfl
      · cases e
  · split at h
    · cases h
    · cases h; rfl

/-- The places of the digits that a view has checked, from the pack's first bit (R131, R134, R137). -/
def viewDigits : PackKind → List FieldLoc
  | .tc      => [tcLoc .frames, tcLoc .seconds, tcLoc .minutes, tcLoc .hours]
  | .recdate => [recdateLoc .day, recdateLoc .month, recdateLoc .year]
  | .rectime => [rectimeLoc .frames, rectimeLoc .seconds, rectimeLoc .minutes, rectimeLoc .hours]
  | .noinfo  => []
  | .raw     => []

/-- The checks of a pack depend on its PC0 and on the digits that its view has checked, and on nothing else. -/
theorem packChecks_congr {std : Std} {slot : PackSlot} {p p' : Pack} (h0 : p.pc0 = p'.pc0)
    (h : ∀ loc ∈ viewDigits (packKind p.pc0), packField p loc = packField p' loc) :
    packChecks params std slot p = packChecks params std slot p' := by
  simp only [packChecks, ← h0]
  cases hk : packKind p.pc0 <;>
    simp only [hk, viewDigits, List.forall_mem_cons] at h <;>
    simp only [tcChecks, recdateChecks, rectimeChecks, packCheck, h]

end Sys2Proof.Machine
end

