-- ==== Sys2Proof/Machine/Configured.lean ====
section
/-! DEFINITION. The block under any parameters (R7, R8): what it answers, as a function of the parameters and of what is
presented. The port widths, the layout (its `sctMap` and its pack kinds too) and every other parameter are read off `P`, and
nothing else of it is fixed. The machine is the harness of R33 around this function at `params` (Laws/Configured.lean). -/

namespace Sys2Proof.Machine

/-- The answer to a request (R52, R65). -/
def requestAnswer (P : Params) (r : RequestOf P.toPortWidths) : ResponseOf P.toPortWidths :=
  if r.op = 0x0 then freadU P r.width r.offset r.data
  else if r.op = 0x1 then freadS P r.width r.offset r.data
  else if r.op = 0x2 then fwriteU P r.width r.offset r.value r.data
  else if r.op = 0x3 then fwriteS P r.width r.offset r.value r.data
  else if r.op = 0x4 then decodeBlock P (stdOf r.std) r.pos r.data
  else if r.op = 0x5 then encodeBlock P (stdOf r.std) r.record
  else refusal .illegalOp

/-- The pack decoder on the pack in a slot: the view and the checks that its PC0 selects in the layout (R127). -/
def packResult (P : Params) (std : Std) (slot : PackSlot) (p : Pack) : PackResult :=
  ⟨slot, p, packView P std p, packChecks P std slot p⟩

/-- What the block answers: a response (R51), or the pack decoder's result (notes/assumptions/2.md). -/
inductive AnswerOf (W : PortWidths) where
  | response (r : ResponseOf W)
  | pack (p : PackResult)
  deriving DecidableEq, Repr

/-- The answer of the block to what is presented, a function of that and of the parameters alone (R20, R21). A block or a
pack presented by itself (notes/assumptions/2.md) is rejected where its length is wrong.

DESIGN CHOICE (notes/assumptions/22.md): the spec assumes that the parameters fit each other (R92, C5), as the defaults do, and
says nothing of parameters that do not. Under such a `P` the model goes on: inner field reads and writes skip the admission of
R76, a bit past the end of the block reads as 0, a byte sequence past it is cut short, an integer field past it makes ENCODE
raise `BoundsError`, a byte sequence past it makes ENCODE return more than `BLOCK_BYTES` bytes, and a value wider than its
port is truncated. -/
def answerUnder (P : Params) : PresentedOf P.toPortWidths → Except DecodeError (AnswerOf P.toPortWidths)
  | .request r => .ok (.response (requestAnswer P r))
  | .block std pos bytes =>
    if bytes.length ≠ P.blockBytes std then .error (.blockLength bytes.length)
    else .ok (.response (decodeBlock P std pos bytes))
  | .pack std slot [pc0, pc1, pc2, pc3, pc4] => .ok (.pack (packResult P std slot (packOf pc0 pc1 pc2 pc3 pc4)))
  | .pack _ _ bytes => .error (.packLength bytes.length)

/-- The harness takes an answer on the machine's ports (R33). -/
def State.take (s : State) : AnswerOf portWidths → State
  | .response r => s.deliver r
  | .pack p => s.deliverPack p

end Sys2Proof.Machine
end

