-- ==== Sys2Proof/Laws/Configured.lean ====
section
/-! SUPPORT. The machine is the harness around the block of `answerUnder` at the parameters it is built with (R7). -/

namespace Sys2Proof.Machine

/-- A request's instruction delivers the block's answer to the request. -/
theorem exec_decodeRequest (r : Request) (s : State) :
    exec (decodeRequest r) s = .next (s.deliver (requestAnswer params r)) := by
  unfold decodeRequest requestAnswer
  repeat' split
  all_goals rfl

/-- Serving a request is delivering the block's answer to it. -/
theorem serve_request (r : Request) (dest : Option Name) (s : State) :
    serve ⟨.request r, dest⟩ s = .next (s.deliver (requestAnswer params r)) := exec_decodeRequest r s

/-- Serving a pack presented by itself is delivering the pack decoder's result, or rejecting its length: the row that the
decoder names by the pack's kind is the one whose view and checks `packResult` selects. -/
theorem serve_pack (std : Std) (slot : PackSlot) (bytes : Bytes) (dest : Option Name) (s : State) :
    serve ⟨.pack std slot bytes, dest⟩ s =
      match answerUnder params (.pack std slot bytes) with
      | .ok a => .next (s.take a)
      | .error e => .fault (.undecodable e) := by
  match bytes with
  | [pc0, pc1, pc2, pc3, pc4] =>
    simp only [serve, decode_pack, decodePackItem, answerUnder, packResult, packView, packChecks, packOf]
    cases hk : packKind pc0.toNat with
    | tc => cases packKind_tc hk; rfl
    | recdate => cases packKind_recdate hk; rfl
    | rectime => cases packKind_rectime hk; rfl
    | noinfo => cases packKind_noinfo hk; rfl
    | raw => rfl
  | [] | [_] | [_, _] | [_, _, _] | [_, _, _, _] | _ :: _ :: _ :: _ :: _ :: _ :: _ => rfl

end Sys2Proof.Machine
end

