-- ==== Sys2Proof/Laws/PerInstr.lean ====
section
/-! SUPPORT. Statements about every instruction as syntax, one lemma per constructor. Family `EncodedForm`: the encoding of
an instruction has its row's format, its row's opcode bits, and its row's length. -/

namespace Sys2Proof.Laws.EncodedForm

open Sys2Proof.Machine

/-- The encoding is a request with this `op`. -/
def IsRequest (i : Instr) (p : OpWord → Prop) : Prop := ∃ r, encode i = .request r ∧ p r.op

/-- The encoding is a DIF block of the section data's length and three ID bytes more, with this `sct`. -/
def IsBlock (i : Instr) (payload : Bytes) (sct : Nat) : Prop :=
  ∃ std pos bytes, encode i = .block std pos bytes ∧ bytes.length = payload.length + 3 ∧
    readInt params bytes (.id .sct) = sct

/-- The encoding is a pack of five bytes with this PC0. -/
def IsPack (i : Instr) (pc0 : Byte) : Prop := ∃ std slot rest, encode i = .pack std slot (pc0 :: rest) ∧ rest.length = 4

/-- The row an instruction's encoding belongs to (opcode_table.json). -/
def Statement (i : Instr) : Prop :=
  match i with
  | .freadU _ _ _ => IsRequest i (· = 0x0)
  | .freadS _ _ _ => IsRequest i (· = 0x1)
  | .fwriteU _ _ _ _ => IsRequest i (· = 0x2)
  | .fwriteS _ _ _ _ => IsRequest i (· = 0x3)
  | .decode _ _ _ => IsRequest i (· = 0x4)
  | .encode _ _ => IsRequest i (· = 0x5)
  | .reservedOp67 _ => IsRequest i (· &&& 0xE = 0x6)
  | .reservedOp8F _ => IsRequest i (· &&& 0x8 = 0x8)
  | .blkHeader _ _ _ p => IsBlock i p 0
  | .blkSubcode _ _ _ p => IsBlock i p 1
  | .blkVaux _ _ _ p => IsBlock i p 2
  | .blkAudio _ _ _ p => IsBlock i p 3
  | .blkVideo _ _ _ p => IsBlock i p 4
  | .blkUnknown5 _ _ _ p => IsBlock i p 5
  | .blkUnknown67 b _ _ _ p => IsBlock i p (6 + b.toNat)
  | .packTc _ _ _ _ _ _ => IsPack i 0x13
  | .packRecdate _ _ _ _ _ _ => IsPack i 0x62
  | .packRectime _ _ _ _ _ _ => IsPack i 0x63
  | .packNoinfo _ _ _ _ _ _ => IsPack i 0xFF
  | .packRaw _ _ pc0 _ _ _ _ => IsPack i pc0

/-- The block form, for any `sct` below 8. -/
theorem block_form {n : Nat} (hn : n < 8) (id : IdOperands) (payload : Bytes) :
    (idBytes n id ++ payload).length = payload.length + 3 ∧ readInt params (idBytes n id ++ payload) (.id .sct) = n :=
  ⟨by rw [List.length_append, length_idBytes, Nat.add_comm], readInt_idBytes hn id payload .sct⟩

theorem freadU (w : WidthWord) (o : OffsetWord) (d : Bytes) : Statement (.freadU w o d) := ⟨_, rfl, rfl⟩
theorem freadS (w : WidthWord) (o : OffsetWord) (d : Bytes) : Statement (.freadS w o d) := ⟨_, rfl, rfl⟩
theorem fwriteU (w : WidthWord) (o : OffsetWord) (v : ValueWord) (d : Bytes) : Statement (.fwriteU w o v d) :=
  ⟨_, rfl, rfl⟩
theorem fwriteS (w : WidthWord) (o : OffsetWord) (v : ValueWord) (d : Bytes) : Statement (.fwriteS w o v d) :=
  ⟨_, rfl, rfl⟩
theorem decode (std : Std) (pos : PosWord) (d : Bytes) : Statement (.decode std pos d) := ⟨_, rfl, rfl⟩
theorem encode (std : Std) (r : DecodedBlock) : Statement (.encode std r) := ⟨_, rfl, rfl⟩
theorem reservedOp67 (b : BitVec 1) : Statement (.reservedOp67 b) := ⟨_, rfl, by revert b; decide⟩
theorem reservedOp8F (b : BitVec 3) : Statement (.reservedOp8F b) := ⟨_, rfl, by revert b; decide⟩
theorem blkHeader (std : Std) (pos : PosWord) (id : IdOperands) (p : Bytes) : Statement (.blkHeader std pos id p) :=
  ⟨std, pos, _, rfl, block_form (by decide) id p⟩
theorem blkSubcode (std : Std) (pos : PosWord) (id : IdOperands) (p : Bytes) : Statement (.blkSubcode std pos id p) :=
  ⟨std, pos, _, rfl, block_form (by decide) id p⟩
theorem blkVaux (std : Std) (pos : PosWord) (id : IdOperands) (p : Bytes) : Statement (.blkVaux std pos id p) :=
  ⟨std, pos, _, rfl, block_form (by decide) id p⟩
theorem blkAudio (std : Std) (pos : PosWord) (id : IdOperands) (p : Bytes) : Statement (.blkAudio std pos id p) :=
  ⟨std, pos, _, rfl, block_form (by decide) id p⟩
theorem blkVideo (std : Std) (pos : PosWord) (id : IdOperands) (p : Bytes) : Statement (.blkVideo std pos id p) :=
  ⟨std, pos, _, rfl, block_form (by decide) id p⟩
theorem blkUnknown5 (std : Std) (pos : PosWord) (id : IdOperands) (p : Bytes) : Statement (.blkUnknown5 std pos id p) :=
  ⟨std, pos, _, rfl, block_form (by decide) id p⟩
theorem blkUnknown67 (b : BitVec 1) (std : Std) (pos : PosWord) (id : IdOperands) (p : Bytes) :
    Statement (.blkUnknown67 b std pos id p) :=
  ⟨std, pos, _, rfl, block_form (by have := b.isLt; omega) id p⟩
theorem packTc (std : Std) (slot : PackSlot) (a b c d : Byte) : Statement (.packTc std slot a b c d) :=
  ⟨std, slot, _, rfl, rfl⟩
theorem packRecdate (std : Std) (slot : PackSlot) (a b c d : Byte) : Statement (.packRecdate std slot a b c d) :=
  ⟨std, slot, _, rfl, rfl⟩
theorem packRectime (std : Std) (slot : PackSlot) (a b c d : Byte) : Statement (.packRectime std slot a b c d) :=
  ⟨std, slot, _, rfl, rfl⟩
theorem packNoinfo (std : Std) (slot : PackSlot) (a b c d : Byte) : Statement (.packNoinfo std slot a b c d) :=
  ⟨std, slot, _, rfl, rfl⟩
theorem packRaw (std : Std) (slot : PackSlot) (p a b c d : Byte) : Statement (.packRaw std slot p a b c d) :=
  ⟨std, slot, _, rfl, rfl⟩

end Sys2Proof.Laws.EncodedForm
end

