-- ==== Sys2Proof/Tests/Slice0.lean ====
section
/-! SUPPORT. Tests of the model against the spec: ill-formed terms, words written out from the encodings, vectors of
95_test_vectors.md (each test names its vector), and for every statement with hypotheses a concrete state and operands
that meet them. -/

namespace Sys2Proof.Tests

open Sys2Proof.Machine

/-! ## Helpers -/

/-- A block that starts with these bytes and goes on with zeros. -/
def zeroFilled (head : Bytes) : Bytes := head ++ List.replicate (80 - head.length) 0

/-- What an instruction answers right after reset. -/
def answerOf (i : Instr) : Option Response :=
  match exec i State.reset with
  | .next t => t.response
  | _ => none

/-- What a pack row puts out right after reset. -/
def packOutOf (i : Instr) : Option PackResult :=
  match exec i State.reset with
  | .next t => t.packOut
  | _ => none

/-- The violations of a `Decoded` answer, by name. -/
def violationsOf (r : Option Response) : List (String × Nat × Nat) :=
  match r.bind (·.decode) with
  | some (.decoded _ vs) => vs.map fun v => (pathName v.field, v.raw.toNat, v.offset.toNat)
  | _ => []

/-- The record of a `Decoded` answer. -/
def recordOf (r : Option Response) : Option DecodedBlock :=
  match r.bind (·.decode) with
  | some (.decoded b _) => some b
  | _ => none

/-- Section data: these bytes, then zeros up to 77. -/
def section77 (head : Bytes) : Bytes := head ++ List.replicate (77 - head.length) 0

/-- ID operands with the reserved bits as writers write them (R54). -/
def idOps (seq dseq : BitVec 4) (dbn : BitVec 8) : IdOperands := ⟨1, seq, dseq, 0, 7, dbn⟩

/-- The record of vector D1 with another tail and another `dbn`. -/
def headerRecord (sct dbn apt : Nat) (tail : Bytes) : DecodedBlock :=
  ⟨⟨sct, 1, 0xF, 0, 0, 7, dbn⟩, .header ⟨0, 0, 0x3F, 0x1F, apt, 0, 0xF, 0, 0, 0xF, 0, 0, 0xF, 0, tail⟩⟩

/-- Buffer 0 holds `A5 3C`; a write of 15 to bits 6 to 9 of it is outstanding; one record is logged. -/
def busyState : State :=
  { State.reset with
    request := some ⟨encode (.fwriteU 4 6 15 [0xA5, 0x3C]), some 0⟩
    response := some (okDecoded zeroRecord [])
    bufs := [(0, [0xA5, 0x3C]), (2, [0x01])]
    log := [okDecoded zeroRecord []] }

/-- Nothing outstanding; the next line is `FREAD.U 0, 4, 8`. -/
def idleState : State := { busyState with request := none, program := [.freadU 0 4 8] }

/-! ## Well-formedness: an ill-formed term for each check -/

theorem test_wf_payload_short : (Instr.blkHeader .ntsc 0 (idOps 0 0 0) (List.replicate 76 0)).wellFormed = false := by
  decide
theorem test_wf_payload_long : (Instr.blkSubcode .pal 0 (idOps 0 0 0) (List.replicate 78 0)).wellFormed = false := by
  decide
theorem test_wf_payload_each (p : Bytes) (h : p = []) (std : Std) (id : IdOperands) :
    (Instr.blkVaux std 0 id p).wellFormed = false ∧ (Instr.blkAudio std 0 id p).wellFormed = false ∧
    (Instr.blkVideo std 0 id p).wellFormed = false ∧ (Instr.blkUnknown5 std 0 id p).wellFormed = false ∧
    (Instr.blkUnknown67 1 std 0 id p).wellFormed = false := by
  subst h; exact ⟨rfl, rfl, rfl, rfl, rfl⟩
theorem test_wf_raw_pc0 :
    [(0x13 : Byte), 0x62, 0x63, 0xFF].map (fun b => (Instr.packRaw .ntsc .aaux b 0 0 0 0).wellFormed) =
      [false, false, false, false] := by decide
theorem test_wf_good : (Instr.blkVideo .ntsc 0 (idOps 6 0 5) (List.replicate 77 0)).wellFormed = true ∧
    (Instr.packRaw .ntsc .aaux 0x50 0xD0 0xE0 0xC0 0).wellFormed = true := by decide
/-- R150: an unmapped `sct`, and a body that disagrees with `sct`. -/
theorem test_record_mismatch : recordMatches params (headerRecord 5 0 0 []) = false ∧
    recordMatches params (headerRecord 1 0 0 []) = false := by decide
/-- R152: `dbn = 256` and a 71-byte tail do not fit; `dbn = 255` and 72 bytes do. -/
theorem test_field_fits : fieldFits params (headerRecord 0 256 0 []) (.int (.id .dbn)) = false ∧
    fieldFits params (headerRecord 0 0 0 (List.replicate 71 0)) (.bytes .headerTail) = false ∧
    fieldFits params (headerRecord 0 255 0 []) (.int (.id .dbn)) = true ∧
    fieldFits params (headerRecord 0 0 0 (List.replicate 72 0)) (.bytes .headerTail) = true := by decide

/-! ## Decoding: a word of each row, written out from R50 to R57 -/

theorem test_decode_freadU : decode (.request { zeroRequest with op := 0b0000, width := 8, offset := 4, data := [0xA5] }) =
    .ok (.freadU 8 4 [0xA5]) := by decide
theorem test_decode_freadS : decode (.request { zeroRequest with op := 0b0001, width := 32, offset := 9, value := 7 }) =
    .ok (.freadS 32 9 []) := by decide
theorem test_decode_fwriteU :
    decode (.request { zeroRequest with op := 0b0010, width := 63, offset := 4, value := 15, data := [0xA5], pos := 3 }) =
    .ok (.fwriteU 63 4 15 [0xA5]) := by decide
theorem test_decode_fwriteS :
    decode (.request { zeroRequest with op := 0b0011, width := 4, offset := 2, value := -3, data := [0], std := 1 }) =
    .ok (.fwriteS 4 2 (-3) [0]) := by decide
theorem test_decode_decode :
    decode (.request { zeroRequest with op := 0b0100, std := 1, pos := 160, data := [0xA0], width := 5 }) =
    .ok (.decode .pal 160 [0xA0]) := by decide
theorem test_decode_encode : decode (.request { zeroRequest with op := 0b0101, std := 0 }) =
    .ok (.encode .ntsc zeroRecord) := by decide
theorem test_decode_reserved67 : decodeTableWord 8 0b0110 = some (.reservedOp67 0) ∧
    decodeTableWord 8 0b0111 = some (.reservedOp67 1) := by decide
theorem test_decode_reserved8F : decodeTableWord 8 0b1000 = some (.reservedOp8F 0) ∧
    decodeTableWord 8 0b1111 = some (.reservedOp8F 7) := by decide
/-- ID0 = `sct` 000, `res0` 1, `seq` 1111; ID1 = `dseq` 1011, `fsc` 0, `res1` 111; ID2 = `dbn` 1 (vectors D2, D6). -/
theorem test_decode_header : decodeTableWord 24 0b000_1_1111_1011_0_111_00000001 =
    some (.blkHeader .ntsc 0 (idOps 0xF 0xB 1) (List.replicate 77 0)) := by decide
theorem test_decode_subcode : decodeTableWord 24 0b001_1_1111_0000_0_111_00000000 =
    some (.blkSubcode .ntsc 0 (idOps 0xF 0 0) (List.replicate 77 0)) := by decide
theorem test_decode_vaux : decodeTableWord 24 0b010_1_0110_0000_0_111_00000010 =
    some (.blkVaux .ntsc 0 (idOps 6 0 2) (List.replicate 77 0)) := by decide
theorem test_decode_audio : decodeTableWord 24 0b011_1_0110_0000_1_010_00001001 =
    some (.blkAudio .ntsc 0 ⟨1, 6, 0, 1, 2, 9⟩ (List.replicate 77 0)) := by decide
theorem test_decode_video : decodeTableWord 24 0b100_0_0110_1100_0_111_10000111 =
    some (.blkVideo .ntsc 0 ⟨0, 6, 12, 0, 7, 0x87⟩ (List.replicate 77 0)) := by decide
theorem test_decode_unknown5 : decodeTableWord 24 0b101_0_0000_0000_0_000_00000000 =
    some (.blkUnknown5 .ntsc 0 ⟨0, 0, 0, 0, 0, 0⟩ (List.replicate 77 0)) := by decide
theorem test_decode_unknown67 : decodeTableWord 24 0b110_1_0000_0000_0_000_00000001 =
    some (.blkUnknown67 0 .ntsc 0 ⟨1, 0, 0, 0, 0, 1⟩ (List.replicate 77 0)) ∧
    decodeTableWord 24 0b111_0_0000_0000_0_000_00000001 =
    some (.blkUnknown67 1 .ntsc 0 ⟨0, 0, 0, 0, 0, 1⟩ (List.replicate 77 0)) := by decide
theorem test_decode_packs : decodeTableWord 40 0x1300100000 = some (.packTc .ntsc .aaux 0x00 0x10 0x00 0x00) ∧
    decodeTableWord 40 0x62FFC50898 = some (.packRecdate .ntsc .aaux 0xFF 0xC5 0x08 0x98) ∧
    decodeTableWord 40 0x63C19080C0 = some (.packRectime .ntsc .aaux 0xC1 0x90 0x80 0xC0) ∧
    decodeTableWord 40 0xFFFFFFFFFF = some (.packNoinfo .ntsc .aaux 0xFF 0xFF 0xFF 0xFF) ∧
    decodeTableWord 40 0x50D0E0C000 = some (.packRaw .ntsc .aaux 0x50 0xD0 0xE0 0xC0 0x00) := by decide
theorem test_decode_rejects : decode (.block .ntsc 0 [0x1F]) = .error (.blockLength 1) ∧
    decode (.pack .ntsc .aaux [0x13]) = .error (.packLength 1) := by decide

/-! ## The codec -/

/-- C7. -/
theorem test_freadU_straddles : answerOf (.freadU 8 4 [0xA5, 0x3C]) = some (okResult 0x53) := by decide
/-- C25, C27: 32 bits across five bytes; 41 bits of 40. -/
theorem test_freadU_wide : answerOf (.freadU 32 4 [0x12, 0x34, 0x56, 0x78, 0x9A]) = some (okResult 0x23456789) ∧
    answerOf (.freadU 32 9 [0x12, 0x34, 0x56, 0x78, 0x9A]) = some (raised .boundsError (.bounds 9 32 5)) := by decide
/-- C15, C20. -/
theorem test_freadS_negative : answerOf (.freadS 4 0 [0xA5, 0x3C]) = some (okResult 0xFFFFFFFA) ∧
    answerOf (.freadS 5 2 [0xA5, 0x3C]) = some (okResult 0xFFFFFFF2) := by decide
/-- C24: the most negative value. -/
theorem test_freadS_min : answerOf (.freadS 32 0 [0x80, 0, 0, 0]) = some (okResult 0x80000000) := by decide
/-- W1, W26. -/
theorem test_fwriteU_replaces : answerOf (.fwriteU 4 6 15 [0xA5, 0x3C]) = some (okData [0xA7, 0xFC]) ∧
    answerOf (.fwriteU 32 4 0x23456789 [0, 0, 0, 0, 0]) = some (okData [0x02, 0x34, 0x56, 0x78, 0x90]) := by decide
/-- W2, W3, W5: `2^4` and -1 are out of range; bounds come before range. -/
theorem test_fwriteU_errors :
    [answerOf (.fwriteU 4 6 16 [0xA5, 0x3C]), answerOf (.fwriteU 4 6 (-1) [0xA5, 0x3C]),
      answerOf (.fwriteU 4 14 99 [0xA5, 0x3C])] =
    [some (raised .rangeError (.range 16 4)), some (raised .rangeError (.range (-1) 4)),
      some (raised .boundsError (.bounds 14 4 2))] := by decide
/-- W14, W15, W23. -/
theorem test_fwriteS_negative :
    [answerOf (.fwriteS 4 2 (-3) [0]), answerOf (.fwriteS 4 0 (-8) [0]),
      answerOf (.fwriteS 32 0 (-2147483648) [0, 0, 0, 0])] =
    [some (okData [0x34]), some (okData [0x80]), some (okData [0x80, 0, 0, 0])] := by decide
/-- W17, W19: 8 does not fit four signed bits, 1 does not fit one. -/
theorem test_fwriteS_range : answerOf (.fwriteS 4 0 8 [0]) = some (raised .rangeError (.range 8 4)) ∧
    answerOf (.fwriteS 1 0 1 [0]) = some (raised .rangeError (.range 1 1)) := by decide
/-- P4 request 5: `REQ op=0x7`. -/
theorem test_reserved_op : (decode (.request { zeroRequest with op := 0x7 })).toOption.bind answerOf =
    some (refusal .illegalOp) := by decide
theorem test_reserved_op8F : answerOf (.reservedOp8F 7) = some ⟨8, none, none, none, none⟩ := by decide
/-- P1 request 2: the harness sets `bufs[B] = A7 FC` and no other buffer. -/
theorem test_harness_write : (match step busyState with | .next t => t.bufs | _ => []) =
    [(0, [0xA7, 0xFC]), (2, [0x01])] := by decide

/-! ## DECODE and its rows -/

/-- D18. -/
theorem test_decode_violations : violationsOf (answerOf (.decode .ntsc 0 (zeroFilled [0x96, 0xF7, 0xFF, 0x0F]))) =
    [("id.dseq", 0xF, 8), ("id.dbn", 0xFF, 16)] := by decide
/-- D15, D16: 81 bytes; 79 bytes with an unmapped `sct`. -/
theorem test_decode_length : answerOf (.decode .ntsc 0 (List.replicate 81 0)) = some (refusal .lengthError) ∧
    answerOf (.decode .ntsc 7 (0xA0 :: List.replicate 78 0)) = some (unreadable 7 .boundsError none) := by decide
/-- D7: the Header fields. -/
theorem test_blkHeader_fields :
    recordOf (answerOf (.blkHeader .pal 0 (idOps 0xF 0 0) (section77 [0xBF, 0xF9, 0x79, 0xF9, 0x79]))) =
    some ⟨⟨0, 1, 0xF, 0, 0, 7, 0⟩,
      .header ⟨1, 0, 0x3F, 0x1F, 1, 0, 0xF, 1, 1, 0xF, 1, 0, 0xF, 1, List.replicate 72 0⟩⟩ := by decide
/-- D2, D3: `dseq` 11 under NTSC and PAL. -/
theorem test_blkHeader_dseq :
    violationsOf (answerOf (.blkHeader .ntsc 0 (idOps 0xF 11 0) (section77 []))) = [("id.dseq", 0xB, 8)] ∧
    violationsOf (answerOf (.blkHeader .pal 0 (idOps 0xF 11 0) (section77 []))) = [] := by decide
/-- SC2 and SC3 together: `syb` 12 in SSYB 2, frames 30 in SSYB 0. -/
theorem test_blkSubcode_violations :
    violationsOf (answerOf (.blkSubcode .ntsc 0 (idOps 0xF 0 0)
      (section77 [0x8F, 0xF0, 0xFF, 0x13, 0x30, 0x10, 0, 0, 0, 0, 0, 0, 0, 0, 0, 0, 0x8F, 0xFC]))) =
    [("subcode.ssyb[0].pack.tc.frames", 0x30, 58), ("subcode.ssyb[2].syb", 0xC, 164)] := by decide
/-- VX1, VX10: day 0 in pack 1, hours 24 in pack 1 of another block. -/
theorem test_blkVaux_violations :
    violationsOf (answerOf (.blkVaux .ntsc 80 (idOps 6 0 0)
      (section77 [0x63, 0xC1, 0x90, 0x80, 0xC0, 0x62, 0xFF, 0xC0, 0x01, 0x26]))) =
      [("vaux.pack[1].recdate.day", 0x00, 82)] ∧
    violationsOf (answerOf (.blkVaux .ntsc 80 (idOps 6 0 0)
      (section77 [0xFF, 0, 0, 0, 0, 0x63, 0xC1, 0x90, 0x80, 0x24]))) =
      [("vaux.pack[1].rectime.hours", 0x24, 98)] := by decide
/-- AV3, AV2. -/
theorem test_blkAudio_violations :
    violationsOf (answerOf (.blkAudio .pal 0 (idOps 6 0 0) (section77 [0x63, 0, 0, 0, 0x24]))) =
      [("audio.aaux.rectime.hours", 0x24, 58)] ∧
    violationsOf (answerOf (.blkAudio .ntsc 0 (idOps 6 0 9) (section77 [0x50]))) = [("id.dbn", 9, 16)] := by decide
/-- AV9: STA and QNO. -/
theorem test_blkVideo_fields :
    recordOf (answerOf (.blkVideo .ntsc 0 (idOps 6 0 5) (section77 [0xF0]))) =
    some ⟨⟨4, 1, 6, 0, 0, 7, 5⟩, .video ⟨15, 0, List.replicate 76 0⟩⟩ := by decide
/-- AV5, AV6: `dbn` 135 and 134. -/
theorem test_blkVideo_dbn :
    violationsOf (answerOf (.blkVideo .ntsc 0 (idOps 6 0 0x87) (section77 [0x0F]))) = [("id.dbn", 0x87, 16)] ∧
    violationsOf (answerOf (.blkVideo .ntsc 0 (idOps 6 0 0x86) (section77 [0x0F]))) = [] := by decide
/-- D10, D17. -/
theorem test_blkUnknown5 : answerOf (.blkUnknown5 .ntsc 400 ⟨1, 6, 0, 0, 7, 5⟩ (section77 [0x0F])) =
    some (unreadable 400 .unknownBlockType (some 5)) := by decide
/-- D11, D12. -/
theorem test_blkUnknown67 : answerOf (.blkUnknown67 1 .pal 240 ⟨1, 15, 15, 1, 7, 255⟩ (List.replicate 77 0xFF)) =
    some (unreadable 240 .unknownBlockType (some 7)) := by decide

/-! ## Packs -/

/-- SC12: every maximum. SC10: every field absent, every flag 1. -/
theorem test_packTc_view : (packOutOf (.packTc .ntsc (.ssyb 0) 0x29 0x59 0x59 0x23)).map (·.view) =
      some (.tc ⟨.value 23, .value 59, .value 59, .value 29, 0, 0, 0, 0, 0, 0⟩) ∧
    (packOutOf (.packTc .ntsc (.ssyb 0) 0xFF 0xFF 0xFF 0xFF)).map (·.view) =
      some (.tc ⟨.absent, .absent, .absent, .absent, 1, 1, 1, 1, 1, 1⟩) := by decide
/-- SC6, SC7, SC8. -/
theorem test_packTc_violations :
    (packOutOf (.packTc .pal (.ssyb 0) 0x25 0x10 0 0)).map (·.violations) =
      some [malformed (.tc (.ssyb 0) .frames) 0x25 58] ∧
    (packOutOf (.packTc .ntsc (.ssyb 0) 0x0A 0x60 0 0)).map (·.violations) =
      some [malformed (.tc (.ssyb 0) .frames) 0x0A 58, malformed (.tc (.ssyb 0) .seconds) 0x60 65] := by decide
/-- VX2. -/
theorem test_packRecdate_view : (packOutOf (.packRecdate .ntsc (.vaux 1) 0xFF 0xC5 0x08 0x98)).map (·.view) =
    some (.recdate ⟨.value 98, .value 8, .value 5, 0, 0x3F, 1, 1⟩) := by decide
/-- VX3, VX6. -/
theorem test_packRecdate_violations :
    (packOutOf (.packRecdate .ntsc (.vaux 1) 0xFF 0xC5 0x13 0xF8)).map (·.violations) =
      some [malformed (.recdate (.vaux 1) .month) 0x13 91, malformed (.recdate (.vaux 1) .year) 0xF8 96] := by decide
/-- VX9. -/
theorem test_packRectime_view : packOutOf (.packRectime .ntsc (.vaux 1) 0xFF 0x90 0x80 0xC0) =
    some ⟨.vaux 1, ⟨0x63, 0xFF, 0x90, 0x80, 0xC0⟩, .rectime ⟨.value 0, .value 0, .value 10, .absent⟩, []⟩ := by decide
/-- VX10. -/
theorem test_packRectime_violations :
    (packOutOf (.packRectime .ntsc (.vaux 1) 0xC1 0x90 0x80 0x24)).map (·.violations) =
      some [malformed (.rectime (.vaux 1) .hours) 0x24 98] := by decide
theorem test_packNoinfo : packOutOf (.packNoinfo .ntsc (.ssyb 1) 0xFF 0xFF 0xFF 0xFF) =
    some ⟨.ssyb 1, ⟨0xFF, 0xFF, 0xFF, 0xFF, 0xFF⟩, .noinfo, []⟩ := by decide
/-- VX11. -/
theorem test_packRaw : packOutOf (.packRaw .ntsc (.vaux 1) 0x50 0xD0 0xE0 0xC0 0) =
    some ⟨.vaux 1, ⟨0x50, 0xD0, 0xE0, 0xC0, 0⟩, .raw 0x50 0xD0 0xE0 0xC0 0, []⟩ := by decide

/-! ## ENCODE -/

/-- E1. -/
theorem test_encode_header : answerOf (.encode .ntsc (headerRecord 0 0 0 (List.replicate 72 0xFF))) =
    some (okData ([0x1F, 0x07, 0x00, 0x3F, 0xF8, 0x78, 0x78, 0x78] ++ List.replicate 72 0xFF)) := by decide
/-- E6, E7, E8, E9. -/
theorem test_encode_errors :
    [answerOf (.encode .ntsc (headerRecord 0 256 8 (List.replicate 72 0xFF))),
      answerOf (.encode .ntsc (headerRecord 0 0 0 (List.replicate 71 0xFF))),
      answerOf (.encode .ntsc (headerRecord 1 0 0 (List.replicate 72 0xFF))),
      answerOf (.encode .ntsc (headerRecord 5 0 0 (List.replicate 72 0xFF)))] =
    [some (raised .rangeError (.field (.raw (.int (.id .dbn))) 256)),
      some (raised .rangeError (.field (.raw (.bytes .headerTail)) 71)),
      some (refusal .badRecord), some (refusal .badRecord)] := by decide

/-! ## The block under other parameters (R7, R8) -/

/-- The default parameters with a 64-bit result port and another layout: `sct` 5 is the one section type, an Audio block, and
every pack is a recording date. -/
def otherParams : Params :=
  { params with
    resultBits := 64
    layout := { defaultLayout with sctMap := fun n => if n = 5 then some .audio else none, packKind := fun _ => .recdate } }
/-- R62: the sign fills the 64-bit port. -/
theorem test_other_resultBits :
    requestAnswer otherParams ⟨1, 4, 0, 0, 0, 0, [0xF0], zeroRecord⟩ = okResult (-1 : BitVec 64) := by decide
/-- R97, R127 through the names `sctMap` and `packKind` alone: `sct` 5 decodes, its pack is checked as a recording date, and
`sct` 3 has no mapping. -/
theorem test_other_layout :
    (match (requestAnswer otherParams ⟨4, 0, 0, 0, 0, 0, zeroFilled [0xA0, 0, 0, 0x50, 0, 0x01, 0x13], zeroRecord⟩).decode with
      | some (.decoded b vs) => some (b.body.type, vs.map fun v => pathName v.field)
      | _ => none) = some (.audio, ["audio.aaux.recdate.month"]) ∧
    (requestAnswer otherParams ⟨4, 0, 0, 0, 0, 7, zeroFilled [0x60], zeroRecord⟩).decode =
      some (.unreadable 7 .unknownBlockType (some 3)) := by decide

/-! ## The step -/

/-- The very next step after reset runs the instruction of a table word. -/
theorem test_withFetchWord : step (State.reset.withFetchWord 24 0x200000) =
    exec (.blkSubcode .ntsc 0 ⟨0, 0, 0, 0, 0, 0⟩ (List.replicate 77 0)) (State.reset.withFetchWord 24 0x200000) := rfl
/-- P1 request 1, presented by its line. -/
theorem test_line_freadU : (match step idleState with | .next t => t.log.getLast? | _ => none) =
    some (okResult 0x53) := by decide
/-- P3 line 8: `ENCODE E, @1` with `id.dbn` replaced by 256. -/
theorem test_line_encode_edit :
    (match step { idleState with program := [.encode 5 ⟨1, [.int (.id .dbn) 256]⟩ .ntsc] } with
      | .next t => t.log.getLast?
      | _ => none) = some (raised .rangeError (.field (.raw (.int (.id .dbn))) 256)) := by decide

/-! ## Witnesses: the hypotheses of the statements can be met, each clause at a boundary of its range

FREAD.U, FREAD.S, FWRITE.U and FWRITE.S share their clauses' bounds. -/

/-- Admitted and in bounds: widths 1 and 32, the last bit of the buffer. -/
theorem witness_codec_inBounds : (1 ≤ (32 : WidthWord).toNat ∧ (32 : WidthWord).toNat ≤ 32 ∧ [(0 : Byte), 0, 0, 0].length ≤ 2 ^ 29 ∧
      (0 : OffsetWord).toNat + (32 : WidthWord).toNat ≤ 8 * [(0 : Byte), 0, 0, 0].length) ∧
    1 ≤ (1 : WidthWord).toNat ∧ (1 : WidthWord).toNat ≤ 32 ∧
      (31 : OffsetWord).toNat + (1 : WidthWord).toNat ≤ 8 * [(0 : Byte), 0, 0, 0].length := by decide
/-- Admitted and one bit past the end, and the empty buffer. -/
theorem witness_codec_outOfBounds :
    8 * [(0 : Byte), 0, 0, 0].length < (1 : OffsetWord).toNat + (32 : WidthWord).toNat ∧
    8 * ([] : Bytes).length < (0 : OffsetWord).toNat + (1 : WidthWord).toNat := by decide
/-- Widths 0 and 33. -/
theorem witness_codec_width : ((0 : WidthWord).toNat < 1 ∨ 32 < (0 : WidthWord).toNat) ∧
    ((33 : WidthWord).toNat < 1 ∨ 32 < (33 : WidthWord).toNat) := by decide
/-- A buffer one byte too long. -/
theorem witness_codec_tooLong : 1 ≤ (1 : WidthWord).toNat ∧ (1 : WidthWord).toNat ≤ 32 ∧
    2 ^ 29 < (List.replicate (2 ^ 29 + 1) (0 : Byte)).length := by
  refine ⟨by decide, by decide, ?_⟩
  rw [List.length_replicate]; exact Nat.lt_succ_self _
/-- FWRITE.U: the least and the greatest value in range at width 4, and the next ones outside. -/
theorem witness_fwriteU_range : (0 ≤ (0 : ValueWord).toInt ∧ (15 : ValueWord).toInt ≤ 2 ^ (4 : WidthWord).toNat - 1) ∧
    (16 : ValueWord).toInt > 2 ^ (4 : WidthWord).toNat - 1 ∧ (-1 : ValueWord).toInt < 0 := by decide
/-- FWRITE.S: likewise. -/
theorem witness_fwriteS_range : -(2 ^ ((4 : WidthWord).toNat - 1)) ≤ (-8 : ValueWord).toInt ∧
    (7 : ValueWord).toInt ≤ 2 ^ ((4 : WidthWord).toNat - 1) - 1 ∧
    (-9 : ValueWord).toInt < -(2 ^ ((4 : WidthWord).toNat - 1)) ∧
    2 ^ ((4 : WidthWord).toNat - 1) - 1 < (8 : ValueWord).toInt := by decide
/-- FieldBitsAreBitsMostSignificantFirst: the first and the last bit of a field. MixedWidthViewOfBytes: the first and the
last entry of its table, on the two-byte buffer of C1 to C19. -/
theorem witness_views : (0 < 4 ∧ 3 < 4) ∧ 0 + 1 < [(0xA5 : Byte), 0x3C].length ∧
    [(0xA5 : Byte), 0x3C].length ≤ 2 ^ 29 ∧
    (0, 16, 0xA5 * 256 + 0x3C) ∈ [(8 * 0, 16, 0xA5 * 256 + 0x3C), (8 * 0, 8, 0xA5)] ∧
    (7, 1, 1) ∈ (List.range 8).map (fun j => (8 * 0 + j, 1, 0xA5 / 2 ^ (7 - j) % 2)) := by decide

/-- CodecRoundTripLaws: bits 6 to 9 and bits 2 to 5 of a two-byte buffer touch and do not overlap; the ends of the ranges at
width 4. -/
theorem witness_codec_laws : CodecField 4 6 [0xA5, 0x3C] ∧ CodecField 4 2 [0xA5, 0x3C] ∧ CodecField 4 12 [0xA5, 0x3C] ∧
    Disjoint2 (6 : OffsetWord).toNat (4 : WidthWord).toNat (2 : OffsetWord).toNat (4 : WidthWord).toNat ∧
    InRange false 4 0 ∧ InRange false 4 15 ∧ InRange true 4 (-8) ∧ InRange true 4 7 :=
  ⟨⟨by decide, by decide, by decide, by decide⟩, ⟨by decide, by decide, by decide, by decide⟩,
   ⟨by decide, by decide, by decide, by decide⟩, .inr (by decide), ⟨by decide, by decide⟩, ⟨by decide, by decide⟩,
   ⟨by decide, by decide⟩, ⟨by decide, by decide⟩⟩
/-- W1 and C7 answer, as the laws say. -/
theorem witness_write_read : Answers (writeInstr false 4 6 15 [0xA5, 0x3C]) (okData [0xA7, 0xFC]) ∧
    Answers (readInstr false 8 4 [0xA5, 0x3C]) (okResult 0x53) :=
  ⟨(answers_iff (i := .fwriteU 4 6 15 [0xA5, 0x3C]) (fun _ => rfl)).2 (by decide),
   (answers_iff (i := .freadU 8 4 [0xA5, 0x3C]) (fun _ => rfl)).2 (by decide)⟩
/-- CodecWriteStoresOnlyTheFieldsBytes: the destination holds the data, and the write answers. Bits 6 to 9 lie in bytes
0 and 1. -/
theorem witness_codec_store : busyState.dest = some 0 ∧ busyState.bufs.get? 0 = some [0xA5, 0x3C] ∧
    ∃ t, exec (writeInstr false 4 6 15 [0xA5, 0x3C]) busyState = .next t ∧ t.response = some (okData [0xA7, 0xFC]) ∧
      ((6 : OffsetWord).toNat + (4 : WidthWord).toNat - 1) / 8 < 2 ∧ (2 : Name) ≠ 0 :=
  ⟨rfl, rfl, _, rfl, by decide, by decide, by decide⟩
/-- Where a write's field starts after byte 0: bits 12 to 15 leave byte 0. -/
theorem witness_codec_store_before : 0 < (12 : OffsetWord).toNat / 8 := by decide

/-- ReservedOpsAreRefused: the first and the last code of both rows. -/
theorem witness_reserved : 6 ≤ (6 : OpWord).toNat ∧ 6 ≤ (7 : OpWord).toNat ∧ 6 ≤ (8 : OpWord).toNat ∧
    6 ≤ (15 : OpWord).toNat := by decide

/-- DecodeAnswersByLengthThenSectionType: each clause at its boundary. -/
theorem witness_decode_clauses : 80 < (List.replicate 81 (0 : Byte)).length ∧ (List.replicate 79 (0 : Byte)).length < 80 ∧
    (zeroFilled [0xA0]).length = 80 ∧ 5 ≤ fieldBits (zeroFilled [0xA0]) 0 3 ∧
    (zeroFilled [0x80]).length = 80 ∧ fieldBits (zeroFilled [0x80]) 0 3 ≤ 4 ∧ fieldBits (zeroFilled []) 0 3 ≤ 4 := by
  decide
/-- The block rows: section data of 77 bytes, and one byte fewer and more (BlkRowsCheckTheLengthFirst). -/
theorem witness_blk_rows : (List.replicate 77 (0 : Byte)).length = 77 ∧ (List.replicate 76 (0 : Byte)).length < 77 ∧
    77 < (List.replicate 78 (0 : Byte)).length ∧
    Instr.blkVideo .ntsc 0 (idOps 0 0 0) [] ∈ [Instr.blkHeader .ntsc 0 (idOps 0 0 0) [],
      .blkSubcode .ntsc 0 (idOps 0 0 0) [], .blkVaux .ntsc 0 (idOps 0 0 0) [], .blkAudio .ntsc 0 (idOps 0 0 0) [],
      .blkVideo .ntsc 0 (idOps 0 0 0) [], .blkUnknown5 .ntsc 0 (idOps 0 0 0) [],
      .blkUnknown67 0 .ntsc 0 (idOps 0 0 0) []] := by decide
/-- The section rows and their DECODE (BlkHeaderDecodesHeader and the like, BlkUnknownIsUnreadable). -/
theorem witness_blk_decode : (List.replicate 77 (0 : Byte)).length = 77 ∧
    Instr.decode .ntsc 0 (idBytes 5 (idOps 0 0 0) ++ List.replicate 77 0) ∈
      [Instr.blkUnknown5 .ntsc 0 (idOps 0 0 0) (List.replicate 77 0),
        .decode .ntsc 0 (idBytes 0b101 (idOps 0 0 0) ++ List.replicate 77 0)] := by decide
/-- DecodeReadsFieldsAsFreadU: the first and the last integer field of a Header block, and its tail.
EveryBitIsInExactlyOneField: the last bit. -/
theorem witness_order : RawField.int (.id .sct) ∈ params.layout.order .header ∧
    RawField.int (.header .ap3) ∈ params.layout.order .header ∧
    RawField.bytes .headerTail ∈ params.layout.order .header ∧ 639 < 640 ∧
    firstBit (.int (.id .sct)) = 0 ∧ firstBit (.bytes .headerTail) = 64 := by decide
/-- A block that decodes to a Header and one that decodes to a Video record, with a violation each (the statements over a
`Decoded` answer; DistinctBlocksDecodeToDistinctRecords with the block twice). -/
theorem witness_decoded (pos : PosWord) :
    (∃ h vs, Answers (.decode .ntsc pos (zeroFilled [0, 0xF0])) (okDecoded ⟨⟨0, 0, 0, 15, 0, 0, 0⟩, .header h⟩ vs) ∧
      vs.length = 1) ∧
    ∃ v vs, Answers (.decode .pal pos (zeroFilled [0x80, 0, 0x87])) (okDecoded ⟨⟨4, 0, 0, 0, 0, 0, 135⟩, .video v⟩ vs) ∧
      vs.length = 1 := by
  refine ⟨⟨decodeHeader params (zeroFilled [0, 0xF0]),
      recordChecks params .ntsc (decodeRecord params .header (zeroFilled [0, 0xF0])), ?_, by decide⟩,
    ⟨decodeVideo params (zeroFilled [0x80, 0, 0x87]),
      recordChecks params .pal (decodeRecord params .video (zeroFilled [0x80, 0, 0x87])), ?_, by decide⟩⟩
  · exact answers_decode (t := .header) (by decide) (by decide)
  · exact answers_decode (t := .video) (by decide) (by decide)
/-- UncheckedBitsFlagNothing: two Audio blocks that differ in reserved bits, `seq`, `fsc`, the samples and the flags and
binary groups of their time code pack, and agree on the checked bits; and a Subcode block, for its `syb` and its packs. -/
theorem witness_unchecked (pos : PosWord) :
    let blk := zeroFilled [0x60, 0xF0, 0, 0x13, 0x29, 0x59, 0x60]
    let blk' := zeroFilled [0x7F, 0xFF, 0, 0x13, 0xE9, 0xD9, 0xE0, 0xC0, 0xAA]
    (∃ b vs, Answers (.decode .ntsc pos blk) (okDecoded b vs) ∧ b.body.type = .audio ∧ vs.length = 2) ∧
    (∃ b vs, Answers (.decode .ntsc pos blk') (okDecoded b vs)) ∧
    fieldBits blk 0 3 = fieldBits blk' 0 3 ∧ fieldBits blk 8 4 = fieldBits blk' 8 4 ∧
    fieldBits blk 16 8 = fieldBits blk' 16 8 ∧
    (∀ slot ∈ slotsOf .audio,
      fieldBits blk (8 * slotByte slot) 8 = fieldBits blk' (8 * slotByte slot) 8 ∧
      ∀ loc ∈ checkedDigits (fieldBits blk (8 * slotByte slot) 8) (slotByte slot),
        fieldBits blk loc.off loc.width = fieldBits blk' loc.off loc.width) ∧
    (∃ b vs, Answers (.decode .ntsc pos (zeroFilled [0x20])) (okDecoded b vs) ∧ b.body.type = .subcode) :=
  ⟨⟨_, _, answers_decode (t := .audio) (by decide) (by decide), rfl, by decide⟩,
   ⟨_, _, answers_decode (t := .audio) (by decide) (by decide)⟩, by decide, by decide, by decide, by decide,
   _, _, answers_decode (t := .subcode) (by decide) (by decide), rfl⟩
/-- DecodeAnswersOneVerdict. -/
theorem witness_decode_admitted : (zeroFilled []).length ≤ 80 ∧ ([] : Bytes).length ≤ 80 := by decide
/-- BcdFieldsAreTypedByTheirDigits: the widths 1 and 4 of the tens digit, the greatest raw value. -/
theorem witness_bcd : (1 ≤ 1 ∧ 1 ≤ 4 ∧ 31 < 2 ^ (1 + 4)) ∧ 1 ≤ 4 ∧ 4 ≤ 4 ∧ 255 < 2 ^ (4 + 4) := by decide

/-- EncodeAnswersEveryCase (a record that fits), RoundTripFromRecords, EncodeBoundaryValues. -/
theorem witness_record_fits : recordFits params zeroRecord = true ∧
    [BlockType.header, .subcode, .vaux, .audio, .video][zeroRecord.id.sct]? = some zeroRecord.body.type ∧
    (∀ f ∈ params.layout.order zeroRecord.body.type, fieldFits params zeroRecord f = true) ∧
    RawField.int (.id .res0) ∈ params.layout.order zeroRecord.body.type ∧
    RawField.int (.header .ap3) ∈ params.layout.order zeroRecord.body.type ∧ IntField.id .res0 ≠ .id .sct := by decide
/-- EncodeAnswersEveryCase (a field that does not fit): `dbn` 256, after six fields that fit; a tail of 71 bytes, the last field. -/
theorem witness_encode_names :
    (∃ pre post, [BlockType.header, .subcode, .vaux, .audio, .video][(headerRecord 0 256 8 []).id.sct]? = some .header ∧
      params.layout.order .header = pre ++ .int (.id .dbn) :: post ∧
      (∀ g ∈ pre, fieldFits params (headerRecord 0 256 8 []) g = true) ∧
      fieldFits params (headerRecord 0 256 8 []) (.int (.id .dbn)) = false ∧
      namedValue (headerRecord 0 256 8 []) (.int (.id .dbn)) = some 256) ∧
    ∃ pre, params.layout.order .header = pre ++ [.bytes .headerTail] ∧
      (∀ g ∈ pre, fieldFits params (headerRecord 0 0 0 (List.replicate 71 0)) g = true) ∧
      fieldFits params (headerRecord 0 0 0 (List.replicate 71 0)) (.bytes .headerTail) = false ∧
      namedValue (headerRecord 0 0 0 (List.replicate 71 0)) (.bytes .headerTail) = some 71 :=
  ⟨⟨(params.layout.order .header).take 6, (params.layout.order .header).drop 7, by decide, by decide, by decide, by decide,
    by decide⟩, ⟨(params.layout.order .header).take 21, by decide, by decide, by decide, by decide⟩⟩
/-- EncodeAnswersEveryCase (a refusal): the first unmapped `sct`, and a Header body under `sct` 1. -/
theorem witness_bad_records : 4 < (headerRecord 5 0 0 []).id.sct ∧
    [BlockType.header, .subcode, .vaux, .audio, .video][(headerRecord 1 0 0 []).id.sct]? ≠
      some (headerRecord 1 0 0 []).body.type := by decide
/-- EncodeIsAllOrNothing: a refused ENCODE. -/
theorem witness_encode_refused : ∃ t, exec (.encode .ntsc (headerRecord 5 0 0 [])) busyState = .next t ∧
    t.response = some (refusal .badRecord) ∧ (refusal .badRecord : Response).status ≠ 0 := ⟨_, rfl, by decide, by decide⟩
/-- RoundTripFromBytes: `sct` 0 and 4. -/
theorem witness_round_trip : (zeroFilled []).length = 80 ∧ fieldBits (zeroFilled []) 0 3 ≤ 4 ∧
    (zeroFilled [0x80]).length = 80 ∧ fieldBits (zeroFilled [0x80]) 0 3 ≤ 4 := by decide

/-- OpSelectsOperationAndItsOperands: a request of each op. -/
theorem witness_ops : (List.range 16).map (fun n => ({ zeroRequest with op := BitVec.ofNat 4 n }).op.toNat) =
    List.range 16 := by decide
/-- StatusCodesOfResponses, ResponsePortShowsTheResponse: a DECODE that answers `Decoded`, one
that answers `Unreadable`, and the write of `busyState` append their response. -/
theorem witness_answers :
    (∃ t, exec (.decode .ntsc 0 (zeroFilled [])) busyState = .next t ∧
      ∃ b vs, t.log = busyState.log ++ [okDecoded b vs] ∧ (okDecoded b vs : Response).decode = some (.decoded b vs)) ∧
    (∃ t, exec (.decode .ntsc 3 []) busyState = .next t ∧
      t.log = busyState.log ++ [unreadable 3 .boundsError none] ∧
      (unreadable 3 .boundsError none : Response).decode = some (.unreadable 3 .boundsError none)) ∧
    (∃ t, exec (.fwriteU 4 6 15 [0xA5, 0x3C]) busyState = .next t ∧ t.log = busyState.log ++ [okData [0xA7, 0xFC]] ∧
      busyState.dest = some 0 ∧ (okData [0xA7, 0xFC] : Response).data = some [0xA7, 0xFC]) ∧
    ∃ t, exec (.reservedOp67 1) busyState = .next t ∧ t.log = busyState.log ++ [refusal .illegalOp] ∧
      isRefusal (refusal .illegalOp : Response) = true ∧ (refusal .illegalOp : Response).data = none := by
  refine ⟨⟨_, rfl, decodeRecord params .header (zeroFilled []),
      recordChecks params .ntsc (decodeRecord params .header (zeroFilled [])), ?_, rfl⟩,
    ⟨_, rfl, by decide, rfl⟩, ⟨_, rfl, by decide, rfl, rfl⟩, _, rfl, rfl, by decide, rfl⟩
  show busyState.log ++ [decodeBlock params .ntsc 0 (zeroFilled [])] = _
  rw [decodeBlock_known (t := .header) (by decide) (by decide)]; rfl
/-- NextRequestIsServedAsAfterReset: after a refusal, a pack and a request are presented. -/
theorem witness_next_request : (∃ t, exec (.reservedOp67 1) busyState = .next t) ∧
    decode (.pack .ntsc .aaux [0xFF, 1, 2, 3, 4]) = .ok (.packNoinfo .ntsc .aaux 1 2 3 4) ∧
    decode (.request zeroRequest) = .ok (.freadU 0 0 []) := ⟨⟨_, rfl⟩, by decide, by decide⟩
/-- EveryInstructionHasOneAnswer, InstructionFrame: a row of each kind. -/
theorem witness_row_kinds : isPackRow (.freadU 8 4 [0xA5, 0x3C]) = false ∧ isPackRow (.packNoinfo .ntsc .aaux 1 2 3 4) = true ∧
    ∃ t, exec (.packNoinfo .ntsc .aaux 1 2 3 4) busyState = .next t := ⟨rfl, rfl, _, rfl⟩
/-- InstructionFrame: a write, a buffer that is not its destination; a read, which stores to none. -/
theorem witness_frame : (∃ t, exec (.fwriteU 4 6 15 [0xA5, 0x3C]) busyState = .next t) ∧ busyState.dest ≠ some 2 ∧
    (∃ t, exec (.freadU 8 4 [0xA5, 0x3C]) busyState = .next t) ∧
    (∀ w o v d, Instr.freadU 8 4 [0xA5, 0x3C] ≠ .fwriteU w o v d) := by
  refine ⟨⟨_, rfl⟩, by decide, ⟨_, rfl⟩, ?_⟩
  intro w o v d h; cases h
/-- StepRunsTheOutstandingRequest, OneRequestAtATime. -/
theorem witness_step_outstanding :
    busyState.request = some ⟨encode (.fwriteU 4 6 15 [0xA5, 0x3C]), some 0⟩ ∧
    decode (encode (.fwriteU 4 6 15 [0xA5, 0x3C])) = .ok (.fwriteU 4 6 15 [0xA5, 0x3C]) ∧
    idleState.request = none ∧ ∃ t, step busyState = .next t := ⟨rfl, by decide, rfl, _, rfl⟩
/-- StepPresentsTheNextLine, PseudoInstructionsExpand. -/
theorem witness_step_line : idleState.request = none ∧ idleState.program = .freadU 0 4 8 :: [] ∧
    ∃ o, lineRequest { idleState with program := [] } (expand (.freadU 0 4 8)) = some (.ok o) ∧
      decode o.item = .ok (.freadU 8 4 [0xA5, 0x3C]) := ⟨rfl, rfl, _, rfl, by decide⟩
/-- LinesPresentTheirRequests: the buffer exists, another does not, and neither needs a record in the log; the record exists
with no buffer of the ENCODE line, and another does not; an edit of each kind applies, and one of each kind does not. -/
theorem witness_lines : ({ idleState with log := [] } : State).bufs.get? 0 = some [0xA5, 0x3C] ∧ idleState.bufs.get? 9 = none ∧
    loggedRecord idleState.log 1 = some zeroRecord ∧ loggedRecord idleState.log 0 = none ∧
    loggedRecord idleState.log 2 = none ∧
    applyEdits [.int (.id .dbn) 255] zeroRecord = .ok { zeroRecord with id := ⟨0, 0, 0, 0, 0, 0, 255⟩ } ∧
    (recGetInt zeroRecord (.id .dbn)).isSome = true ∧ (recGetBytes zeroRecord .headerTail).isSome = true ∧
    applyEdits [.int (.video .sta) 1] zeroRecord = .error (.noSuchField (.int (.video .sta))) ∧
    recGetInt zeroRecord (.video .sta) = none ∧ recGetBytes zeroRecord .videoData = none := by
  decide
/-- Two edits of one field: the later one's value holds (the model's choice, notes/assumptions/21.md). -/
theorem test_edits_later_wins :
    applyEdits [.int (.id .dbn) 1, .bytes .headerTail [], .int (.id .dbn) 2] zeroRecord =
      .ok ⟨⟨0, 0, 0, 0, 0, 0, 2⟩, .header ⟨0, 0, 0, 0, 0, 0, 0, 0, 0, 0, 0, 0, 0, 0, []⟩⟩ := by decide
/-- HarnessTakesTheAnswer: a request outstanding with a destination, and a write that returns its buffer; a step from a
state whose mark is set; a LOAD line. -/
theorem witness_harness : (∃ q, busyState.request = some ⟨.request q, some 0⟩ ∧ 2 ≤ q.op.toNat ∧
      ∃ t, step busyState = .next t ∧ t.response = some (okData [0xA7, 0xFC])) ∧
    (∃ t, step { busyState with refused := true } = .next t) ∧
    { idleState with program := [.load 1 [7]] }.request = none := ⟨⟨_, rfl, by decide, _, rfl, by decide⟩, ⟨_, rfl⟩, rfl⟩
/-- DecodeDispatchesToItsBlockRow, DecodeReadsFieldsAsFreadU, DistinctBlocksDecodeToDistinctRecords. -/
theorem witness_block_length : (zeroFilled []).length = 80 ∧ (zeroFilled [0xE0]).length = 80 := by decide
/-- DecodeOfEncodeIsTheInstruction: an instruction of each format. -/
theorem witness_wellFormed : (Instr.freadU 0 0 []).wellFormed = true ∧
    (Instr.blkUnknown67 1 .pal 0 (idOps 0 0 0) (List.replicate 77 0)).wellFormed = true ∧
    (Instr.packRaw .ntsc .aaux 0x12 0 0 0 0).wellFormed = true := by decide
/-- EncodeOfDecodedItemIsTheItem: a block and a pack that decode. -/
theorem witness_items : decode (.block .ntsc 0 (zeroFilled [0xA0])) =
      .ok (.blkUnknown5 .ntsc 0 ⟨0, 0, 0, 0, 0, 0⟩ (List.replicate 77 0)) ∧
    decode (.pack .pal .aaux [0x12, 0, 0, 0, 0]) = .ok (.packRaw .pal .aaux 0x12 0 0 0 0) := by decide
/-- StepKeepsInvariant: a state with a request outstanding, buffers and a logged record meets the invariant, and steps. -/
theorem witness_invariant : StateInv busyState ∧ ∃ t, step busyState = .next t := by
  refine ⟨⟨by decide, ?_, by decide, .inr (by decide)⟩, _, rfl⟩
  intro r hr
  rw [List.mem_singleton.1 hr]
  exact responseSound_of_given (.decoded _ _ (by decide))

end Sys2Proof.Tests
end

/-! PROOFS. The statements of 10_state.md: the invariant, the frame of an instruction, where a codec write stores, and
the harness step. -/

namespace Sys2Proof.Machine

/-! ## The invariant -/

theorem stateInv_reset : StateInv State.reset where
  bufsCanonical := wf_reset
  logSound := by simp [State.reset]
  refusedSticky := rfl
  responseLast := .inl rfl

/-- Delivering a response that the block gives keeps the invariant. -/
theorem stateInv_deliver {s : State} {r : Response} (h : StateInv s) (hr : Given r) : StateInv (s.deliver r) where
  bufsCanonical := wf_collect h.bufsCanonical s.dest r
  logSound := by
    intro x hx
    rcases List.mem_append.1 hx with hx | hx
    · exact h.logSound x hx
    · rw [List.mem_singleton.1 hx]; exact responseSound_of_given hr
  refusedSticky := by simp [h.refusedSticky]
  responseLast := .inr (by simp)

/-- The invariant says nothing of the pack output and the request port. -/
theorem stateInv_deliverPack {s : State} (p : PackResult) (h : StateInv s) : StateInv (s.deliverPack p) :=
  ⟨h.bufsCanonical, h.logSound, h.refusedSticky, h.responseLast⟩

/-- Taking a line, and presenting its request, keeps the invariant. -/
theorem stateInv_program_request {s : State} (rest : List Line) (q : Option Outstanding) (h : StateInv s) :
    StateInv { s with program := rest, request := q } :=
  ⟨h.bufsCanonical, h.logSound, h.refusedSticky, h.responseLast⟩

/-- Setting a buffer keeps the invariant. -/
theorem stateInv_setBuffer {s : State} (b : Name) (d : Bytes) (h : StateInv s) :
    StateInv { s with bufs := s.bufs.set b d } :=
  ⟨wf_set h.bufsCanonical b d, h.logSound, h.refusedSticky, h.responseLast⟩

/-- What an instruction that answers a next state did: it delivered one response the block gives, or a pack result. -/
theorem exec_cases {i : Instr} {s t : State} (h : exec i s = .next t) :
    (∃ r, Given r ∧ t = s.deliver r) ∨ ∃ p, t = s.deliverPack p := by
  rcases exec_given i with ⟨r, hr, e⟩ | ⟨p, e⟩ <;> rw [e] at h <;> cases h
  · exact .inl ⟨r, hr, rfl⟩
  · exact .inr ⟨p, rfl⟩

theorem stateInv_exec {i : Instr} {s t : State} (h : StateInv s) (he : exec i s = .next t) : StateInv t := by
  rcases exec_cases he with ⟨r, hr, rfl⟩ | ⟨p, rfl⟩
  · exact stateInv_deliver h hr
  · exact stateInv_deliverPack p h

/-! ## Rows and the shape of their answers -/

/-- The rows that may return a buffer (R82, R150): the two codec writes and ENCODE. -/
def returnsBuffer : Instr → Bool
  | .fwriteU _ _ _ _ => true
  | .fwriteS _ _ _ _ => true
  | .encode _ _ => true
  | _ => false

theorem returnsBuffer_eq_false {i : Instr} (hu : ∀ w o v d, i ≠ .fwriteU w o v d) (hs : ∀ w o v d, i ≠ .fwriteS w o v d)
    (he : ∀ std r, i ≠ .encode std r) : returnsBuffer i = false := by
  cases i with
  | fwriteU w o v d => exact absurd rfl (hu w o v d)
  | fwriteS w o v d => exact absurd rfl (hs w o v d)
  | encode std r => exact absurd rfl (he std r)
  | _ => rfl

/-- A codec operation whose success returns no buffer returns none at all (R79, R80). -/
theorem data_codecResponse {α : Type} (w : WidthWord) (buf : Bytes) (op : Except ErrInfo α) {ok : α → Response}
    (h : ∀ v, (ok v).data = none) : (codecResponse params w buf op ok).data = none := by
  rcases codecResponse_cases w buf op ok with ⟨_, e⟩ | ⟨_, _, e⟩ | ⟨v, _, e⟩ <;> rw [e]
  · rfl
  · rfl
  · exact h v

/-- The length check returns no buffer of its own (R96). -/
theorem data_withLength (std : Std) (pos : PosWord) (blk : Bytes) {a : Response} (h : a.data = none) :
    (withLength params std pos blk a).data = none := by
  rcases withLength_cases std pos blk a with ⟨_, e⟩ | ⟨_, e⟩ | ⟨_, e⟩ <;> rw [e]
  · rfl
  · rfl
  · exact h

/-- A DECODE returns no buffer (R95). -/
theorem data_decodeBlock (std : Std) (pos : PosWord) (blk : Bytes) : (decodeBlock params std pos blk).data = none := by
  refine data_withLength std pos blk ?_
  split <;> rfl

/-- Which shape the answer of a row has: a pack row delivers a pack result, every other row a response, and the response
holds a buffer for the rows of `returnsBuffer` only. -/
theorem exec_row (i : Instr) :
    (isPackRow i = false ∧ ∃ r : Response, (returnsBuffer i = false → r.data = none) ∧
      ∀ s, exec i s = .next (s.deliver r)) ∨
    (isPackRow i = true ∧ ∃ p, ∀ s, exec i s = .next (s.deliverPack p)) := by
  cases i with
  | freadU => exact .inl ⟨rfl, _, fun _ => data_codecResponse _ _ _ fun _ => rfl, fun _ => rfl⟩
  | freadS => exact .inl ⟨rfl, _, fun _ => data_codecResponse _ _ _ fun _ => rfl, fun _ => rfl⟩
  | fwriteU => exact .inl ⟨rfl, _, nofun, fun _ => rfl⟩
  | fwriteS => exact .inl ⟨rfl, _, nofun, fun _ => rfl⟩
  | decode => exact .inl ⟨rfl, _, fun _ => data_decodeBlock .., fun _ => rfl⟩
  | encode => exact .inl ⟨rfl, _, nofun, fun _ => rfl⟩
  | reservedOp67 => exact .inl ⟨rfl, _, fun _ => rfl, fun _ => rfl⟩
  | reservedOp8F => exact .inl ⟨rfl, _, fun _ => rfl, fun _ => rfl⟩
  | blkHeader => exact .inl ⟨rfl, _, fun _ => data_withLength _ _ _ rfl, fun _ => rfl⟩
  | blkSubcode => exact .inl ⟨rfl, _, fun _ => data_withLength _ _ _ rfl, fun _ => rfl⟩
  | blkVaux => exact .inl ⟨rfl, _, fun _ => data_withLength _ _ _ rfl, fun _ => rfl⟩
  | blkAudio => exact .inl ⟨rfl, _, fun _ => data_withLength _ _ _ rfl, fun _ => rfl⟩
  | blkVideo => exact .inl ⟨rfl, _, fun _ => data_withLength _ _ _ rfl, fun _ => rfl⟩
  | blkUnknown5 => exact .inl ⟨rfl, _, fun _ => data_withLength _ _ _ rfl, fun _ => rfl⟩
  | blkUnknown67 => exact .inl ⟨rfl, _, fun _ => data_withLength _ _ _ rfl, fun _ => rfl⟩
  | packTc => exact .inr ⟨rfl, _, fun _ => rfl⟩
  | packRecdate => exact .inr ⟨rfl, _, fun _ => rfl⟩
  | packRectime => exact .inr ⟨rfl, _, fun _ => rfl⟩
  | packNoinfo => exact .inr ⟨rfl, _, fun _ => rfl⟩
  | packRaw => exact .inr ⟨rfl, _, fun _ => rfl⟩

/-! ## Bytes of buffers -/

theorem byte?_congr {m m' : Memory} {b : Name} (h : m.get? b = m'.get? b) (k : Nat) : m.byte? b k = m'.byte? b k := by
  simp only [Memory.byte?, h]

theorem byte?_of_get? {m : Memory} {b : Name} {d : Bytes} (h : m.get? b = some d) (k : Nat) : m.byte? b k = d[k]? := by
  simp only [Memory.byte?, h, Option.bind_some]

/-- A byte that no bit of the field lies in is unchanged (R81). -/
theorem getElem?_putBits_of_not_touched (buf : Bytes) {o w raw k : Nat} (hw : 1 ≤ w)
    (hk : k < o / 8 ∨ (o + w - 1) / 8 < k) : (putBits buf o w raw)[k]? = buf[k]? :=
  getElem?_of_bits (length_putBits buf o w raw) fun j hj => bitAt_putBits_of_not_mem buf o w raw (by omega)

/-- A codec write delivers a response. -/
theorem exec_writeInstr (sg : Bool) (w : WidthWord) (o : OffsetWord) (v : ValueWord) (d : Bytes) :
    ∃ r, ∀ s, exec (writeInstr sg w o v d) s = .next (s.deliver r) := by
  cases sg
  · exact ⟨_, fun _ => rfl⟩
  · exact ⟨_, fun _ => rfl⟩

/-- A codec write that answers with a buffer once delivers it in every state. -/
theorem exec_writeInstr_of_response {sg : Bool} {w : WidthWord} {o : OffsetWord} {v : ValueWord} {d d' : Bytes}
    {s t : State} (h : exec (writeInstr sg w o v d) s = .next t) (hr : t.response = some (okData d')) :
    t = s.deliver (okData d') ∧ Answers (writeInstr sg w o v d) (okData d') := by
  obtain ⟨r, e⟩ := exec_writeInstr sg w o v d
  rw [e] at h
  cases h
  have hr : r = okData d' := by simpa using hr
  subst hr
  exact ⟨rfl, (answers_iff e).2 rfl⟩

/-! ## The step -/

/-- With nothing outstanding, a step takes the next line. -/
theorem step_line {s : State} {l : Line} {rest : List Line} (hn : s.request = none) (hp : s.program = l :: rest) :
    step s = takeLine l { s with program := rest } := by
  unfold step
  split
  · rename_i o ho; rw [hn] at ho; cases ho
  · rw [hp]

/-- A line whose expansion makes a request presents it. -/
theorem lineEffect_of_lineRequest {l : Line} {s : State} {o : Outstanding}
    (h : lineRequest s (expand l) = some (.ok o)) : lineEffect l s = .presented { s with request := some o } o := by
  unfold lineEffect
  split
  · rename_i hl; rw [hl] at h; cases h
  · rw [h]

/-- A LOAD line sets its buffer and presents nothing (R71). -/
theorem step_load {s : State} {b : Name} {d : Bytes} {rest : List Line} (hn : s.request = none)
    (hp : s.program = .load b d :: rest) : step s = .next { s with program := rest, bufs := s.bufs.set b d } := by
  simp only [step_line hn hp, takeLine, lineEffect, expand]

/-- An instruction never clears the refusal mark (R33). -/
theorem exec_keeps_refused {i : Instr} {s t : State} (h : exec i s = .next t) (hr : s.refused = true) :
    t.refused = true := by
  rcases exec_cases h with ⟨r, -, rfl⟩ | ⟨p, rfl⟩
  · simp [hr]
  · exact hr

/-- A step never clears the refusal mark (R33). -/
theorem step_keeps_refused {s t : State} (h : step s = .next t) (hr : s.refused = true) : t.refused = true := by
  rcases step_cases h with
    ⟨-, -, rfl⟩ | ⟨l, rest, -, -, rfl | ⟨b, d, rfl⟩⟩ | ⟨l, rest, o, i, -, -, -, he⟩ | ⟨o, i, -, -, he⟩
  · exact hr
  · exact hr
  · exact hr
  · exact exec_keeps_refused he hr
  · exact exec_keeps_refused he hr

/-! ## What a request is answered -/

theorem isPackRow_decodeRequest (q : Request) : isPackRow (decodeRequest q) = false := by
  unfold decodeRequest
  repeat' split
  all_goals rfl

/-- The requests that may return a buffer are those of the two codec writes and of ENCODE (R52). -/
theorem op_of_returnsBuffer {q : Request} (h : returnsBuffer (decodeRequest q) = true) :
    2 ≤ q.op.toNat ∧ q.op ≠ 4 := by
  have hop : q.op = 2 ∨ q.op = 3 ∨ q.op = 5 := by
    by_contra hne
    simp only [not_or] at hne
    obtain ⟨h2, h3, h5⟩ := hne
    rw [decodeRequest, if_neg h2, if_neg h3, if_neg h5] at h
    split_ifs at h <;> cases h
  rcases hop with e | e | e <;> rw [e] <;> decide

/-- A response the block gives is a refusal exactly if its code is 8 or above (R161). -/
theorem isRefusal_of_given {r : Response} (h : Given r) : isRefusal r = decide (8 ≤ r.status.toNat) := by
  cases h with
  | error info => cases info <;> rfl
  | refused reason => cases reason <;> rfl
  | _ => rfl

/-- A response the block gives that holds a buffer is the success of a codec write or an ENCODE (R82, R151). -/
theorem eq_okData_of_given {r : Response} {d : Bytes} (h : Given r) (hd : r.data = some d) : r = okData d := by
  cases h with
  | data d' => cases hd; rfl
  | _ => cases hd

/-- Every response an instruction delivers is one the block gives. -/
theorem given_of_exec_deliver {i : Instr} {r : Response} (h : ∀ s, exec i s = .next (s.deliver r)) : Given r := by
  rcases exec_cases (h State.reset) with ⟨r', hr', e⟩ | ⟨p, e⟩
  · have : r = r' := by simpa using congrArg State.response e
    exact this ▸ hr'
  · simpa using congrArg State.log e

/-- The one response of a request: what the block gives, with a buffer for a codec write or an ENCODE only. -/
theorem exec_request (q : Request) :
    ∃ r : Response, Given r ∧ (∀ d, r.data = some d → r.status = 0 ∧ 2 ≤ q.op.toNat ∧ q.op ≠ 4) ∧
      ∀ s, exec (decodeRequest q) s = .next (s.deliver r) := by
  rcases exec_row (decodeRequest q) with ⟨-, r, hdata, e⟩ | ⟨hp, -⟩
  · have hg := given_of_exec_deliver e
    refine ⟨r, hg, fun d hd => ⟨?_, op_of_returnsBuffer ?_⟩, e⟩
    · rw [eq_okData_of_given hg hd]; rfl
    · by_contra hb
      rw [hdata (by simpa using hb)] at hd
      cases hd
  · rw [isPackRow_decodeRequest] at hp; cases hp

end Sys2Proof.Machine

namespace Sys2Proof.Proofs

open Sys2Proof.Machine

/-- Settles O59. -/
theorem invariantAtReset : Obligations.InvariantAtReset := stateInv_reset

/-- Settles O60, by the cases of a step: the end of the program, a line that presents nothing, and an instruction run from
a line or from the request port. -/
theorem stepKeepsInvariant : Obligations.StepKeepsInvariant := by
  intro s t h hs
  rcases step_cases hs with
    ⟨-, -, rfl⟩ | ⟨l, rest, -, -, rfl | ⟨b, d, rfl⟩⟩ | ⟨l, rest, o, i, -, -, -, he⟩ | ⟨o, i, -, -, he⟩
  · exact h
  · exact stateInv_program_request rest s.request h
  · exact stateInv_program_request rest s.request (stateInv_setBuffer b d h)
  · exact stateInv_exec (stateInv_program_request rest (some o) h) he
  · exact stateInv_exec h he

/-- Settles O9: the buffer returned is the request's data with the field replaced. -/
theorem codecWriteStoresOnlyTheFieldsBytes : Obligations.CodecWriteStoresOnlyTheFieldsBytes := by
  intro sg s t w o v d d' b hdest hbuf hexec hresp
  obtain ⟨rfl, hans⟩ := exec_writeInstr_of_response hexec hresp
  obtain ⟨⟨hw, -, -⟩, -, raw, -, rfl, -⟩ := answers_write_cases hans
  have hb : (s.deliver (okData (putBits d o.toNat w.toNat raw))).bufs =
      s.bufs.set b (putBits d o.toNat w.toNat raw) := by
    rw [deliver_bufs, hdest, collect_data _ _ rfl]
  rw [hb]
  refine ⟨get?_set_same .., length_putBits .., fun k hk => ?_, fun c k hc => ?_⟩
  · rw [byte?_of_get? (get?_set_same ..), byte?_of_get? hbuf, getElem?_putBits_of_not_touched d hw hk]
  · exact byte?_congr (get?_set_other _ _ hc.symm) k

/-- Settles O48, by the two shapes of a row's answer. -/
theorem instructionFrame : Obligations.InstructionFrame := by
  intro i s t h
  rcases exec_row i with ⟨hi, r, hdata, e⟩ | ⟨hi, p, e⟩ <;> rw [e] at h <;> cases h
  · refine ⟨rfl, rfl, fun _ => ⟨r, served_deliver s r⟩, fun hp => ?_, fun b k hb => ?_, fun hu hs he => ?_⟩
    · rw [hi] at hp; cases hp
    · exact byte?_congr (get?_collect_other _ _ hb) k
    · exact bufs_deliver s (hdata (returnsBuffer_eq_false hu hs he))
  · refine ⟨rfl, rfl, fun hp => ?_, fun _ => ⟨p, packServed_deliverPack s p⟩, fun _ _ _ => rfl, fun _ _ _ => rfl⟩
    rw [hi] at hp; cases hp

/-- Settles O53. -/
theorem harnessTakesTheAnswer : Obligations.HarnessTakesTheAnswer := by
  refine ⟨fun s q dest hq => ?_, fun s t => step_keeps_refused, fun s b d rest hn hp => ?_⟩
  · obtain ⟨r, hg, hdata, e⟩ := exec_request q
    have hdest : s.dest = dest := dest_of_request hq
    refine ⟨s.deliver r, r, (step_outstanding hq rfl).trans (e s), rfl, rfl, ?_, ?_, ?_, hdata⟩
    · rw [deliver_refused, isRefusal_of_given hg]
    · intro b d hb hd
      rw [deliver_bufs, hdest, hb, collect_data _ _ hd, get?_set_same]
    · rintro b (hb | hd)
      · exact get?_collect_other _ _ (hdest ▸ hb)
      · rw [bufs_deliver s hd]
  · exact ⟨_, step_load hn hp, get?_set_same .., fun c hc => get?_set_other _ _ hc.symm, hn, rfl, rfl, rfl, rfl⟩

/-- Settles O49. -/
theorem stepRunsTheOutstandingRequest : Obligations.StepRunsTheOutstandingRequest :=
  fun _ _ _ hreq hdec => step_outstanding hreq hdec

/-- Settles O50. -/
theorem stepPresentsTheNextLine : Obligations.StepPresentsTheNextLine := by
  intro s l rest o i hn hp hline hdec
  simp only [step_line hn hp, takeLine, lineEffect_of_lineRequest hline, serve, hdec]

end Sys2Proof.Proofs

/-! PROOFS. The statements of 20_memory.md: the mixed-width view of a buffer, and one request at a time. -/

namespace Sys2Proof.Machine

/-! ## Mixed-width reads -/

/-- What FREAD.U answers for an admitted field in bounds whose width and offset are given as numbers: the offset of a
field in bounds of an admitted buffer fits its 32-bit port (R79). -/
theorem answers_freadU_of_inBounds {buf : Bytes} {o w : Nat} (hA : Admitted w buf.length) (hB : o + w ≤ 8 * buf.length) :
    Answers (.freadU (BitVec.ofNat 6 w) (BitVec.ofNat 32 o) buf) (okResult (BitVec.ofNat 32 (fieldBits buf o w))) := by
  obtain ⟨hw, hw32, hlen⟩ := hA
  have ew : (BitVec.ofNat 6 w).toNat = w := (BitVec.toNat_ofNat w 6).trans (Nat.mod_eq_of_lt (by omega))
  have eo : (BitVec.ofNat 32 o).toNat = o := (BitVec.toNat_ofNat o 32).trans (Nat.mod_eq_of_lt (by omega))
  refine answers_read_iff (sg := false).2 ⟨?_, ?_, ?_⟩ <;> rw [ew]
  · exact ⟨hw, hw32, hlen⟩
  · rwa [eo]
  · rw [eo]; rfl

/-- A whole byte read as a field (R36). -/
theorem fieldBits_wholeByte (buf : Bytes) (k : Nat) : fieldBits buf (8 * k) 8 = (buf.getD k 0).toNat := by
  have hlt := (buf.getD k 0).isLt
  exact (fieldBits_byte buf k 0 8 (by decide)).trans (by omega)

/-- Two bytes read as one field: the one at the lower index is the more significant (R35, R36). -/
theorem fieldBits_twoBytes (buf : Bytes) (k : Nat) :
    fieldBits buf (8 * k) 16 = (buf.getD k 0).toNat * 256 + (buf.getD (k + 1) 0).toNat := by
  calc
    fieldBits buf (8 * k) 16 = fieldBits buf (8 * k) 8 * 256 + fieldBits buf (8 * (k + 1)) 8 :=
      fieldBits_add buf (8 * k) 8 8
    _ = (buf.getD k 0).toNat * 256 + (buf.getD (k + 1) 0).toNat := by
      rw [fieldBits_wholeByte, fieldBits_wholeByte]

/-- The high four bits of a byte read as a field (R36). -/
theorem fieldBits_highNibble (buf : Bytes) (k : Nat) : fieldBits buf (8 * k) 4 = (buf.getD k 0).toNat / 16 := by
  have hlt := (buf.getD k 0).isLt
  exact (fieldBits_byte buf k 0 4 (by decide)).trans (Nat.mod_eq_of_lt (by omega))

/-- The low four bits of a byte read as a field (R36). -/
theorem fieldBits_lowNibble (buf : Bytes) (k : Nat) : fieldBits buf (8 * k + 4) 4 = (buf.getD k 0).toNat % 16 := by
  simpa using fieldBits_byte buf k 4 4 (by decide)

/-- One bit of a byte read as a field: bit 0 is the most significant (R36). -/
theorem fieldBits_oneBit (buf : Bytes) (k : Nat) {j : Nat} (hj : j < 8) :
    fieldBits buf (8 * k + j) 1 = (buf.getD k 0).toNat / 2 ^ (7 - j) % 2 := by
  rw [fieldBits_byte buf k j 1 hj, show 8 - (j + 1) = 7 - j by omega, Nat.pow_one]

/-! ## One request at a time -/

/-- While a request is outstanding, no other is accepted (R49). -/
theorem present_of_outstanding {s : State} {o : Outstanding} (h : s.request = some o) (o' : Outstanding) :
    s.present o' = none := by
  simp only [State.present, h]

/-- With no request outstanding, what is presented is accepted (R49). -/
theorem present_of_idle {s : State} (h : s.request = none) (o : Outstanding) :
    s.present o = some { s with request := some o } := by
  simp only [State.present, h]

/-- After an instruction no request is outstanding. -/
theorem request_of_exec {i : Instr} {s t : State} (h : exec i s = .next t) : t.request = none := by
  rcases exec_cases h with ⟨r, -, rfl⟩ | ⟨p, rfl⟩
  · exact deliver_request s r
  · exact deliverPack_request s p

/-- After a step no request is outstanding: an instruction was served, or none was outstanding and none presented. -/
theorem request_of_step {s t : State} (h : step s = .next t) : t.request = none := by
  rcases step_cases h with
    ⟨hn, -, rfl⟩ | ⟨l, rest, hn, -, rfl | ⟨b, d, rfl⟩⟩ | ⟨l, rest, o, i, -, -, -, he⟩ | ⟨o, i, -, -, he⟩
  · exact hn
  · exact hn
  · exact hn
  · exact request_of_exec he
  · exact request_of_exec he

end Sys2Proof.Machine

namespace Sys2Proof.Proofs

open Sys2Proof.Machine

/-- Settles O6: each entry of the view is an admitted field inside the two bytes, so FREAD.U answers its bits. -/
theorem mixedWidthViewOfBytes : Obligations.MixedWidthViewOfBytes := by
  intro buf k o w v hk hmem
  have key : (1 ≤ w ∧ w ≤ 32 ∧ o + w ≤ 8 * buf.length) ∧ fieldBits buf o w = v := by
    simp only [List.mem_append, List.mem_cons, List.mem_map, List.mem_range, List.not_mem_nil, or_false,
      Prod.mk.injEq] at hmem
    rcases hmem with (⟨rfl, rfl, rfl⟩ | ⟨rfl, rfl, rfl⟩ | ⟨rfl, rfl, rfl⟩ | ⟨rfl, rfl, rfl⟩) | ⟨j, hj, rfl, rfl, rfl⟩
    · exact ⟨by omega, fieldBits_twoBytes buf k⟩
    · exact ⟨by omega, fieldBits_wholeByte buf k⟩
    · exact ⟨by omega, fieldBits_highNibble buf k⟩
    · exact ⟨by omega, fieldBits_lowNibble buf k⟩
    · exact ⟨by omega, fieldBits_oneBit buf k hj⟩
  obtain ⟨⟨hw, hw32, hB⟩, rfl⟩ := key
  exact ⟨rfl, fun hlen => answers_freadU_of_inBounds ⟨hw, hw32, hlen⟩ hB⟩

/-- Settles O54. -/
theorem oneRequestAtATime : Obligations.OneRequestAtATime :=
  ⟨fun _ _ o' h => present_of_outstanding h o', fun _ o h => present_of_idle h o, fun _ _ => request_of_step⟩

end Sys2Proof.Proofs

/-! PROOFS. The statements of 30_encoding.md: decode and encode, reserved ops, the layout, what the checks read, the
response port, and the lines of a program. -/

namespace Sys2Proof.Machine

/-! ## Rows of blocks and packs -/

/-- The row of a DIF block by its `sct` (R56, R66); the codes 6 and 7 share the last row. -/
def blockRow (sct : Nat) (std : Std) (pos : PosWord) (id : IdOperands) (payload : Bytes) : Instr :=
  match sct with
  | 0 => .blkHeader std pos id payload
  | 1 => .blkSubcode std pos id payload
  | 2 => .blkVaux std pos id payload
  | 3 => .blkAudio std pos id payload
  | 4 => .blkVideo std pos id payload
  | 5 => .blkUnknown5 std pos id payload
  | n => .blkUnknown67 (BitVec.ofNat 1 n) std pos id payload

theorem blockRow_unknown67 (b : BitVec 1) (std : Std) (pos : PosWord) (id : IdOperands) (payload : Bytes) :
    blockRow (6 + b.toNat) std pos id payload = .blkUnknown67 b std pos id payload := by
  rcases BitVec.eq_zero_or_eq_one b with rfl | rfl <;> rfl

@[simp] theorem wellFormed_blockRow (n : Nat) (std : Std) (pos : PosWord) (id : IdOperands) (payload : Bytes) :
    (blockRow n std pos id payload).wellFormed = payloadOk std payload := by
  unfold blockRow
  split <;> rfl

theorem encode_blockRow {n : Nat} (hn : n < 8) (std : Std) (pos : PosWord) (id : IdOperands) (payload : Bytes) :
    encode (blockRow n std pos id payload) = .block std pos (idBytes n id ++ payload) := by
  interval_cases n <;> rfl

theorem readInt_sct_lt (blk : Bytes) : readInt params blk (.id .sct) < 8 := fieldBits_lt blk 0 3

/-- The decoder reads from an 80-byte block the row of its `sct` (R56, R66). -/
theorem decodeBlockItem_eq_blockRow (std : Std) (pos : PosWord) {blk : Bytes} (h : blk.length = 80) :
    decodeBlockItem std pos blk =
      .ok (blockRow (readInt params blk (.id .sct)) std pos (idOperandsOf blk) (blk.drop 3)) := by
  have hsct := readInt_sct_lt blk
  rw [decodeBlockItem, if_neg (not_not.2 h)]
  generalize readInt params blk (.id .sct) = sct at hsct
  interval_cases sct <;> rfl

/-- A block that the decoder accepts is 80 bytes long. -/
theorem length_of_decodeBlockItem {std : Std} {pos : PosWord} {blk : Bytes} {i : Instr}
    (h : decodeBlockItem std pos blk = .ok i) : blk.length = 80 := by
  by_contra hl
  rw [decodeBlockItem, if_pos hl] at h
  cases h

theorem length_of_payloadOk {std : Std} {payload : Bytes} (h : payloadOk std payload = true) : payload.length = 77 := by
  have : payload.length + 3 = 80 := by simpa [payloadOk] using h
  omega

theorem payloadOk_drop {blk : Bytes} (std : Std) (h : blk.length = 80) : payloadOk std (blk.drop 3) = true := by
  simp [payloadOk, h]

theorem length_idBytes_append {payload : Bytes} (n : Nat) (id : IdOperands) (h : payload.length = 77) :
    (idBytes n id ++ payload).length = 80 := by
  rw [List.length_append, length_idBytes, h]

theorem decode_encode_blockRow {n : Nat} (hn : n < 8) {std : Std} {payload : Bytes} (pos : PosWord) (id : IdOperands)
    (h : payloadOk std payload = true) :
    decode (encode (blockRow n std pos id payload)) = .ok (blockRow n std pos id payload) := by
  rw [encode_blockRow hn, decode_block,
    decodeBlockItem_eq_blockRow std pos (length_idBytes_append n id (length_of_payloadOk h)),
    readInt_idBytes hn, idOperandsOf_idBytes hn, drop_idBytes, idValue]

/-- The row of a pack by its PC0 (R57). -/
def packRow (std : Std) (slot : PackSlot) (pc0 pc1 pc2 pc3 pc4 : Byte) : Instr :=
  match packKind pc0.toNat with
  | .tc      => .packTc std slot pc1 pc2 pc3 pc4
  | .recdate => .packRecdate std slot pc1 pc2 pc3 pc4
  | .rectime => .packRectime std slot pc1 pc2 pc3 pc4
  | .noinfo  => .packNoinfo std slot pc1 pc2 pc3 pc4
  | .raw     => .packRaw std slot pc0 pc1 pc2 pc3 pc4

/-- The decoder reads from a pack of five bytes the row of its PC0 (R57). -/
theorem decodePackItem_eq_packRow (std : Std) (slot : PackSlot) (pc0 pc1 pc2 pc3 pc4 : Byte) :
    decodePackItem std slot [pc0, pc1, pc2, pc3, pc4] = .ok (packRow std slot pc0 pc1 pc2 pc3 pc4) := by
  simp only [decodePackItem, packRow]
  cases packKind pc0.toNat <;> rfl

/-- A pack that the decoder accepts has five bytes. -/
theorem bytes_of_decodePackItem {std : Std} {slot : PackSlot} {bytes : Bytes} {i : Instr}
    (h : decodePackItem std slot bytes = .ok i) : ∃ pc0 pc1 pc2 pc3 pc4, bytes = [pc0, pc1, pc2, pc3, pc4] := by
  unfold decodePackItem at h
  split at h
  · exact ⟨_, _, _, _, _, rfl⟩
  · cases h

/-- The encoding of a pack's row is the pack, and the row is well formed. -/
theorem encode_packRow (std : Std) (slot : PackSlot) (pc0 pc1 pc2 pc3 pc4 : Byte) :
    encode (packRow std slot pc0 pc1 pc2 pc3 pc4) = .pack std slot [pc0, pc1, pc2, pc3, pc4] ∧
      (packRow std slot pc0 pc1 pc2 pc3 pc4).wellFormed = true := by
  unfold packRow
  split <;> rename_i hk
  · cases packKind_tc hk; exact ⟨rfl, rfl⟩
  · cases packKind_recdate hk; exact ⟨rfl, rfl⟩
  · cases packKind_rectime hk; exact ⟨rfl, rfl⟩
  · cases packKind_noinfo hk; exact ⟨rfl, rfl⟩
  · refine ⟨rfl, ?_⟩
    show (packKind pc0.toNat == .raw) = true
    rw [hk]; rfl

theorem decode_encode_packRow (std : Std) (slot : PackSlot) (pc0 pc1 pc2 pc3 pc4 : Byte) :
    decode (encode (packRow std slot pc0 pc1 pc2 pc3 pc4)) = .ok (packRow std slot pc0 pc1 pc2 pc3 pc4) := by
  rw [(encode_packRow std slot pc0 pc1 pc2 pc3 pc4).1, decode_pack, decodePackItem_eq_packRow]

/-- `PACK.RAW` is the row of every PC0 that its check lets through (R57). -/
theorem packRow_of_rawPc0Ok {pc0 : Byte} (h : rawPc0Ok pc0 = true) (std : Std) (slot : PackSlot)
    (pc1 pc2 pc3 pc4 : Byte) : packRow std slot pc0 pc1 pc2 pc3 pc4 = .packRaw std slot pc0 pc1 pc2 pc3 pc4 := by
  have hk : packKind pc0.toNat = .raw := eq_of_beq h
  rw [packRow, hk]

/-! ## Requests by their `op` -/

@[simp] theorem stdOf_stdBit (std : Std) : stdOf (stdBit std) = std := by cases std <;> rfl

theorem decodeRequest_reserved {r : Request} (h : 6 ≤ r.op.toNat) :
    (∃ b, decodeRequest r = .reservedOp67 b) ∨ ∃ b, decodeRequest r = .reservedOp8F b := by
  have hne : ∀ c : OpWord, c.toNat < 6 → r.op ≠ c := by rintro c hc rfl; omega
  rw [decodeRequest, if_neg (hne _ (by decide)), if_neg (hne _ (by decide)), if_neg (hne _ (by decide)),
    if_neg (hne _ (by decide)), if_neg (hne _ (by decide)), if_neg (hne _ (by decide))]
  split
  · exact .inl ⟨_, rfl⟩
  · exact .inr ⟨_, rfl⟩

theorem decode_encode_reservedOp67 (b : BitVec 1) : decode (encode (.reservedOp67 b)) = .ok (.reservedOp67 b) := by
  revert b; decide

theorem decode_encode_reservedOp8F (b : BitVec 3) : decode (encode (.reservedOp8F b)) = .ok (.reservedOp8F b) := by
  revert b; decide

/-! ## Answers that leave the buffers -/

/-- An instruction that delivers a response without data completes with it and leaves every buffer as it was. -/
theorem served_of_exec_deliver {i : Instr} {s : State} {r : Response} (h : exec i s = .next (s.deliver r))
    (hr : r.data = none) : ∃ t, exec i s = .next t ∧ Served s t r ∧ t.bufs = s.bufs :=
  ⟨_, h, served_deliver s r, bufs_deliver s hr⟩

/-! ## Blocks of an unmapped section type -/

theorem exec_blockRow_unknown {n : Nat} (h5 : 5 ≤ n) (h8 : n < 8) (std : Std) (pos : PosWord) (id : IdOperands)
    (p : Bytes) (s : State) :
    exec (blockRow n std pos id p) s =
      .next (s.deliver (withLength params std pos (idBytes n id ++ p) (unknownBlock params pos (idBytes n id ++ p)))) := by
  interval_cases n <;> rfl

/-- The row of an unmapped `sct`, and DECODE of its block, deliver `Unreadable` with the position and the `sct` (R97). -/
theorem exec_unknownBlock {n : Nat} (h5 : 5 ≤ n) (h8 : n < 8) {std : Std} {pos : PosWord} {id : IdOperands} {p : Bytes}
    (hp : p.length = 77) {i : Instr} (hi : i ∈ [blockRow n std pos id p, .decode std pos (idBytes n id ++ p)])
    (s : State) : exec i s = .next (s.deliver (unreadable pos .unknownBlockType (some (BitVec.ofNat 3 n)))) := by
  have hl := length_idBytes_append n id hp
  have hsct : readInt params (idBytes n id ++ p) (.id .sct) = n := readInt_idBytes h8 id p .sct
  have hmap : sctMap n = none := by interval_cases n <;> rfl
  have hans : unknownBlock params pos (idBytes n id ++ p) =
      unreadable pos .unknownBlockType (some (BitVec.ofNat 3 n)) := by rw [unknownBlock, hsct]
  rcases List.mem_pair.1 hi with rfl | rfl
  · rw [exec_blockRow_unknown h5 h8, withLength_exact _ hl, hans]
  · rw [exec, execDecode, decodeBlock_unknown hl (by rw [hsct, hmap]), hans]

/-! ## The layout covers a block -/

/-- Every raw field has a bit of its own (R55). -/
theorem fieldStart_lt_fieldEnd (f : RawField) : fieldStart params f < fieldEnd params f := by
  cases f with
  | int f =>
    refine Nat.lt_add_of_pos_right ?_
    show 0 < (intLoc f).width
    cases f with
    | id f => cases f <;> decide
    | header f => cases f <;> decide
    | ssyb k f => cases f <;> simp [intLoc, ssybLoc]
    | pack slot b => simp [intLoc]
    | video f => cases f <;> decide
  | bytes f => cases f <;> decide

/-- The fields of a chain stand by increasing first bit. -/
theorem chained_pairwise {fs : List RawField} {a b : Nat} (h : chained params fs a b = true) :
    fs.Pairwise fun f g => fieldStart params f < fieldStart params g := by
  induction fs generalizing a with
  | nil => exact .nil
  | cons f fs ih =>
    obtain ⟨-, -, hrest⟩ := chained_cons h
    refine List.pairwise_cons.2 ⟨fun g hg => ?_, ih hrest⟩
    exact lt_of_lt_of_le (fieldStart_lt_fieldEnd f) (chained_mem hrest hg).1

theorem firstBit_eq_fieldStart (f : RawField) : firstBit f = fieldStart params f := by cases f <;> rfl

theorem covers_iff (f : RawField) (k : Nat) : covers f k ↔ fieldStart params f ≤ k ∧ k < fieldEnd params f := by
  cases f <;> exact Iff.rfl

/-! ## What the checks read -/

theorem slotByte_eq_packByte (slot : PackSlot) : slotByte slot = packByte slot := by cases slot <;> rfl

/-- The digits that a PC0 has checked are those of the view it selects, at the pack's place (R131, R134, R137). -/
theorem checkedDigits_eq_viewDigits (pc0 a : Nat) :
    checkedDigits pc0 a = (viewDigits (packKind pc0)).map fun loc => ⟨8 * a + loc.off, loc.width⟩ := by
  have hcases : pc0 = 0x13 ∨ pc0 = 0x62 ∨ pc0 = 0x63 ∨ (pc0 ≠ 0x13 ∧ pc0 ≠ 0x62 ∧ pc0 ≠ 0x63) := by omega
  rcases hcases with rfl | rfl | rfl | ⟨h13, h62, h63⟩
  · rfl
  · rfl
  · rfl
  · have hk : viewDigits (packKind pc0) = [] := by
      simp only [packKind, h13, h62, h63, if_false]
      split <;> rfl
    simp only [checkedDigits, h13, h62, h63, or_false, if_false, hk, List.map_nil]

/-- Every checked digit lies in the pack's five bytes. -/
theorem viewDigits_le {k : PackKind} {loc : FieldLoc} (h : loc ∈ viewDigits k) : loc.off + loc.width ≤ 40 := by
  revert loc
  cases k <;> decide

/-- Two blocks agree on what the checks of the pack in a slot read: its PC0 and the digits this PC0 has checked. -/
def sameChecked (blk blk' : Bytes) (slot : PackSlot) : Prop :=
  fieldBits blk (8 * slotByte slot) 8 = fieldBits blk' (8 * slotByte slot) 8 ∧
    ∀ loc ∈ checkedDigits (fieldBits blk (8 * slotByte slot) 8) (slotByte slot),
      fieldBits blk loc.off loc.width = fieldBits blk' loc.off loc.width

theorem readPack_pc0 (blk : Bytes) (slot : PackSlot) :
    (readPack params blk slot).pc0 = fieldBits blk (8 * slotByte slot) 8 := by
  rw [slotByte_eq_packByte]; rfl

theorem packChecks_of_sameChecked {blk blk' : Bytes} {slot : PackSlot} (std : Std) (h : sameChecked blk blk' slot) :
    packChecks params std slot (readPack params blk slot) = packChecks params std slot (readPack params blk' slot) := by
  obtain ⟨hpc0, hdigits⟩ := h
  refine packChecks_congr (by rw [readPack_pc0, readPack_pc0, hpc0]) fun loc hloc => ?_
  have hle := viewDigits_le hloc
  rw [readPack_pc0] at hloc
  rw [packField_readPack _ _ _ hle, packField_readPack _ _ _ hle, ← slotByte_eq_packByte]
  refine hdigits ⟨8 * slotByte slot + loc.off, loc.width⟩ ?_
  rw [checkedDigits_eq_viewDigits]
  exact List.mem_map.2 ⟨loc, hloc, rfl⟩

theorem ssybChecks_congr {std : Std} {k : Fin 6} {y y' : Ssyb} (hsyb : y.syb = y'.syb)
    (hpack : packChecks params std (.ssyb k) y.pack = packChecks params std (.ssyb k) y'.pack) :
    ssybChecks params std k y = ssybChecks params std k y' := by
  rw [ssybChecks, ssybChecks, hsyb, hpack]

/-- The checks of a decoded body read the `syb` of every SSYB and the checked parts of every pack, and nothing else. -/
theorem bodyChecks_decodeBody_congr {t : BlockType} {blk blk' : Bytes} (std : Std)
    (hsyb : ∀ k : Fin 6, t = .subcode → readInt params blk (.ssyb k .syb) = readInt params blk' (.ssyb k .syb))
    (hpacks : ∀ slot ∈ slotsOf t, sameChecked blk blk' slot) :
    bodyChecks params std (decodeBody params t blk) = bodyChecks params std (decodeBody params t blk') := by
  cases t with
  | header => rfl
  | subcode =>
    refine List.flatMap_congr fun k hk => ?_
    rw [decodeSubcode_ssyb, decodeSubcode_ssyb]
    exact ssybChecks_congr (hsyb k rfl) (packChecks_of_sameChecked std (hpacks _ (List.mem_map_of_mem hk)))
  | vaux =>
    refine List.flatMap_congr fun i hi => ?_
    rw [decodeVaux_pack, decodeVaux_pack]
    exact packChecks_of_sameChecked std (hpacks _ (List.mem_map_of_mem hi))
  | audio => exact packChecks_of_sameChecked std (hpacks _ (List.mem_singleton_self _))
  | video => rfl

/-- The ID checks read `dseq` and `dbn`, and nothing else (R98). -/
theorem checkId_congr {id id' : BlockId} (t : BlockType) (std : Std) (hdseq : id.dseq = id'.dseq)
    (hdbn : id.dbn = id'.dbn) : checkId params id t std = checkId params id' t std := by
  rw [checkId, checkId, hdseq, hdbn]

/-! ## The response port -/

@[simp] theorem deliver_statusPort (s : State) (r : Response) : (s.deliver r).statusPort = r.status := rfl

theorem deliver_resultPort {r : Response} {v : ResultWord} (s : State) (h : r.result = some v) :
    (s.deliver r).resultPort = v := by
  simp [State.resultPort, h]

theorem deliver_dataPort {r : Response} {d : Bytes} (s : State) (h : r.data = some d) : (s.deliver r).dataPort = d := by
  simp [State.dataPort, h]

theorem deliver_decodePort {r : Response} {x : DecodeResult} (s : State) (h : r.decode = some x) :
    (s.deliver r).decodePort = x := by
  simp [State.decodePort, h]

/-- Every response the block gives has a form (R74). -/
theorem responseForm_isSome_of_given {r : Response} (h : Given r) : (responseForm r).isSome = true := by
  cases h with
  | error info => cases info <;> rfl
  | refused reason => cases reason <;> rfl
  | _ => rfl

/-- An instruction that appends a response to the log delivered it, and the block gives it. -/
theorem eq_deliver_of_log {i : Instr} {s t : State} {r : Response} (h : exec i s = .next t)
    (hlog : t.log = s.log ++ [r]) : Given r ∧ t = s.deliver r := by
  rcases exec_cases h with ⟨r', hr', rfl⟩ | ⟨p, rfl⟩
  · have : r' = r := by simpa using hlog
    subst this
    exact ⟨hr', rfl⟩
  · simp at hlog

/-! ## The lines of a program -/

theorem readRequest_of_get? {m : Memory} {b : Name} {d : Bytes} (h : m.get? b = some d) (make : Bytes → Request) :
    readRequest m b make = .ok ⟨.request (make d), none⟩ := by
  simp only [readRequest, bufferOperand, h]

theorem writeRequest_of_get? {m : Memory} {b : Name} {d : Bytes} (h : m.get? b = some d) (make : Bytes → Request) :
    writeRequest m b make = .ok ⟨.request (make d), some b⟩ := by
  simp only [writeRequest, bufferOperand, h]

theorem readRequest_of_noBuffer {m : Memory} {b : Name} (h : m.get? b = none) (make : Bytes → Request) :
    readRequest m b make = .error (.noSuchBuffer b) := by
  simp only [readRequest, bufferOperand, h]

theorem writeRequest_of_noBuffer {m : Memory} {b : Name} (h : m.get? b = none) (make : Bytes → Request) :
    writeRequest m b make = .error (.noSuchBuffer b) := by
  simp only [writeRequest, bufferOperand, h]

/-- The request that an ENCODE line presents for a record (R71). -/
def encodeRequest (std : Std) (rcd : DecodedBlock) : Request :=
  { zeroRequest with op := 0x5, std := stdBit std, record := rcd }

@[simp] theorem decodeRequest_encodeRequest (std : Std) (rcd : DecodedBlock) :
    decodeRequest (encodeRequest std rcd) = .encode std rcd := by
  cases std <;> rfl

theorem lineRequest_encode_ok {s : State} {ref : RecRef} {rcd : DecodedBlock} (h : recordOperand s.log ref = .ok rcd)
    (b : Name) (std : Std) :
    lineRequest s (.encode b ref std) = some (.ok ⟨.request (encodeRequest std rcd), some b⟩) := by
  simp only [lineRequest, h, encodeRequest]

theorem lineRequest_encode_error {s : State} {ref : RecRef} {f : Fault} (h : recordOperand s.log ref = .error f)
    (b : Name) (std : Std) : lineRequest s (.encode b ref std) = some (.error f) := by
  simp only [lineRequest, h]

theorem recordOperand_of_logged {log : List Response} {n : Nat} {rcd : DecodedBlock}
    (h : loggedRecord log n = some rcd) (es : List Edit) : recordOperand log ⟨n, es⟩ = applyEdits es rcd := by
  simp only [recordOperand, h]

theorem recordOperand_of_notLogged {log : List Response} {n : Nat} (h : loggedRecord log n = none) (es : List Edit) :
    recordOperand log ⟨n, es⟩ = .error (.noSuchRecord n) := by
  simp only [recordOperand, h]

/-- Which record `@n` names: the one that response `n` of the log holds, counting from 1 (R71). -/
theorem loggedRecord_eq_some_iff {log : List Response} {n : Nat} {rcd : DecodedBlock} :
    loggedRecord log n = some rcd ↔
      ∃ r vs, 0 < n ∧ log[n - 1]? = some r ∧ r.decode = some (.decoded rcd vs) := by
  cases n with
  | zero => exact ⟨nofun, fun ⟨_, _, h, _⟩ => absurd h (Nat.lt_irrefl 0)⟩
  | succ k =>
    constructor
    · intro h
      simp only [loggedRecord] at h
      split at h
      · rename_i r hr
        split at h
        · rename_i b vs hb
          cases h
          exact ⟨r, vs, k.succ_pos, hr, hb⟩
        · cases h
      · cases h
    · rintro ⟨r, vs, -, hr, hb⟩
      have hr : log[k]? = some r := hr
      simp only [loggedRecord, hr, hb]

/-! ## Edits -/

theorem applyEdits_cons_ok {e : Edit} {rcd rcd' : DecodedBlock} (h : applyEdits [e] rcd = .ok rcd') (es : List Edit) :
    applyEdits (e :: es) rcd = applyEdits es rcd' := by
  cases e <;> simp only [applyEdits] at h ⊢ <;> split at h <;> cases h <;> rfl

theorem applyEdits_cons_error {e : Edit} {rcd : DecodedBlock} {f : Fault} (h : applyEdits [e] rcd = .error f)
    (es : List Edit) : applyEdits (e :: es) rcd = .error f := by
  cases e <;> simp only [applyEdits] at h ⊢ <;> split at h <;> cases h <;> rfl

/-- An edit of an integer field that the record does not have stops (notes/assumptions/13.md). -/
theorem applyEdits_int_of_none {rcd : DecodedBlock} {f : IntField} (h : recGetInt rcd f = none) (x : Nat) :
    applyEdits [.int f x] rcd = .error (.noSuchField (.int f)) := by
  simp only [applyEdits, recSetInt_of_none h]

/-- An edit of a byte-sequence field that the record does not have stops (notes/assumptions/13.md). -/
theorem applyEdits_bytes_of_none {rcd : DecodedBlock} {f : BytesField} (h : recGetBytes rcd f = none) (x : Bytes) :
    applyEdits [.bytes f x] rcd = .error (.noSuchField (.bytes f)) := by
  simp only [applyEdits, recSetBytes_of_none h]

/-- An edit gives the named integer field its value and changes no other field (R71). -/
theorem applyEdits_int_of_isSome {rcd : DecodedBlock} {f : IntField} (h : (recGetInt rcd f).isSome = true) (x : Nat) :
    ∃ rcd', applyEdits [.int f x] rcd = .ok rcd' ∧ rcd'.body.type = rcd.body.type ∧ recGetInt rcd' f = some x ∧
      (∀ g, g ≠ f → recGetInt rcd' g = recGetInt rcd g) ∧ ∀ g, recGetBytes rcd' g = recGetBytes rcd g := by
  obtain ⟨w, hw⟩ := Option.isSome_iff_exists.1 h
  obtain ⟨rcd', hset⟩ := recSetInt_of_get hw x
  obtain ⟨htype, hbytes, hint⟩ := recSetInt_spec hset
  refine ⟨rcd', by simp only [applyEdits, hset], htype, ?_, fun g hg => ?_, hbytes⟩
  · rw [hint, if_pos rfl, hw, Option.map_some]
  · rw [hint, if_neg hg]

/-- An edit gives the named byte-sequence field its value and changes no other field (R71). -/
theorem applyEdits_bytes_of_isSome {rcd : DecodedBlock} {f : BytesField} (h : (recGetBytes rcd f).isSome = true)
    (x : Bytes) :
    ∃ rcd', applyEdits [.bytes f x] rcd = .ok rcd' ∧ rcd'.body.type = rcd.body.type ∧ recGetBytes rcd' f = some x ∧
      (∀ g, g ≠ f → recGetBytes rcd' g = recGetBytes rcd g) ∧ ∀ g, recGetInt rcd' g = recGetInt rcd g := by
  obtain ⟨w, hw⟩ := Option.isSome_iff_exists.1 h
  obtain ⟨rcd', hset⟩ := recSetBytes_of_get hw x
  obtain ⟨htype, hint, hbytes⟩ := recSetBytes_spec hset
  refine ⟨rcd', by simp only [applyEdits, hset], htype, ?_, fun g hg => ?_, hint⟩
  · rw [hbytes, if_pos rfl, hw, Option.map_some]
  · rw [hbytes, if_neg hg]

/-! ## Pseudo-instructions -/

/-- The bit offset of byte `k` fits the offset port (notes/assumptions/17.md). -/
theorem toNat_byteOffset (k : BitVec 29) : (8 * BitVec.setWidth 32 k).toNat = 8 * k.toNat := by
  bv_omega

/-- The bit offset of a half of byte `k` fits the offset port (notes/assumptions/17.md). -/
theorem toNat_nibbleOffset (k : BitVec 29) (h : BitVec 1) :
    (8 * BitVec.setWidth 32 k + 4 * BitVec.setWidth 32 h).toNat = 8 * k.toNat + 4 * h.toNat := by
  bv_omega

end Sys2Proof.Machine

namespace Sys2Proof.Proofs

open Sys2Proof.Machine

/-- Settles O57, by the rows: the requests by their `op`, the blocks by their `sct`, the packs by their PC0. -/
theorem decodeOfEncodeIsTheInstruction : Obligations.DecodeOfEncodeIsTheInstruction := by
  intro i h
  cases i with
  | freadU w o d => rfl
  | freadS w o d => rfl
  | fwriteU w o v d => rfl
  | fwriteS w o v d => rfl
  | decode std pos d => cases std <;> rfl
  | encode std r => cases std <;> rfl
  | reservedOp67 b => exact decode_encode_reservedOp67 b
  | reservedOp8F b => exact decode_encode_reservedOp8F b
  | blkHeader std pos id p => exact decode_encode_blockRow (n := 0) (by decide) pos id h
  | blkSubcode std pos id p => exact decode_encode_blockRow (n := 1) (by decide) pos id h
  | blkVaux std pos id p => exact decode_encode_blockRow (n := 2) (by decide) pos id h
  | blkAudio std pos id p => exact decode_encode_blockRow (n := 3) (by decide) pos id h
  | blkVideo std pos id p => exact decode_encode_blockRow (n := 4) (by decide) pos id h
  | blkUnknown5 std pos id p => exact decode_encode_blockRow (n := 5) (by decide) pos id h
  | blkUnknown67 b std pos id p =>
    rw [← blockRow_unknown67 b std pos id p]
    exact decode_encode_blockRow (by omega) pos id h
  | packTc std slot a b c d => exact decode_encode_packRow std slot 0x13 a b c d
  | packRecdate std slot a b c d => exact decode_encode_packRow std slot 0x62 a b c d
  | packRectime std slot a b c d => exact decode_encode_packRow std slot 0x63 a b c d
  | packNoinfo std slot a b c d => exact decode_encode_packRow std slot 0xFF a b c d
  | packRaw std slot p a b c d =>
    rw [← packRow_of_rawPc0Ok h std slot a b c d]
    exact decode_encode_packRow std slot p a b c d

/-- Settles O58: the row read from a block encodes to its ID bytes and its section data, which are the block. -/
theorem encodeOfDecodedItemIsTheItem : Obligations.EncodeOfDecodedItemIsTheItem := by
  constructor
  · intro std pos blk i h
    rw [decode_block] at h
    have hl := length_of_decodeBlockItem h
    rw [decodeBlockItem_eq_blockRow std pos hl] at h
    cases h
    refine ⟨?_, (wellFormed_blockRow ..).trans (payloadOk_drop std hl)⟩
    rw [encode_blockRow (readInt_sct_lt blk), idBytes_idOperandsOf (by omega)]
  · intro std slot bytes i h
    rw [decode_pack] at h
    obtain ⟨pc0, pc1, pc2, pc3, pc4, rfl⟩ := bytes_of_decodePackItem h
    rw [decodePackItem_eq_packRow] at h
    cases h
    exact encode_packRow std slot pc0 pc1 pc2 pc3 pc4

/-- Settles O18: row and DECODE deliver one answer, which holds no buffer. -/
theorem blkUnknownIsUnreadable : Obligations.BlkUnknownIsUnreadable := by
  intro s std pos id p i hp
  refine ⟨fun hi => ?_, fun b hi => ?_⟩
  · exact ⟨_, exec_unknownBlock (n := 5) (by decide) (by decide) hp hi s, bufs_deliver s rfl, served_deliver s _⟩
  · rcases BitVec.eq_zero_or_eq_one b with rfl | rfl
    · exact ⟨_, exec_unknownBlock (n := 6) (by decide) (by decide) hp hi s, bufs_deliver s rfl, served_deliver s _⟩
    · exact ⟨_, exec_unknownBlock (n := 7) (by decide) (by decide) hp hi s, bufs_deliver s rfl, served_deliver s _⟩

/-- Settles O23: both records have one block type, and the checks read the checked bits only. -/
theorem uncheckedBitsFlagNothing : Obligations.UncheckedBitsFlagNothing := by
  intro std pos pos' blk blk' rcd rcd' vs vs' h h' hsct hdseq hdbn hsyb hpacks
  obtain ⟨-, t, ht, rfl, rfl⟩ := answers_decode_cases h
  obtain ⟨-, t', ht', rfl, rfl⟩ := answers_decode_cases h'
  have hsct : readInt params blk (.id .sct) = readInt params blk' (.id .sct) := hsct
  obtain rfl : t = t' := Option.some.inj (by rw [← ht, ← ht', hsct])
  simp only [decodeRecord_body, decodeBody_type] at hsyb hpacks
  simp only [recordChecks, decodeRecord_id, decodeRecord_body, decodeBody_type]
  rw [checkId_congr t std (id := decodeId params blk) (id' := decodeId params blk') hdseq hdbn,
    bodyChecks_decodeBody_congr std hsyb hpacks]

/-- Settles O24: the fields of a block type are a chain from bit 0 to bit 640. -/
theorem everyBitIsInExactlyOneField : Obligations.EveryBitIsInExactlyOneField := by
  intro t
  simp only [firstBit_eq_fieldStart, covers_iff]
  refine ⟨chained_pairwise (order_chained t), fun k hk => ?_⟩
  obtain ⟨f, hf, hmem, huniq⟩ := chained_unique (order_chained t) (Nat.zero_le k) hk
  exact ⟨f, hf, hmem, fun g hg ⟨h1, h2⟩ => huniq g hg h1 h2⟩

/-- Settles O8. -/
theorem reservedOpsAreRefused : Obligations.ReservedOpsAreRefused := by
  intro s
  have h67 : ∀ b, ∃ t, exec (.reservedOp67 b) s = .next t ∧ Served s t (refusal .illegalOp) ∧ t.bufs = s.bufs :=
    fun b => served_of_exec_deliver rfl rfl
  have h8F : ∀ b, ∃ t, exec (.reservedOp8F b) s = .next t ∧ Served s t (refusal .illegalOp) ∧ t.bufs = s.bufs :=
    fun b => served_of_exec_deliver rfl rfl
  refine ⟨fun r hr => ⟨decodeRequest_reserved hr, ?_⟩, h67, h8F⟩
  have hexec : exec (decodeRequest r) s = .next (s.deliver (refusal .illegalOp)) := by
    rcases decodeRequest_reserved hr with ⟨b, e⟩ | ⟨b, e⟩ <;> rw [e] <;> rfl
  exact ⟨_, hexec, served_deliver s _, by simp, bufs_deliver s rfl⟩

/-- Settles O41. -/
theorem opSelectsOperationAndItsOperands : Obligations.OpSelectsOperationAndItsOperands := by
  intro r
  refine ⟨fun h => ?_, fun h => ?_, fun h => ?_, fun h => ?_, fun h => ?_, fun h => ?_, decodeRequest_reserved⟩
  all_goals
    unfold decodeRequest
    rw [h]
    rfl

/-- Settles O46. -/
theorem responsePortShowsTheResponse : Obligations.ResponsePortShowsTheResponse := by
  intro i s t r h hlog
  obtain ⟨hgiven, rfl⟩ := eq_deliver_of_log h hlog
  exact ⟨responseForm_isSome_of_given hgiven, deliver_statusPort s r, fun _ => deliver_resultPort s,
    fun _ => deliver_dataPort s, fun _ => deliver_decodePort s⟩

/-- Settles O51, clause by clause. -/
theorem linesPresentTheirRequests : Obligations.LinesPresentTheirRequests := by
  intro s b o w v pos std n es rcd
  refine ⟨fun d hd => ?_, fun hb => ?_, fun hlog => ?_, fun hlog => ?_, loggedRecord_eq_some_iff, rfl,
    fun e rcd' he => applyEdits_cons_ok he es, fun e f he => applyEdits_cons_error he es,
    fun f x => ⟨fun hf => applyEdits_int_of_none hf x, fun hf => applyEdits_int_of_isSome hf x⟩,
    fun f x => ⟨fun hf => applyEdits_bytes_of_none hf x, fun hf => applyEdits_bytes_of_isSome hf x⟩, fun item => rfl⟩
  · refine ⟨⟨_, congrArg some (readRequest_of_get? hd _), rfl⟩, ⟨_, congrArg some (readRequest_of_get? hd _), rfl⟩,
      ⟨_, congrArg some (writeRequest_of_get? hd _), rfl⟩, ⟨_, congrArg some (writeRequest_of_get? hd _), rfl⟩,
      ⟨_, congrArg some (readRequest_of_get? hd _), ?_⟩⟩
    cases std <;> rfl
  · simp only [List.forall_mem_cons, List.not_mem_nil, false_imp_iff, implies_true, and_true]
    exact ⟨congrArg some (readRequest_of_noBuffer hb _), congrArg some (readRequest_of_noBuffer hb _),
      congrArg some (writeRequest_of_noBuffer hb _), congrArg some (writeRequest_of_noBuffer hb _),
      congrArg some (readRequest_of_noBuffer hb _)⟩
  · have hrec := recordOperand_of_logged hlog
    refine ⟨⟨_, lineRequest_encode_ok (hrec []) b std, decodeRequest_encodeRequest std rcd⟩, fun rcd' he => ?_,
      fun f he => ?_⟩
    · exact ⟨_, lineRequest_encode_ok ((hrec es).trans he) b std, decodeRequest_encodeRequest std rcd'⟩
    · exact lineRequest_encode_error ((hrec es).trans he) b std
  · exact lineRequest_encode_error (recordOperand_of_notLogged hlog es) b std

/-- Settles O52. -/
theorem pseudoInstructionsExpand : Obligations.PseudoInstructionsExpand := by
  intro b k o h w v pos std d ref item
  refine ⟨⟨_, rfl, toNat_byteOffset k⟩, rfl, ⟨_, rfl, toNat_nibbleOffset k h⟩, ⟨_, rfl, toNat_byteOffset k⟩, rfl, rfl, ?_⟩
  simp only [List.forall_mem_cons, List.not_mem_nil, false_imp_iff, implies_true, and_true]
  exact ⟨rfl, rfl, rfl, rfl, rfl, rfl, rfl, rfl⟩

/-- Settles O56: six words of the table, decoded by evaluation. -/
theorem tableWordsDecode : Obligations.TableWordsDecode :=
  ⟨by decide, by decide, by decide, by decide, by decide, by decide⟩

end Sys2Proof.Proofs

/-! PROOFS. The statements of 40_bitfield_codec.md: what the codec answers in every case, its round-trip laws, the fields
that a decode reads through it, BCD fields, the order of the violations, and that every request has one answer. -/

namespace Sys2Proof.Machine

/-! ## Codec operations, case by case -/

theorem writeUnsigned_range {buf : Bytes} {o w : Nat} {v : Int} (hB : o + w ≤ 8 * buf.length)
    (hv : v < 0 ∨ 2 ^ w - 1 < v) : writeUnsigned buf o w v = .error (.range v w) := by
  have hr : inUnsignedRange w v = false := decide_eq_false (by omega)
  simp [writeUnsigned, inBounds, hB, hr]

theorem writeSigned_range {buf : Bytes} {o w : Nat} {v : Int} (hB : o + w ≤ 8 * buf.length)
    (hv : v < -(2 ^ (w - 1)) ∨ 2 ^ (w - 1) - 1 < v) : writeSigned buf o w v = .error (.range v w) := by
  have hr : inSignedRange w v = false := decide_eq_false (by omega)
  simp [writeSigned, inBounds, hB, hr]

/-- The bits of a replaced field, counted from its first (R81). -/
theorem bitAt_putBits_of_lt {buf : Bytes} {o w : Nat} (raw : Nat) (hB : o + w ≤ 8 * buf.length) {i : Nat} (hi : i < w) :
    bitAt (putBits buf o w raw) (o + i) = (raw >>> (w - 1 - i)) % 2 := by
  rw [bitAt_putBits _ _ _ _ (by omega), if_pos (by omega), Nat.add_sub_cancel_left]

theorem signedRaw_eq_toNat (w : Nat) (v : Int) : signedRaw w v = (if v < 0 then v + 2 ^ w else v).toNat := by
  unfold signedRaw
  split <;> rfl

section

variable {α : Type} {i : Instr} {s : State} {w : WidthWord} {d : Bytes} {op : Except ErrInfo α} {ok : α → Response}

/-- An admitted codec operation that raises completes with its error, and no buffer changes (R12). -/
theorem served_codec_error {info : ErrInfo} (hexec : exec i s = .next (s.deliver (codecResponse params w d op ok)))
    (hA : Admitted w.toNat d.length) (hop : op = .error info) :
    ∃ t, exec i s = .next t ∧ Served s t (raise info) ∧ t.bufs = s.bufs := by
  rw [codecResponse_of_admitted hA, hop] at hexec
  exact served_of_exec_deliver hexec rfl

/-- A codec operation that is not admitted completes with the refusal, and no buffer changes (R76). -/
theorem served_codec_refusal {reason : RefusalReason}
    (hexec : exec i s = .next (s.deliver (codecResponse params w d op ok)))
    (hadm : admission params w.toNat d.length = some reason) :
    ∃ t, exec i s = .next t ∧ Served s t (refusal reason) ∧ t.bufs = s.bufs := by
  simp only [codecResponse, hadm] at hexec
  exact served_of_exec_deliver hexec rfl

/-- The three cases that every codec operation ends in the same way: out of bounds, a width outside 1 to 32, and a buffer
too long (R76, R78). -/
theorem served_codec_rejected {o : Nat} (hexec : exec i s = .next (s.deliver (codecResponse params w d op ok)))
    (hbounds : ¬ o + w.toNat ≤ 8 * d.length → op = .error (.bounds o w.toNat d.length)) :
    (1 ≤ w.toNat → w.toNat ≤ 32 → d.length ≤ 2 ^ 29 → 8 * d.length < o + w.toNat →
      ∃ t, exec i s = .next t ∧ Served s t (raised .boundsError (.bounds o w.toNat d.length)) ∧ t.bufs = s.bufs) ∧
    (w.toNat < 1 ∨ 32 < w.toNat →
      ∃ t, exec i s = .next t ∧ Served s t (refusal .widthError) ∧ t.bufs = s.bufs) ∧
    (1 ≤ w.toNat → w.toNat ≤ 32 → 2 ^ 29 < d.length →
      ∃ t, exec i s = .next t ∧ Served s t (refusal .bufTooLong) ∧ t.bufs = s.bufs) :=
  ⟨fun h1 h32 hlen hB => served_codec_error hexec ⟨h1, h32, hlen⟩ (hbounds (not_le.2 hB)),
    fun hw => served_codec_refusal hexec (admit_width hw),
    fun h1 h32 hlen => served_codec_refusal hexec (admit_length h1 h32 hlen)⟩

/-- An admitted codec read that succeeds completes with its result, and no buffer changes (R79, R80). -/
theorem served_codec_read {x : α} {result : α → ResultWord}
    (hexec : exec i s = .next (s.deliver (codecResponse params w d op fun x => okResult (result x))))
    (hA : Admitted w.toNat d.length) (hop : op = .ok x) :
    ∃ t, exec i s = .next t ∧ Served s t (okResult (result x)) ∧ t.bufs = s.bufs := by
  rw [codecResponse_of_admitted hA, hop] at hexec
  exact served_of_exec_deliver hexec rfl

end

/-- An admitted codec write that succeeds completes with the buffer whose field holds the raw bits and whose other bits
are the data's; the harness collects it (R81, R82). -/
theorem served_codec_write {i : Instr} {s : State} {w : WidthWord} {o raw : Nat} {d : Bytes} {op : Except ErrInfo Bytes}
    (hexec : exec i s = .next (s.deliver (codecResponse params w d op okData))) (hA : Admitted w.toNat d.length)
    (hB : o + w.toNat ≤ 8 * d.length) (hop : op = .ok (putBits d o w.toNat raw)) :
    ∃ t d', exec i s = .next t ∧ Served s t (okData d') ∧ t.bufs = s.bufs.collect s.dest (okData d') ∧
      d'.length = d.length ∧ (∀ i < w.toNat, bitAt d' (o + i) = (raw >>> (w.toNat - 1 - i)) % 2) ∧
      ∀ k, ¬(o ≤ k ∧ k < o + w.toNat) → bitAt d' k = bitAt d k := by
  rw [codecResponse_of_admitted hA, hop] at hexec
  exact ⟨_, _, hexec, served_deliver s _, rfl, length_putBits .., fun i hi => bitAt_putBits_of_lt raw hB hi,
    fun k hk => bitAt_putBits_of_not_mem d o w.toNat raw hk⟩

/-! ## Result words -/

/-- A field of at most 32 bits, zero-extended, is its value (R61). -/
theorem toNat_ofNat_of_lt_two_pow {w n : Nat} (hw : w ≤ 32) (hn : n < 2 ^ w) : (BitVec.ofNat 32 n).toNat = n :=
  (BitVec.toNat_ofNat n 32).trans (Nat.mod_eq_of_lt (hn.trans_le (Nat.pow_le_pow_right (by decide) hw)))

/-- A two's-complement value of at most 32 bits, sign-extended, is itself (R62). -/
theorem toInt_ofInt_of_signedRange {w : Nat} {x : Int} (hw : w ≤ 32) (h0 : -(2 ^ (w - 1)) ≤ x)
    (h1 : x ≤ 2 ^ (w - 1) - 1) : (BitVec.ofInt 32 x).toInt = x := by
  have hpow : (2 : Int) ^ (w - 1) ≤ 2 ^ (32 - 1) := pow_le_pow_right₀ (by decide) (by omega)
  exact BitVec.toInt_ofInt_eq_self (by decide) (by omega) (by omega)

/-! ## The round-trip laws -/

/-- The field's bits that a codec write of this value stores (R84, R85). -/
def rawOf (sg : Bool) (w : WidthWord) (v : ValueWord) : Nat :=
  if sg then signedRaw w.toNat v.toInt else v.toInt.toNat

/-- The result that a codec read answers for a field with these raw bits (R79, R80). -/
def resultOf (sg : Bool) (w : WidthWord) (raw : Nat) : ResultWord :=
  if sg then BitVec.ofInt 32 (signedValue w.toNat raw) else BitVec.ofNat 32 raw

section

variable {sg : Bool} {w : WidthWord} {o : OffsetWord} {v : ValueWord} {d : Bytes}

/-- What a field served by the codec satisfies: admission, then the bounds (R76, R78). -/
theorem codecField_iff : CodecField w o d ↔ Admitted w.toNat d.length ∧ o.toNat + w.toNat ≤ 8 * d.length := by
  simp only [CodecField, Admitted, and_assoc]

/-- A codec write leaves every field a field that the codec serves. -/
theorem codecField_putBits (h : CodecField w o d) (o' w' raw : Nat) : CodecField w o (putBits d o' w' raw) := by
  simpa [CodecField] using h

theorem writtenAs_rawOf (h : InRange sg w v) : writtenAs sg w v (rawOf sg w v) := by
  cases sg <;> exact ⟨decide_eq_true h, rfl⟩

theorem rawOf_lt (hw : 1 ≤ w.toNat) (h : InRange sg w v) : rawOf sg w v < 2 ^ w.toNat := by
  cases sg with
  | false =>
    obtain ⟨h0, h1⟩ : 0 ≤ v.toInt ∧ v.toInt ≤ 2 ^ w.toNat - 1 := h
    show v.toInt.toNat < 2 ^ w.toNat
    zify
    omega
  | true => exact signedRaw_lt hw h.1 h.2

/-- What is stored for a value reads as the value (R87 (a)). -/
theorem resultOf_rawOf (hw : 1 ≤ w.toNat) (h : InRange sg w v) :
    resultOf sg w (rawOf sg w v) = BitVec.ofInt 32 v.toInt := by
  cases sg with
  | false =>
    obtain ⟨h0, -⟩ : 0 ≤ v.toInt ∧ v.toInt ≤ 2 ^ w.toNat - 1 := h
    show BitVec.ofNat 32 v.toInt.toNat = BitVec.ofInt 32 v.toInt
    rw [← BitVec.ofInt_natCast, Int.toNat_of_nonneg h0]
  | true => exact congrArg (BitVec.ofInt 32) (signedValue_signedRaw hw h.1 h.2)

/-- The result of an unsigned read on the value port is the field's value (R87 (b)). -/
theorem toInt_valueOf_unsigned {raw : Nat} (hw : w.toNat ≤ 32) (hraw : raw < 2 ^ w.toNat) :
    (valueOf false (resultOf false w raw)).toInt = raw := by
  have hn : (resultOf false w raw).toNat = raw := toNat_ofNat_of_lt_two_pow hw hraw
  have hlt : (resultOf false w raw).toNat < 2 ^ 32 := (resultOf false w raw).isLt
  show (BitVec.setWidth 64 (resultOf false w raw)).toInt = raw
  rw [BitVec.toInt_setWidth, hn, Int.bmod_eq_of_le] <;> omega

/-- The result of a signed read on the value port is the field's value (R87 (b)). -/
theorem toInt_valueOf_signed {raw : Nat} (hw1 : 1 ≤ w.toNat) (hw : w.toNat ≤ 32) (hraw : raw < 2 ^ w.toNat) :
    (valueOf true (resultOf true w raw)).toInt = signedValue w.toNat raw := by
  obtain ⟨h0, h1⟩ := signedValue_range hw1 hraw
  show (BitVec.signExtend 64 (BitVec.ofInt 32 (signedValue w.toNat raw))).toInt = _
  rw [BitVec.toInt_signExtend_of_le (by decide), toInt_ofInt_of_signedRange hw h0 h1]

/-- Writing back what a read answered stores the bits that were read (R87 (b)). -/
theorem writtenAs_valueOf_resultOf {raw : Nat} (hw1 : 1 ≤ w.toNat) (hw : w.toNat ≤ 32) (hraw : raw < 2 ^ w.toNat) :
    writtenAs sg w (valueOf sg (resultOf sg w raw)) raw := by
  cases sg with
  | false =>
    have hv := toInt_valueOf_unsigned hw hraw
    refine ⟨decide_eq_true ?_, by rw [hv, Int.toNat_natCast]⟩
    rw [hv]
    zify at hraw
    omega
  | true =>
    have hv := toInt_valueOf_signed hw1 hw hraw
    refine ⟨decide_eq_true ?_, by rw [hv, signedRaw_signedValue hw1 hraw]⟩
    rw [hv]
    exact signedValue_range hw1 hraw

/-- A codec read of an admitted field in bounds answers the result of its bits. -/
theorem answers_readInstr (h : CodecField w o d) :
    Answers (readInstr sg w o d) (okResult (resultOf sg w (fieldBits d o.toNat w.toNat))) := by
  obtain ⟨hA, hB⟩ := codecField_iff.1 h
  exact answers_read_iff.2 ⟨hA, hB, rfl⟩

/-- A codec write of a value in range to an admitted field in bounds answers the buffer with the field replaced. -/
theorem answers_writeInstr (h : CodecField w o d) (hv : InRange sg w v) :
    Answers (writeInstr sg w o v d) (okData (putBits d o.toNat w.toNat (rawOf sg w v))) := by
  obtain ⟨hA, hB⟩ := codecField_iff.1 h
  exact answers_write hA hB (writtenAs_rawOf hv)

/-- R87 (a): what a write of a value returned reads as the value. -/
theorem answers_read_of_written (h : CodecField w o d) (hv : InRange sg w v) :
    Answers (readInstr sg w o (putBits d o.toNat w.toNat (rawOf sg w v))) (okResult (BitVec.ofInt 32 v.toInt)) := by
  obtain ⟨⟨hw, -⟩, hB⟩ := codecField_iff.1 h
  have hread := answers_readInstr (sg := sg) (codecField_putBits h o.toNat w.toNat (rawOf sg w v))
  rwa [fieldBits_putBits_same hB (rawOf_lt hw hv), resultOf_rawOf hw hv] at hread

/-- R87 (b): writing back what a read answered returns the buffer unchanged. -/
theorem answers_write_of_read (h : CodecField w o d) :
    Answers (writeInstr sg w o (valueOf sg (resultOf sg w (fieldBits d o.toNat w.toNat))) d) (okData d) := by
  obtain ⟨⟨hw, hw32, hlen⟩, hB⟩ := codecField_iff.1 h
  have hwrite := answers_write ⟨hw, hw32, hlen⟩ hB
    (writtenAs_valueOf_resultOf (sg := sg) hw hw32 (fieldBits_lt d o.toNat w.toNat))
  rwa [putBits_fieldBits] at hwrite

end

/-! ## The fields that a decode reads -/

theorem width_int_le (f : IntField) : (params.layout.int f).width ≤ 32 := by
  show (intLoc f).width ≤ 32
  cases f with
  | id f => cases f <;> decide
  | header f => cases f <;> decide
  | ssyb k f => cases f <;> simp [intLoc, ssybLoc]
  | pack slot b => simp [intLoc]
  | video f => cases f <;> decide

/-- Inside a block, an integer field of its type is an admitted field in bounds, so FREAD.U answers it (R92). -/
theorem answers_freadU_of_field {blk : Bytes} {t : BlockType} {f : IntField} (hl : blk.length = 80)
    (hf : .int f ∈ params.layout.order t) :
    Answers (.freadU (BitVec.ofNat 6 (params.layout.int f).width) (BitVec.ofNat 32 (params.layout.int f).off) blk)
      (okResult (BitVec.ofNat 32 (readInt params blk f))) := by
  have hpos : (params.layout.int f).off < (params.layout.int f).off + (params.layout.int f).width :=
    fieldStart_lt_fieldEnd (.int f)
  have hend : (params.layout.int f).off + (params.layout.int f).width ≤ 640 := (chained_mem (order_chained t) hf).2
  exact answers_freadU_of_inBounds ⟨by omega, width_int_le f, by omega⟩ (by omega)

theorem getElem?_memRead (buf : Bytes) (a : Nat) {n i : Nat} (hi : i < n) : (memRead buf a n)[i]? = buf[a + i]? := by
  rw [memRead, List.getElem?_take_of_lt hi, List.getElem?_drop]

/-- A byte-sequence field of a block type lies in the block and has its length (R55). -/
theorem length_readBytes {blk : Bytes} {t : BlockType} {f : BytesField} (hl : blk.length = 80)
    (hf : .bytes f ∈ params.layout.order t) : (readBytes params blk f).length = (params.layout.bytes f).len := by
  have hend : 8 * ((params.layout.bytes f).byte + (params.layout.bytes f).len) ≤ 640 :=
    (chained_mem (order_chained t) hf).2
  exact length_memRead (by omega)

/-! ## BCD fields -/

/-- A BCD field is all ones exactly if each digit is (R90). -/
theorem digits_allOnes_iff (tw raw : Nat) : raw >>> 4 = 2 ^ tw - 1 ∧ raw % 16 = 0xF ↔ raw = 2 ^ (tw + 4) - 1 := by
  have hpos := Nat.two_pow_pos tw
  rw [Nat.pow_add, Nat.shiftRight_eq_div_pow]
  omega

/-- The typed value of a BCD field by its digits (R90, R91). -/
theorem typedBcd_eq_bcdTyped (raw tw lo hi : Nat) : typedBcd raw tw lo hi = bcdTyped tw raw lo hi := by
  have hdiv : raw >>> 4 = raw / 16 := Nat.shiftRight_eq_div_pow raw 4
  by_cases hones : raw = 2 ^ (tw + 4) - 1
  · rw [typedBcd, bcdTyped, if_pos hones, bcdView, if_pos ((digits_allOnes_iff tw raw).2 hones)]
  · rw [typedBcd, bcdTyped, if_neg hones, bcdView, if_neg (mt (digits_allOnes_iff tw raw).1 hones), hdiv]
    by_cases hdigit : 9 < raw % 16 ∨ 9 < raw / 16
    · rw [if_pos hdigit, if_neg (by omega)]
    · rw [if_neg hdigit]
      exact if_congr (by omega) rfl rfl

/-- The check of a BCD field flags its raw value exactly if its typed value is flagged (R91). -/
theorem bcdCheck_eq_bcdViolation (path : FieldPath) (raw tw lo hi offset : Nat) :
    bcdCheck path raw tw lo hi offset = bcdViolation path tw raw lo hi offset := by
  rw [bcdCheck, bcdViolation, ← typedBcd_eq_bcdTyped]
  cases ht : typedBcd raw tw lo hi with
  | flagged r => rw [typedBcd_flagged ht]
  | value n => rfl
  | absent => rfl

/-! ## The order of the violations -/

/-- The violations stand by strictly increasing bit offset, from bit `a` on and before bit `b` (R94). -/
structure IncreasingIn (a b : Nat) (vs : List Violation) : Prop where
  range_le : a ≤ b
  increasing : vs.Pairwise fun v v' => v.offset.toNat < v'.offset.toNat
  mem_range : ∀ v ∈ vs, a ≤ v.offset.toNat ∧ v.offset.toNat < b

theorem increasingIn_nil {a b : Nat} (h : a ≤ b) : IncreasingIn a b [] := ⟨h, .nil, by simp⟩

theorem increasingIn_mono {a b a' b' : Nat} {vs : List Violation} (h : IncreasingIn a b vs) (ha : a' ≤ a)
    (hb : b ≤ b') : IncreasingIn a' b' vs :=
  ⟨ha.trans (h.range_le.trans hb), h.increasing, fun v hv =>
    ⟨ha.trans (h.mem_range v hv).1, (h.mem_range v hv).2.trans_le hb⟩⟩

/-- Violations of one range, then those of the next. -/
theorem increasingIn_append {a m b : Nat} {vs vs' : List Violation} (h : IncreasingIn a m vs)
    (h' : IncreasingIn m b vs') : IncreasingIn a b (vs ++ vs') where
  range_le := h.range_le.trans h'.range_le
  increasing := List.pairwise_append.2 ⟨h.increasing, h'.increasing, fun v hv v' hv' =>
    (h.mem_range v hv).2.trans_le (h'.mem_range v' hv').1⟩
  mem_range v hv := by
    rcases List.mem_append.1 hv with hv | hv
    · exact (increasingIn_mono h le_rfl h'.range_le).mem_range v hv
    · exact (increasingIn_mono h' h.range_le le_rfl).mem_range v hv

/-- The violations of parts that stand one after the other, each `n` bits long. -/
theorem increasingIn_flatMap {α : Type} {l : List α} {checks : α → List Violation} {start : α → Nat} {n a b : Nat}
    (hab : a ≤ b) (hl : l.Pairwise fun i j => start i + n ≤ start j)
    (hin : ∀ i ∈ l, a ≤ start i ∧ start i + n ≤ b) (h : ∀ i, IncreasingIn (start i) (start i + n) (checks i)) :
    IncreasingIn a b (l.flatMap checks) where
  range_le := hab
  increasing := List.pairwise_flatMap.2 ⟨fun i _ => (h i).increasing, hl.imp fun hij v hv v' hv' =>
    ((h _).mem_range v hv).2.trans_le (hij.trans ((h _).mem_range v' hv').1)⟩
  mem_range v hv := by
    obtain ⟨i, hi, hv⟩ := List.mem_flatMap.1 hv
    obtain ⟨ha, hb⟩ := hin i hi
    exact (increasingIn_mono (h i) ha hb).mem_range v hv

theorem increasingIn_malformed {a b offset : Nat} (path : FieldPath) (raw : Nat) (ha : a ≤ offset) (hb : offset < b)
    (h : b ≤ 640) : IncreasingIn a b [malformed path raw offset] := by
  have hoff : (malformed path raw offset).offset.toNat = offset :=
    (BitVec.toNat_ofNat offset 32).trans (Nat.mod_eq_of_lt (by omega))
  refine ⟨by omega, List.pairwise_singleton .., fun v hv => ?_⟩
  rw [List.mem_singleton.1 hv, hoff]
  exact ⟨ha, hb⟩

theorem increasingIn_flagIf {a b offset : Nat} (bad : Bool) (path : FieldPath) (raw : Nat) (ha : a ≤ offset)
    (hb : offset < b) (h : b ≤ 640) : IncreasingIn a b (flagIf bad path raw offset) := by
  cases bad with
  | false => exact increasingIn_nil (by omega)
  | true => exact increasingIn_malformed path raw ha hb h

/-- The check of a BCD field of a pack flags it at its place in the block, or not at all. -/
theorem increasingIn_packCheck (a b : Nat) {slot : PackSlot} {p : Pack} {loc : FieldLoc} {path : FieldPath} {lo hi : Nat}
    (h : a ≤ loc.off ∧ loc.off < b ∧ b ≤ 40) :
    IncreasingIn (8 * packByte slot + a) (8 * packByte slot + b) (packCheck params slot p loc path lo hi) := by
  obtain ⟨ha, hb, hb40⟩ := h
  have hslot := packByte_le slot
  unfold packCheck bcdCheck
  split
  · exact increasingIn_malformed _ _ (Nat.add_le_add_left ha _) (Nat.add_lt_add_left hb _) (by omega)
  · exact increasingIn_nil (by omega)
  · exact increasingIn_nil (by omega)

/-- The checks of a pack flag fields of the pack, in order (R139): no two checked digits start in one byte. -/
theorem increasingIn_packChecks (std : Std) (slot : PackSlot) (p : Pack) :
    IncreasingIn (8 * packByte slot) (8 * packByte slot + 40) (packChecks params std slot p) := by
  unfold packChecks
  split
  · exact increasingIn_append (increasingIn_append (increasingIn_append (increasingIn_packCheck 0 16 (by decide))
      (increasingIn_packCheck 16 24 (by decide))) (increasingIn_packCheck 24 32 (by decide)))
      (increasingIn_packCheck 32 40 (by decide))
  · exact increasingIn_append (increasingIn_append (increasingIn_packCheck 0 24 (by decide))
      (increasingIn_packCheck 24 32 (by decide))) (increasingIn_packCheck 32 40 (by decide))
  · exact increasingIn_append (increasingIn_append (increasingIn_append (increasingIn_packCheck 0 16 (by decide))
      (increasingIn_packCheck 16 24 (by decide))) (increasingIn_packCheck 24 32 (by decide)))
      (increasingIn_packCheck 32 40 (by decide))
  · exact increasingIn_nil (by omega)
  · exact increasingIn_nil (by omega)

/-- The checks of an SSYB flag its `syb`, then fields of its pack (R120). -/
theorem increasingIn_ssybChecks (std : Std) (k : Fin 6) (y : Ssyb) :
    IncreasingIn (8 * ssybByte k) (8 * ssybByte k + 64) (ssybChecks params std k y) := by
  have hk : ssybByte k = 3 + 8 * k.val := rfl
  refine increasingIn_append (m := 8 * packByte (.ssyb k)) (increasingIn_flagIf _ _ _ ?_ ?_ ?_)
    (increasingIn_packChecks std (.ssyb k) y.pack)
  · exact Nat.le_add_right _ 12
  · show 8 * ssybByte k + 12 < 8 * (ssybByte k + 3)
    omega
  · show 8 * (ssybByte k + 3) ≤ 640
    omega

/-- The ID checks flag `dseq`, then `dbn` (R98). -/
theorem increasingIn_checkId (id : BlockId) (t : BlockType) (std : Std) :
    IncreasingIn 0 24 (checkId params id t std) :=
  increasingIn_append (m := 16) (increasingIn_flagIf _ _ _ (by decide) (by decide) (by decide))
    (increasingIn_flagIf _ _ _ (by decide) (by decide) (by decide))

/-- The checks of a body flag fields after the ID, part by part (R120, R122, R124). -/
theorem increasingIn_bodyChecks (std : Std) (b : Body) : IncreasingIn 24 640 (bodyChecks params std b) := by
  cases b with
  | header b => exact increasingIn_nil (by decide)
  | subcode b =>
    exact increasingIn_flatMap (start := fun k => 8 * ssybByte k) (n := 64) (by decide) (by decide) (by decide)
      fun k => increasingIn_ssybChecks std k b.ssyb[k]
  | vaux b =>
    exact increasingIn_flatMap (start := fun i => 8 * packByte (.vaux i)) (n := 40) (by decide) (by decide) (by decide)
      fun i => increasingIn_packChecks std (.vaux i) b.pack[i]
  | audio b => exact increasingIn_mono (increasingIn_packChecks std .aaux b.aaux) (by decide) (by decide)
  | video b => exact increasingIn_nil (by decide)

/-- The violations of a record stand by strictly increasing bit offset, all within the block (R94). -/
theorem increasingIn_recordChecks (std : Std) (r : DecodedBlock) : IncreasingIn 0 640 (recordChecks params std r) :=
  increasingIn_append (increasingIn_checkId r.id r.body.type std) (increasingIn_bodyChecks std r.body)

/-! ## The status of a request -/

/-- The status that a codec operation's outcome has, once it is admitted (R161). -/
def outcomeStatus {α : Type} : Except ErrInfo α → Status
  | .ok _       => .ok
  | .error info => .error (errorOf info)

/-- The status of a codec operation: width, length, and then its outcome (R86). -/
theorem status_codecResponse {α : Type} (w : WidthWord) (d : Bytes) (op : Except ErrInfo α) {ok : α → Response}
    (hok : ∀ x, (ok x).status = statusCode .ok) :
    (codecResponse params w d op ok).status = statusCode (if w.toNat < 1 ∨ 32 < w.toNat then .refused .widthError
      else if 2 ^ 29 < d.length then .refused .bufTooLong else outcomeStatus op) := by
  by_cases hw : w.toNat < 1 ∨ 32 < w.toNat
  · simp only [codecResponse, admit_width hw, if_pos hw, refusal]
  · by_cases hlen : 2 ^ 29 < d.length
    · have hadm : admission params w.toNat d.length = some .bufTooLong := admit_length (by omega) (by omega) hlen
      simp only [codecResponse, hadm, if_neg hw, if_pos hlen, refusal]
    · rw [codecResponse_of_admitted ⟨by omega, by omega, by omega⟩, if_neg hw, if_neg hlen]
      cases op with
      | ok x => exact hok x
      | error info => rfl

theorem outcomeStatus_readUnsigned (d : Bytes) (o w : Nat) :
    outcomeStatus (readUnsigned d o w) = if 8 * d.length < o + w then .error .boundsError else .ok := by
  by_cases hB : o + w ≤ 8 * d.length
  · rw [readUnsigned_ok hB, if_neg (by omega)]; rfl
  · rw [readUnsigned_bounds hB, if_pos (by omega)]; rfl

theorem outcomeStatus_readSigned (d : Bytes) (o w : Nat) :
    outcomeStatus (readSigned d o w) = if 8 * d.length < o + w then .error .boundsError else .ok := by
  by_cases hB : o + w ≤ 8 * d.length
  · rw [readSigned_ok hB, if_neg (by omega)]; rfl
  · rw [readSigned_bounds hB, if_pos (by omega)]; rfl

theorem outcomeStatus_writeUnsigned (d : Bytes) (o w : Nat) (v : Int) :
    outcomeStatus (writeUnsigned d o w v) = if 8 * d.length < o + w then .error .boundsError
      else if v < 0 ∨ 2 ^ w ≤ v then .error .rangeError else .ok := by
  by_cases hB : o + w ≤ 8 * d.length
  · rw [if_neg (by omega)]
    by_cases hv : v < 0 ∨ 2 ^ w ≤ v
    · rw [writeUnsigned_range hB (by omega), if_pos hv]; rfl
    · rw [writeUnsigned_ok hB (by omega) (by omega), if_neg hv]; rfl
  · rw [writeUnsigned_bounds hB, if_pos (by omega)]; rfl

theorem outcomeStatus_writeSigned (d : Bytes) (o w : Nat) (v : Int) :
    outcomeStatus (writeSigned d o w v) = if 8 * d.length < o + w then .error .boundsError
      else if v < -(2 ^ (w - 1)) ∨ 2 ^ (w - 1) ≤ v then .error .rangeError else .ok := by
  by_cases hB : o + w ≤ 8 * d.length
  · rw [if_neg (by omega)]
    by_cases hv : v < -(2 ^ (w - 1)) ∨ 2 ^ (w - 1) ≤ v
    · rw [writeSigned_range hB (by omega), if_pos hv]; rfl
    · rw [writeSigned_ok hB (by omega) (by omega), if_neg hv]; rfl
  · rw [writeSigned_bounds hB, if_pos (by omega)]; rfl

theorem sctMap_of_le {n : Nat} (h : n ≤ 4) : ∃ t, sctMap n = some t := by
  interval_cases n <;> exact ⟨_, rfl⟩

theorem sctMap_of_lt {n : Nat} (h : 4 < n) : sctMap n = none := by
  obtain ⟨k, rfl⟩ : ∃ k, n = k + 5 := ⟨n - 5, by omega⟩
  rfl

/-- The status of a DECODE: the length, and then the section type (R95 to R97). -/
theorem status_decodeBlock (std : Std) (pos : PosWord) (blk : Bytes) :
    (decodeBlock params std pos blk).status = statusCode (if 80 < blk.length then .refused .lengthError
      else if blk.length < 80 then .error .boundsError
      else if 4 < fieldBits blk 0 3 then .error .unknownBlockType else .ok) := by
  rcases lt_trichotomy blk.length 80 with hl | hl | hl
  · rw [decodeBlock_short hl, if_neg (by omega), if_pos hl]; rfl
  · rw [if_neg (by omega), if_neg (by omega)]
    by_cases hsct : 4 < fieldBits blk 0 3
    · rw [decodeBlock_unknown hl (sctMap_of_lt hsct), if_pos hsct]; rfl
    · obtain ⟨t, ht⟩ := sctMap_of_le (not_lt.1 hsct)
      rw [decodeBlock_known hl ht, if_neg hsct]; rfl
  · rw [decodeBlock_long hl, if_pos hl]; rfl

/-- A field that does not fit is named with its value or its length (R150, R162). -/
theorem encodeField_error {P : Params} {r : DecodedBlock} {buf : Bytes} {f : RawField} {v : Nat}
    (hv : namedValue r f = some v) (hf : fieldFits P r f = false) (he : fieldEnd P f ≤ 8 * buf.length) :
    encodeField P r buf f = .error (.field (.raw f) v) := by
  cases f with
  | int f =>
    have hv : recGetInt r f = some v := hv
    simp only [fieldFits, hv, decide_eq_false_iff_not] at hf
    simp only [encodeField, encodeInt, hv, writeUnsigned_nat he, if_neg hf]
  | bytes f =>
    obtain ⟨x, hx, rfl⟩ := Option.map_eq_some_iff.1 hv
    simp only [fieldFits, hx, beq_eq_false_iff_ne] at hf
    simp only [encodeField, encodeBytes, hx, if_pos hf]

/-- The loop stops at the first field that does not fit (R151). -/
theorem encodeFields_of_first_failing {P : Params} {r : DecodedBlock} {pre post : List RawField} {f : RawField}
    {lo hi v : Nat} {buf : Bytes} (hc : chained P (pre ++ f :: post) lo hi = true)
    (hpre : ∀ g ∈ pre, fieldFits P r g = true) (hf : fieldFits P r f = false) (hv : namedValue r f = some v)
    (hb : hi ≤ 8 * buf.length) : encodeFields P r (pre ++ f :: post) buf = .error (.field (.raw f) v) := by
  obtain ⟨m, hcpre, hcpost⟩ := chained_append hc
  obtain ⟨buf', hok, hlen, -, -⟩ := encodeFields_ok hcpre hpre ((chained_le hcpost).trans hb)
  have hend := (chained_mem hcpost (List.mem_cons_self ..)).2
  have herr : encodeField P r buf' f = .error (.field (.raw f) v) := encodeField_error hv hf (by omega)
  rw [encodeFields_append hok]
  simp only [encodeFields, herr]

/-- ENCODE raises what its loop over the fields raises (R151). -/
theorem encodeBlock_of_error {P : Params} {std : Std} {r : DecodedBlock} {info : ErrInfo}
    (hm : recordMatches P r = true)
    (h : encodeFields P r (P.layout.order r.body.type) (List.replicate (P.blockBytes std) 0) = .error info) :
    encodeBlock P std r = raise info := by
  simp only [encodeBlock, hm, if_true, h]

/-- ENCODE of a record that agrees with its `sct` and does not fit raises for its first field that does not fit (R150). -/
theorem encodeBlock_of_not_fits {std : Std} {r : DecodedBlock} (hm : recordMatches params r = true)
    (hfits : recordFits params r = false) : ∃ f v, encodeBlock params std r = raise (.field (.raw f) v) := by
  have hall : ¬ ∀ f ∈ params.layout.order r.body.type, fieldFits params r f = true := fun hall => by
    rw [recordFits, hm, List.all_eq_true.2 hall] at hfits
    cases hfits
  obtain ⟨pre, f, post, hsplit, hpre, hf⟩ := exists_first_failing _ _ hall
  obtain ⟨v, hv⟩ := exists_namedValue r (f := f) (by rw [hsplit]; simp)
  have hc := order_chained r.body.type
  rw [hsplit] at hc
  have herr := encodeFields_of_first_failing (buf := List.replicate 80 0) hc hpre hf hv (by simp)
  rw [← hsplit] at herr
  exact ⟨f, v, encodeBlock_of_error hm herr⟩

/-- The status of an ENCODE: the section type, and then the fields (R150). -/
theorem status_encodeBlock (std : Std) (r : DecodedBlock) :
    (encodeBlock params std r).status = statusCode (if recordMatches params r = false then .refused .badRecord
      else if recordFits params r = false then .error .rangeError else .ok) := by
  cases hm : recordMatches params r with
  | false => rw [encodeBlock, hm]; rfl
  | true =>
    cases hfits : recordFits params r with
    | false =>
      obtain ⟨f, v, h⟩ := encodeBlock_of_not_fits (std := std) hm hfits
      rw [h]; rfl
    | true =>
      obtain ⟨blk, h, -⟩ := encodeBlock_fits (std := std) hfits
      rw [h]; rfl

end Sys2Proof.Machine

namespace Sys2Proof.Proofs

open Sys2Proof.Machine

/-- Settles O1. -/
theorem freadUAnswersFieldZeroExtended : Obligations.FreadUAnswersFieldZeroExtended := by
  refine ⟨fun r => ?_, fun s w o d => ⟨fun h1 h32 hlen hB => ?_, served_codec_rejected rfl readUnsigned_bounds⟩⟩
  · obtain ⟨hop, -⟩ := opSelectsOperationAndItsOperands r
    exact hop
  · obtain ⟨t, hexec, hserved, hbufs⟩ :=
      served_codec_read (i := .freadU w o d) (s := s) rfl ⟨h1, h32, hlen⟩ (readUnsigned_ok hB)
    exact ⟨t, _, hexec, hserved, hbufs, toNat_ofNat_of_lt_two_pow h32 (fieldBits_lt d o.toNat w.toNat)⟩

/-- Settles O2. -/
theorem freadSAnswersFieldSignExtended : Obligations.FreadSAnswersFieldSignExtended := by
  refine ⟨fun r => ?_, fun s w o d => ⟨fun h1 h32 hlen hB => ?_, served_codec_rejected rfl readSigned_bounds⟩⟩
  · obtain ⟨-, hop, -⟩ := opSelectsOperationAndItsOperands r
    exact hop
  · obtain ⟨t, hexec, hserved, hbufs⟩ :=
      served_codec_read (i := .freadS w o d) (s := s) rfl ⟨h1, h32, hlen⟩ (readSigned_ok hB)
    obtain ⟨hlo, hhi⟩ := signedValue_range h1 (fieldBits_lt d o.toNat w.toNat)
    exact ⟨t, _, hexec, hserved, hbufs, toInt_ofInt_of_signedRange h32 hlo hhi⟩

/-- Settles O3. -/
theorem fwriteUReturnsBufferWithFieldReplaced : Obligations.FwriteUReturnsBufferWithFieldReplaced := by
  refine ⟨fun r => ?_, fun s w o v d => ⟨fun h1 h32 hlen hB h0 hv => ?_, fun h1 h32 hlen hB hv => ?_,
    served_codec_rejected rfl writeUnsigned_bounds⟩⟩
  · obtain ⟨-, -, hop, -⟩ := opSelectsOperationAndItsOperands r
    exact hop
  · exact served_codec_write rfl ⟨h1, h32, hlen⟩ hB (writeUnsigned_ok hB h0 hv)
  · exact served_codec_error rfl ⟨h1, h32, hlen⟩ (writeUnsigned_range hB hv)

/-- Settles O4. -/
theorem fwriteSReturnsBufferWithFieldReplaced : Obligations.FwriteSReturnsBufferWithFieldReplaced := by
  refine ⟨fun r => ?_, fun s w o v d => ⟨fun h1 h32 hlen hB hlo hhi => ?_, fun h1 h32 hlen hB hv => ?_,
    served_codec_rejected rfl writeSigned_bounds⟩⟩
  · obtain ⟨-, -, -, hop, -⟩ := opSelectsOperationAndItsOperands r
    exact hop
  · rw [← signedRaw_eq_toNat]
    exact served_codec_write rfl ⟨h1, h32, hlen⟩ hB (writeSigned_ok hB hlo hhi)
  · exact served_codec_error rfl ⟨h1, h32, hlen⟩ (writeSigned_range hB hv)

/-- Settles O5. -/
theorem fieldBitsAreBitsMostSignificantFirst : Obligations.FieldBitsAreBitsMostSignificantFirst := by
  intro buf o w
  refine ⟨rfl, fieldBits_lt buf o w, fun i hi => ?_, fun _ => rfl, fieldBits_add buf o w⟩
  rw [Nat.testBit_eq_decide_div_mod_eq, ← Nat.shiftRight_eq_div_pow, fieldBits_bit buf o hi]
  rfl

/-- Settles O7, law by law, on the buffers and results that the instructions answer. -/
theorem codecRoundTripLaws : Obligations.CodecRoundTripLaws := by
  intro sg w o d h
  refine ⟨fun v hv => ⟨_, answers_writeInstr h hv, answers_read_of_written h hv⟩,
    ⟨_, answers_readInstr h, answers_write_of_read h⟩, fun sg' w' o' v h' hdisj hv => ⟨fun v' hv' => ?_, ?_⟩⟩
  · have hback := answers_writeInstr (codecField_putBits h o'.toNat w'.toNat (rawOf sg' w' v')) hv
    rw [putBits_comm hdisj.symm] at hback
    exact ⟨_, _, _, answers_writeInstr h hv, answers_writeInstr (codecField_putBits h' _ _ _) hv',
      answers_writeInstr h' hv', hback⟩
  · have hread := answers_readInstr (sg := sg') (codecField_putBits h' o.toNat w.toNat (rawOf sg w v))
    rw [fieldBits_putBits_disjoint d hdisj.symm] at hread
    exact ⟨_, _, answers_writeInstr h hv, answers_readInstr h', hread⟩

/-- Settles O20. -/
theorem decodeReadsFieldsAsFreadU : Obligations.DecodeReadsFieldsAsFreadU := by
  intro blk t hl
  refine ⟨fun f hf => ⟨answers_freadU_of_field hl hf, decodeRecord_holds t blk hf⟩, fun f hf => ?_⟩
  have hlen := length_readBytes hl hf
  exact ⟨_, decodeRecord_holds t blk hf, hlen, fun i hi => getElem?_memRead blk _ (hlen ▸ hi)⟩

/-- Settles O21: the checks are made part by part, and each part flags fields of its own range of bits. -/
theorem violationsInOffsetOrder : Obligations.ViolationsInOffsetOrder := by
  intro std pos blk rcd vs h
  obtain ⟨-, t, -, -, rfl⟩ := answers_decode_cases h
  have hinc := increasingIn_recordChecks std rcd
  exact ⟨hinc.increasing, fun v hv => (hinc.mem_range v hv).2⟩

/-- Settles O28. -/
theorem bcdFieldsAreTypedByTheirDigits : Obligations.BcdFieldsAreTypedByTheirDigits :=
  fun tw raw lo hi offset path _ _ _ =>
    ⟨typedBcd_eq_bcdTyped raw tw lo hi, bcdCheck_eq_bcdViolation path raw tw lo hi offset⟩

/-- Settles O42, by the operation that the op selects. -/
theorem requestStatusByPriority : Obligations.RequestStatusByPriority := by
  intro s r
  suffices h : ∃ resp : Response, exec (decodeRequest r) s = .next (s.deliver resp) ∧
      resp.status = statusCode (requestStatus r) by
    obtain ⟨resp, hexec, hstatus⟩ := h
    exact ⟨_, resp, hexec, rfl, hstatus⟩
  obtain ⟨h0, h1, h2, h3, h4, h5, h6⟩ := opSelectsOperationAndItsOperands r
  have hop : r.op = 0 ∨ r.op = 1 ∨ r.op = 2 ∨ r.op = 3 ∨ r.op = 4 ∨ r.op = 5 ∨ 6 ≤ r.op.toNat := by bv_omega
  rcases hop with e | e | e | e | e | e | e
  · refine ⟨freadU params r.width r.offset r.data, by rw [h0 e]; rfl, ?_⟩
    rw [freadU, status_codecResponse _ _ _ fun _ => rfl, outcomeStatus_readUnsigned]
    simp [requestStatus, e]
  · refine ⟨freadS params r.width r.offset r.data, by rw [h1 e]; rfl, ?_⟩
    rw [freadS, status_codecResponse _ _ _ fun _ => rfl, outcomeStatus_readSigned]
    simp [requestStatus, e]
  · refine ⟨fwriteU params r.width r.offset r.value r.data, by rw [h2 e]; rfl, ?_⟩
    rw [fwriteU, status_codecResponse _ _ _ fun _ => rfl, outcomeStatus_writeUnsigned]
    simp [requestStatus, e]
  · refine ⟨fwriteS params r.width r.offset r.value r.data, by rw [h3 e]; rfl, ?_⟩
    rw [fwriteS, status_codecResponse _ _ _ fun _ => rfl, outcomeStatus_writeSigned]
    simp [requestStatus, e]
  · refine ⟨decodeBlock params _ r.pos r.data, by rw [h4 e]; rfl, ?_⟩
    rw [status_decodeBlock]
    simp [requestStatus, e]
  · refine ⟨encodeBlock params _ r.record, by rw [h5 e]; rfl, ?_⟩
    rw [status_encodeBlock]
    simp [requestStatus, e]
  · refine ⟨refusal .illegalOp, ?_, by simp [requestStatus, e, refusal]⟩
    rcases h6 e with ⟨b, hb⟩ | ⟨b, hb⟩ <;> rw [hb] <;> rfl

/-- Settles O44. -/
theorem everyRequestHasOneResponse : Obligations.EveryRequestHasOneResponse := by
  intro q
  obtain ⟨r, -, -, hexec⟩ := exec_request q
  exact ⟨r, fun s => ⟨_, hexec s, served_deliver s r⟩⟩

/-- Settles O45, by the two shapes of a row's answer. -/
theorem everyInstructionHasOneAnswer : Obligations.EveryInstructionHasOneAnswer := by
  intro i
  rcases exec_row i with ⟨hi, r, -, hexec⟩ | ⟨hi, p, hexec⟩
  · refine ⟨fun _ => ⟨r, fun s => ⟨_, hexec s, rfl, rfl, rfl⟩⟩, fun hp => ?_⟩
    rw [hi] at hp; cases hp
  · refine ⟨fun hp => ?_, fun _ => ⟨p, fun s => ⟨_, hexec s, rfl, rfl, rfl⟩⟩⟩
    rw [hi] at hp; cases hp

end Sys2Proof.Proofs

/-! PROOFS. The statements of 41_block_dispatch.md: what DECODE answers in every case, the rows it dispatches to, the ID
fields and their checks, and what a decoded record depends on. -/

namespace Sys2Proof.Machine

/-! ## The dispatch -/

/-- The mapped section types, listed by their `sct` (R56). -/
theorem sctMap_eq_getElem? (n : Nat) : sctMap n = [BlockType.header, .subcode, .vaux, .audio, .video][n]? := by
  rcases lt_or_ge 4 n with h | h
  · rw [sctMap_of_lt h]
    exact (List.getElem?_eq_none h).symm
  · interval_cases n <;> rfl

theorem exec_decode (std : Std) (pos : PosWord) (blk : Bytes) (s : State) :
    exec (.decode std pos blk) s = .next (s.deliver (decodeBlock params std pos blk)) := rfl

/-- Every block-type row does what DECODE does with the block that its operands make, whatever the length: the section
decoder, or the answer for an unmapped `sct`, that DECODE selects is the row's own (R97). -/
theorem exec_blockRow {n : Nat} (hn : n < 8) (std : Std) (pos : PosWord) (id : IdOperands) (p : Bytes) (s : State) :
    exec (blockRow n std pos id p) s = exec (.decode std pos (idBytes n id ++ p)) s := by
  have hsct : readInt params (idBytes n id ++ p) (.id .sct) = n := readInt_idBytes hn id p .sct
  rw [exec_decode, decodeBlock, hsct]
  interval_cases n <;> rfl

/-- The rows of format `DIFID` are those of the eight values of `sct` (R56, R66). -/
theorem exists_blockRow_of_mem {std : Std} {pos : PosWord} {id : IdOperands} {p : Bytes} {b : BitVec 1} {i : Instr}
    (h : i ∈ [Instr.blkHeader std pos id p, .blkSubcode std pos id p, .blkVaux std pos id p, .blkAudio std pos id p,
      .blkVideo std pos id p, .blkUnknown5 std pos id p, .blkUnknown67 b std pos id p]) :
    ∃ n < 8, i = blockRow n std pos id p := by
  simp only [List.mem_cons, List.not_mem_nil, or_false] at h
  rcases h with rfl | rfl | rfl | rfl | rfl | rfl | rfl
  · exact ⟨0, by decide, rfl⟩
  · exact ⟨1, by decide, rfl⟩
  · exact ⟨2, by decide, rfl⟩
  · exact ⟨3, by decide, rfl⟩
  · exact ⟨4, by decide, rfl⟩
  · exact ⟨5, by decide, rfl⟩
  · exact ⟨6 + b.toNat, by omega, (blockRow_unknown67 b std pos id p).symm⟩

/-- DECODE completes with its answer in every state, and no buffer changes (R95). -/
theorem served_decode {std : Std} {pos : PosWord} {blk : Bytes} {r : Response}
    (h : decodeBlock params std pos blk = r) (s : State) :
    ∃ t, exec (.decode std pos blk) s = .next t ∧ Served s t r ∧ t.bufs = s.bufs := by
  subst h
  exact served_of_exec_deliver (exec_decode std pos blk s) (data_decodeBlock std pos blk)

/-! ## The record of a block -/

/-- Blocks with one record are equal: it has one block type and holds every field of both, and these cover a block. -/
theorem eq_of_decodeRecord_eq {t t' : BlockType} {blk blk' : Bytes} (hl : blk.length = 80) (hl' : blk'.length = 80)
    (h : decodeRecord params t blk = decodeRecord params t' blk') : blk = blk' := by
  obtain rfl : t = t' := by simpa using congrArg (fun r => r.body.type) h
  refine block_ext (t := t) hl hl' fun f hf => sameField_of_holds (decodeRecord_holds t blk hf) ?_
  rw [h]
  exact decodeRecord_holds t blk' hf

/-! ## The ID checks -/

/-- The ID checks are those of R98, with the limits of R7 and the offsets of R54. -/
theorem checkId_eq_idViolations (id : BlockId) (t : BlockType) (std : Std) :
    checkId params id t std = idViolations std (numDbn t) id.dseq id.dbn := by
  simp only [checkId, flagIf, decide_eq_true_eq]
  cases std <;> rfl

end Sys2Proof.Machine

namespace Sys2Proof.Proofs

open Sys2Proof.Machine

/-- Settles O10: the length, and then the section type. -/
theorem decodeAnswersByLengthThenSectionType : Obligations.DecodeAnswersByLengthThenSectionType := by
  refine ⟨fun r => ?_, fun s std pos blk => ⟨fun hl => served_decode (decodeBlock_long hl) s,
    fun hl => served_decode (decodeBlock_short hl) s, fun hl h5 => ?_, fun hl h4 => ?_⟩⟩
  · obtain ⟨-, -, -, -, hop, -⟩ := opSelectsOperationAndItsOperands r
    exact hop
  · exact served_decode (decodeBlock_unknown hl (sctMap_of_lt h5)) s
  · obtain ⟨t, ht⟩ := sctMap_of_le h4
    obtain ⟨s', hexec, hserved, hbufs⟩ := served_decode (std := std) (pos := pos) (decodeBlock_known hl ht) s
    refine ⟨s', t, hexec, (sctMap_eq_getElem? _).symm.trans ht, ?_, hbufs⟩
    simpa only [decodedAs, recordChecks, decodeRecord, decodeBody_type] using hserved

/-- Settles O12: the row read from a block is run on its ID bytes and its section data, which are the block. -/
theorem decodeDispatchesToItsBlockRow : Obligations.DecodeDispatchesToItsBlockRow := by
  intro s std pos blk hl
  refine ⟨_, (decode_block ..).trans (decodeBlockItem_eq_blockRow std pos hl), ?_⟩
  rw [exec_blockRow (readInt_sct_lt blk), idBytes_idOperandsOf (by omega)]

/-- Settles O25: the record is read from the block alone, and the checks read the record and the standard. -/
theorem recordIndependentOfPositionAndStandard : Obligations.RecordIndependentOfPositionAndStandard := by
  intro std std' pos pos' blk rcd vs h
  obtain ⟨hl, t, ht, rfl, rfl⟩ := answers_decode_cases h
  exact ⟨answers_decode hl ht, _, answers_decode hl ht⟩

/-- Settles O26. -/
theorem distinctBlocksDecodeToDistinctRecords : Obligations.DistinctBlocksDecodeToDistinctRecords := by
  intro std pos blk blk' rcd vs vs' hl hl' h h'
  obtain ⟨-, t, -, hrcd, -⟩ := answers_decode_cases h
  obtain ⟨-, t', -, hrcd', -⟩ := answers_decode_cases h'
  exact eq_of_decodeRecord_eq hl hl' (hrcd.symm.trans hrcd')

/-- Settles O27, by the cases of DECODE. -/
theorem decodeAnswersOneVerdict : Obligations.DecodeAnswersOneVerdict := by
  intro s std pos blk hle
  obtain ⟨-, hshort, hunknown, hknown⟩ := decodeAnswersByLengthThenSectionType.2 s std pos blk
  rcases hle.lt_or_eq with hl | hl
  · obtain ⟨t, hexec, ⟨-, hresp, -⟩, -⟩ := hshort hl
    exact ⟨t, _, hexec, hresp, .inr ⟨_, _, rfl⟩⟩
  · rcases lt_or_ge 4 (fieldBits blk 0 3) with hsct | hsct
    · obtain ⟨t, hexec, ⟨-, hresp, -⟩, -⟩ := hunknown hl hsct
      exact ⟨t, _, hexec, hresp, .inr ⟨_, _, rfl⟩⟩
    · obtain ⟨t, bt, hexec, -, ⟨-, hresp, -⟩, -⟩ := hknown hl hsct
      exact ⟨t, _, hexec, hresp, .inl ⟨_, _, rfl⟩⟩

/-- Settles O11. -/
theorem idFieldsAndChecks : Obligations.IdFieldsAndChecks := by
  intro blk std bt
  refine ⟨rfl, (checkId_eq_idViolations ..).trans ?_⟩
  cases bt <;> rfl

/-- Settles O19: a row does what DECODE does with its block, whose ID is three bytes long. -/
theorem blkRowsCheckTheLengthFirst : Obligations.BlkRowsCheckTheLengthFirst := by
  intro s std pos id p b i hi
  obtain ⟨n, hn, rfl⟩ := exists_blockRow_of_mem hi
  have hl : (idBytes n id ++ p).length = 3 + p.length := by rw [List.length_append, length_idBytes]
  rw [exec_blockRow hn]
  exact ⟨fun hp => served_decode (decodeBlock_short (by omega)) s,
    fun hp => served_decode (decodeBlock_long (by omega)) s⟩

/-- Settles O38. -/
theorem identityOfADecodedBlock : Obligations.IdentityOfADecodedBlock := by
  refine ⟨fun b => rfl, fun std pos blk rcd vs h => ?_⟩
  obtain ⟨-, t, ht, rfl, -⟩ := answers_decode_cases h
  have htype : (identity (decodeRecord params t blk)).type = t := decodeBody_type params t blk
  exact ⟨by rw [htype, ← ht]; exact (sctMap_eq_getElem? _).symm, rfl⟩

end Sys2Proof.Proofs

/-! PROOFS. The statements of 42_section_decoders.md: the five section decoders, the packs presented by themselves, the
causes of violations, and the typed views of a decoded block. -/

namespace Sys2Proof.Machine

/-! ## The block rows of the mapped section types -/

/-- The ID of a block made of ID bytes and section data is what was put there (R98). -/
theorem decodeId_idBytes {n : Nat} (hn : n < 8) (id : IdOperands) (p : Bytes) :
    decodeId params (idBytes n id ++ p) = idRecord n id := by
  refine id_ext fun f => ?_
  rw [decodeId_get, readInt_idBytes hn]
  cases f <;> rfl

/-- A byte-sequence field stands at the end of its block, so it is the end of the section data (R55). -/
theorem readBytes_idBytes {p : Bytes} (hp : p.length = 77) (n : Nat) (id : IdOperands) (f : BytesField) :
    readBytes params (idBytes n id ++ p) f = p.drop ((bytesLoc f).byte - 3) := by
  have hf : 3 ≤ (bytesLoc f).byte ∧ (bytesLoc f).byte + (bytesLoc f).len = 80 := by cases f <;> decide
  obtain ⟨hbyte, hend⟩ := hf
  have hdrop : (idBytes n id ++ p).drop (bytesLoc f).byte = p.drop ((bytesLoc f).byte - 3) := by
    rw [List.drop_append, length_idBytes, List.drop_eq_nil_of_le (by rwa [length_idBytes]), List.nil_append]
  show ((idBytes n id ++ p).drop (bytesLoc f).byte).take (bytesLoc f).len = _
  rw [hdrop, List.take_of_length_le (by rw [List.length_drop]; omega)]

/-- The row of a mapped `sct`, and DECODE of its block, complete with the ID, the body that the section decoder reads, and
the ID checks' violations before the body's (R95, R97). -/
theorem served_blockRow {n : Nat} {t : BlockType} (ht : sctMap n = some t) {std : Std} {pos : PosWord} {id : IdOperands}
    {p : Bytes} {i : Instr} (hp : p.length = 77)
    (hi : i ∈ [blockRow n std pos id p, .decode std pos (idBytes n id ++ p)]) (s : State) :
    ∃ s', exec i s = .next s' ∧ s'.bufs = s.bufs ∧
      Served s s' (okDecoded ⟨idRecord n id, decodeBody params t (idBytes n id ++ p)⟩
        (idViolations std (numDbn t) id.dseq.toNat id.dbn.toNat ++
          bodyChecks params std (decodeBody params t (idBytes n id ++ p)))) := by
  have hn : n < 8 := by
    by_contra h
    rw [sctMap_of_lt (by omega)] at ht
    cases ht
  have hsct : readInt params (idBytes n id ++ p) (.id .sct) = n := readInt_idBytes hn id p .sct
  have hexec : exec i s = exec (.decode std pos (idBytes n id ++ p)) s := by
    rcases List.mem_pair.1 hi with rfl | rfl
    · exact exec_blockRow hn std pos id p s
    · rfl
  obtain ⟨s', hs', hserved, hbufs⟩ :=
    served_decode (std := std) (pos := pos) (decodeBlock_known (length_idBytes_append n id hp) (hsct ▸ ht)) s
  refine ⟨s', hexec.trans hs', hbufs, ?_⟩
  simpa only [decodedAs, recordChecks, decodeRecord, decodeBody_type, checkId_eq_idViolations, decodeId_idBytes hn,
    idRecord] using hserved

/-! ## The packs and SSYBs of a block -/

/-- The raw pack in a slot is the five bytes at its place (R118, R121, R123, R127). -/
theorem readPack_eq_packAt (blk : Bytes) (slot : PackSlot) :
    readPack params blk slot = packAt blk (slotByte slot) := by
  cases slot <;> rfl

/-- The checks of an SSYB, with the offset of its `syb` (R120). -/
theorem ssybChecks_eq (std : Std) (k : Fin 6) (y : Ssyb) :
    ssybChecks params std k y =
      (if 11 < y.syb then [malformed (.raw (.int (.ssyb k .syb))) y.syb (8 * (3 + 8 * k) + 12)] else []) ++
        packChecks params std (.ssyb k) y.pack := by
  simp only [ssybChecks, flagIf, decide_eq_true_eq]
  rfl

/-- The pack of a decoded body in a slot of its block type (R127). -/
theorem slotPack_decodeBody {t : BlockType} {slot : PackSlot} (h : slot ∈ slotsOf t) (blk : Bytes) :
    slotPack (decodeBody params t blk) slot = some (packAt blk (slotByte slot)) := by
  rw [← readPack_eq_packAt]
  cases t with
  | header => cases h
  | subcode =>
    obtain ⟨k, -, rfl⟩ := List.mem_map.1 h
    exact congrArg (fun y => some y.pack) (decodeSubcode_ssyb params blk k)
  | vaux =>
    obtain ⟨i, -, rfl⟩ := List.mem_map.1 h
    exact congrArg some (decodeVaux_pack params blk i)
  | audio => rw [List.mem_singleton.1 h]; rfl
  | video => cases h

/-! ## A pack presented by itself -/

/-- An instruction that delivers a pack result completes with it. -/
theorem packServed_of_exec_deliverPack {i : Instr} {s : State} {p q : PackResult}
    (h : exec i s = .next (s.deliverPack p)) (hpq : p = q) : ∃ t, exec i s = .next t ∧ PackServed s t q :=
  ⟨_, h, hpq ▸ packServed_deliverPack s p⟩

/-- A pack's row delivers the pack decoder's result on its five bytes (R127). -/
theorem exec_packRow (std : Std) (slot : PackSlot) (pc0 pc1 pc2 pc3 pc4 : Byte) (s : State) :
    exec (packRow std slot pc0 pc1 pc2 pc3 pc4) s =
      .next (s.deliverPack (packResult params std slot (packOf pc0 pc1 pc2 pc3 pc4))) := by
  have h : serve ⟨.pack std slot [pc0, pc1, pc2, pc3, pc4], none⟩ s =
      .next (s.deliverPack (packResult params std slot (packOf pc0 pc1 pc2 pc3 pc4))) := serve_pack ..
  simpa only [serve, decode_pack, decodePackItem_eq_packRow] using h

/-- The typed value of a BCD field of a pack, by its digits (R91). -/
theorem packTyped_eq_bcdTyped (p : Pack) (loc : FieldLoc) (lo hi : Nat) :
    packTyped p loc lo hi = bcdTyped (loc.width - 4) (packField p loc) lo hi :=
  typedBcd_eq_bcdTyped ..

/-- The check of a BCD field of a pack, by its digits (R91). -/
theorem packCheck_eq_bcdViolation (slot : PackSlot) (p : Pack) (loc : FieldLoc) (path : FieldPath) (lo hi : Nat) :
    packCheck params slot p loc path lo hi =
      bcdViolation path (loc.width - 4) (packField p loc) lo hi (8 * slotByte slot + loc.off) := by
  rw [slotByte_eq_packByte]
  exact bcdCheck_eq_bcdViolation ..

/-- A time code field in words of the bytes PC1 to PC4 (R130). -/
def tcValue (pc1 pc2 pc3 pc4 : Byte) : TcField → Nat
  | .cf      => pc1.toNat / 128
  | .df      => pc1.toNat / 64 % 2
  | .frames  => pc1.toNat % 64
  | .pc      => pc2.toNat / 128
  | .seconds => pc2.toNat % 128
  | .bgf0    => pc3.toNat / 128
  | .minutes => pc3.toNat % 128
  | .bgf2    => pc4.toNat / 128
  | .bgf1    => pc4.toNat / 64 % 2
  | .hours   => pc4.toNat % 64

/-- A recording date field in words of the bytes PC1 to PC4 (R133). -/
def recdateValue (pc1 pc2 pc3 pc4 : Byte) : RecdateField → Nat
  | .ds    => pc1.toNat / 128
  | .tm    => pc1.toNat / 64 % 2
  | .tz    => pc1.toNat % 64
  | .resd  => pc2.toNat / 64
  | .day   => pc2.toNat % 64
  | .week  => pc3.toNat / 32
  | .month => pc3.toNat % 32
  | .year  => pc4.toNat

/-- A recording time field in words of the bytes PC1 to PC4 (R136). -/
def rectimeValue (pc1 pc2 pc3 pc4 : Byte) : RectimeField → Nat
  | .resf    => pc1.toNat / 64
  | .frames  => pc1.toNat % 64
  | .ress    => pc2.toNat / 128
  | .seconds => pc2.toNat % 128
  | .resm    => pc3.toNat / 128
  | .minutes => pc3.toNat % 128
  | .resh    => pc4.toNat / 64
  | .hours   => pc4.toNat % 64

/-- A field at the front of byte `k` of a pack is the byte's high bits. -/
theorem packField_high (a b c d e : Byte) (k w : Nat) (h : w ≤ 8) :
    packField (packOf a b c d e) ⟨8 * k, w⟩ = (([a, b, c, d, e] : Bytes).getD k 0).toNat / 2 ^ (8 - w) := by
  have hlt := (([a, b, c, d, e] : Bytes).getD k 0).isLt
  have key := packField_packOf a b c d e k 0 w (by omega)
  rw [Nat.add_zero, Nat.zero_add] at key
  rw [key]
  refine Nat.mod_eq_of_lt (Nat.div_lt_of_lt_mul ?_)
  rwa [← Nat.pow_add, Nat.sub_add_cancel h]

/-- A field at the end of byte `k` of a pack is the byte's low bits. -/
theorem packField_low (a b c d e : Byte) (k j : Nat) (h : j ≤ 8) :
    packField (packOf a b c d e) ⟨8 * k + j, 8 - j⟩ = (([a, b, c, d, e] : Bytes).getD k 0).toNat % 2 ^ (8 - j) := by
  rw [packField_packOf a b c d e k j (8 - j) (by omega), Nat.add_sub_cancel' h, Nat.sub_self, Nat.pow_zero, Nat.div_one]

theorem packField_tcLoc (pc0 pc1 pc2 pc3 pc4 : Byte) (f : TcField) :
    packField (packOf pc0 pc1 pc2 pc3 pc4) (tcLoc f) = tcValue pc1 pc2 pc3 pc4 f := by
  cases f with
  | cf => exact packField_high _ _ _ _ _ 1 1 (by decide)
  | df => exact packField_packOf _ _ _ _ _ 1 1 1 (by decide)
  | frames => exact packField_low _ _ _ _ _ 1 2 (by decide)
  | pc => exact packField_high _ _ _ _ _ 2 1 (by decide)
  | seconds => exact packField_low _ _ _ _ _ 2 1 (by decide)
  | bgf0 => exact packField_high _ _ _ _ _ 3 1 (by decide)
  | minutes => exact packField_low _ _ _ _ _ 3 1 (by decide)
  | bgf2 => exact packField_high _ _ _ _ _ 4 1 (by decide)
  | bgf1 => exact packField_packOf _ _ _ _ _ 4 1 1 (by decide)
  | hours => exact packField_low _ _ _ _ _ 4 2 (by decide)

theorem packField_recdateLoc (pc0 pc1 pc2 pc3 pc4 : Byte) (f : RecdateField) :
    packField (packOf pc0 pc1 pc2 pc3 pc4) (recdateLoc f) = recdateValue pc1 pc2 pc3 pc4 f := by
  cases f with
  | ds => exact packField_high _ _ _ _ _ 1 1 (by decide)
  | tm => exact packField_packOf _ _ _ _ _ 1 1 1 (by decide)
  | tz => exact packField_low _ _ _ _ _ 1 2 (by decide)
  | resd => exact packField_high _ _ _ _ _ 2 2 (by decide)
  | day => exact packField_low _ _ _ _ _ 2 2 (by decide)
  | week => exact packField_high _ _ _ _ _ 3 3 (by decide)
  | month => exact packField_low _ _ _ _ _ 3 3 (by decide)
  | year => exact (packField_high _ _ _ _ _ 4 8 (by decide)).trans (Nat.div_one _)

theorem packField_rectimeLoc (pc0 pc1 pc2 pc3 pc4 : Byte) (f : RectimeField) :
    packField (packOf pc0 pc1 pc2 pc3 pc4) (rectimeLoc f) = rectimeValue pc1 pc2 pc3 pc4 f := by
  cases f with
  | resf => exact packField_high _ _ _ _ _ 1 2 (by decide)
  | frames => exact packField_low _ _ _ _ _ 1 2 (by decide)
  | ress => exact packField_high _ _ _ _ _ 2 1 (by decide)
  | seconds => exact packField_low _ _ _ _ _ 2 1 (by decide)
  | resm => exact packField_high _ _ _ _ _ 3 1 (by decide)
  | minutes => exact packField_low _ _ _ _ _ 3 1 (by decide)
  | resh => exact packField_high _ _ _ _ _ 4 2 (by decide)
  | hours => exact packField_low _ _ _ _ _ 4 2 (by decide)

theorem maxFrame_eq_lastFrame (std : Std) : maxFrame std = lastFrame std := by cases std <;> rfl

/-! ## The causes of violations -/

/-- A violation has one of the listed causes: it carries the place of a field that some check flags, and the block's bits
there (R143). -/
def IsCause (blk : Bytes) (v : Violation) : Prop :=
  ∃ loc, causeLoc v.field = some loc ∧ v.kind = .malformedField ∧ v.offset.toNat = loc.off ∧
    v.raw.toNat = fieldBits blk loc.off loc.width

/-- A flagged field of at most 32 bits inside the block: offset and raw value fit the words of a violation (R13). -/
theorem isCause_malformed {path : FieldPath} {o w : Nat} (hc : causeLoc path = some ⟨o, w⟩) (ho : o < 640) (hw : w ≤ 32)
    (blk : Bytes) : IsCause blk (malformed path (fieldBits blk o w) o) :=
  ⟨⟨o, w⟩, hc, rfl, toNat_ofNat_of_lt_two_pow le_rfl (by omega), toNat_ofNat_of_lt_two_pow hw (fieldBits_lt blk o w)⟩

theorem isCause_of_mem_flagIf {path : FieldPath} {o w : Nat} (hc : causeLoc path = some ⟨o, w⟩) (ho : o < 640)
    (hw : w ≤ 32) {blk : Bytes} {bad : Bool} : ∀ v ∈ flagIf bad path (fieldBits blk o w) o, IsCause blk v := by
  cases bad with
  | false => exact List.forall_mem_nil _
  | true => exact List.forall_mem_singleton.2 (isCause_malformed hc ho hw blk)

theorem isCause_of_mem_packCheck {slot : PackSlot} {loc : FieldLoc} {path : FieldPath}
    (hc : causeLoc path = some ⟨8 * slotByte slot + loc.off, loc.width⟩)
    (hloc : loc.off < 40 ∧ loc.off + loc.width ≤ 40 ∧ loc.width ≤ 32) {blk : Bytes} {lo hi : Nat} :
    ∀ v ∈ packCheck params slot (readPack params blk slot) loc path lo hi, IsCause blk v := by
  rw [slotByte_eq_packByte] at hc
  obtain ⟨hoff, hend, hw⟩ := hloc
  have hslot := packByte_le slot
  unfold packCheck bcdCheck
  split
  · rename_i r hflagged
    rw [typedBcd_flagged hflagged, packField_readPack blk slot loc hend]
    exact List.forall_mem_singleton.2 (isCause_malformed hc (by omega) hw blk)
  · exact List.forall_mem_nil _
  · exact List.forall_mem_nil _

/-- The checks of a pack in its slot of a block flag checked digits of its view (R131, R134, R137). -/
theorem isCause_of_mem_packChecks {std : Std} {slot : PackSlot} {blk : Bytes} :
    ∀ v ∈ packChecks params std slot (readPack params blk slot), IsCause blk v := by
  unfold packChecks
  split
  · simp only [tcChecks, List.forall_mem_append]
    exact ⟨⟨⟨isCause_of_mem_packCheck rfl (by decide), isCause_of_mem_packCheck rfl (by decide)⟩,
      isCause_of_mem_packCheck rfl (by decide)⟩, isCause_of_mem_packCheck rfl (by decide)⟩
  · simp only [recdateChecks, List.forall_mem_append]
    exact ⟨⟨isCause_of_mem_packCheck rfl (by decide), isCause_of_mem_packCheck rfl (by decide)⟩,
      isCause_of_mem_packCheck rfl (by decide)⟩
  · simp only [rectimeChecks, List.forall_mem_append]
    exact ⟨⟨⟨isCause_of_mem_packCheck rfl (by decide), isCause_of_mem_packCheck rfl (by decide)⟩,
      isCause_of_mem_packCheck rfl (by decide)⟩, isCause_of_mem_packCheck rfl (by decide)⟩
  · exact List.forall_mem_nil _
  · exact List.forall_mem_nil _

theorem isCause_of_mem_ssybChecks {std : Std} {k : Fin 6} {blk : Bytes} :
    ∀ v ∈ ssybChecks params std k (decodeSsyb params blk k), IsCause blk v := by
  have hoff : 8 * (3 + 8 * k.val) + 12 < 640 := by omega
  exact List.forall_mem_append.2 ⟨isCause_of_mem_flagIf (w := 4) rfl hoff (by decide), isCause_of_mem_packChecks⟩

theorem isCause_of_mem_checkId {t : BlockType} {std : Std} {blk : Bytes} :
    ∀ v ∈ checkId params (decodeId params blk) t std, IsCause blk v :=
  List.forall_mem_append.2 ⟨isCause_of_mem_flagIf (w := 4) rfl (by decide) (by decide),
    isCause_of_mem_flagIf (w := 8) rfl (by decide) (by decide)⟩

theorem isCause_of_mem_bodyChecks {t : BlockType} {std : Std} {blk : Bytes} :
    ∀ v ∈ bodyChecks params std (decodeBody params t blk), IsCause blk v := by
  cases t with
  | header => exact List.forall_mem_nil _
  | subcode =>
    intro v hv
    obtain ⟨k, -, hv⟩ := List.mem_flatMap.1 hv
    rw [decodeSubcode_ssyb] at hv
    exact isCause_of_mem_ssybChecks v hv
  | vaux =>
    intro v hv
    obtain ⟨i, -, hv⟩ := List.mem_flatMap.1 hv
    rw [decodeVaux_pack] at hv
    exact isCause_of_mem_packChecks v hv
  | audio => exact isCause_of_mem_packChecks
  | video => exact List.forall_mem_nil _

/-! ## The typed views of a decoded block -/

theorem fieldBits_one (buf : Bytes) (o : Nat) : fieldBits buf o 1 = bitAt buf o := by
  rw [fieldBits_succ, fieldBits_zero, Nat.mul_zero, Nat.zero_add, Nat.add_zero]

theorem eq_decodeHeader_of_body {t : BlockType} {blk : Bytes} {h : HeaderBody}
    (e : decodeBody params t blk = .header h) : h = decodeHeader params blk := by
  cases t <;> cases e
  rfl

theorem eq_decodeVideo_of_body {t : BlockType} {blk : Bytes} {v : VideoBody}
    (e : decodeBody params t blk = .video v) : v = decodeVideo params blk := by
  cases t <;> cases e
  rfl

/-- The Header's standard and transmitting flags, in words of the block's bits (R115). -/
theorem headerViews_decodeHeader (blk : Bytes) :
    headerStandard (decodeHeader params blk) = (if bitAt blk 24 = 0 then .ntsc else .pal) ∧
      audioValid (decodeHeader params blk) = (bitAt blk 40 == 0) ∧
      videoValid (decodeHeader params blk) = (bitAt blk 48 == 0) ∧
      subcodeValid (decodeHeader params blk) = (bitAt blk 56 == 0) := by
  simp only [← fieldBits_one]
  exact ⟨rfl, rfl, rfl, rfl⟩

end Sys2Proof.Machine

namespace Sys2Proof.Proofs

open Sys2Proof.Machine

/-- Settles O13. -/
theorem blkHeaderDecodesHeader : Obligations.BlkHeaderDecodesHeader := by
  intro s std pos id p i hp blk hi
  obtain ⟨t, hexec, hbufs, hserved⟩ := served_blockRow (n := 0) rfl hp hi s
  have htail : readBytes params blk .headerTail = p.drop 5 := readBytes_idBytes hp 0 id .headerTail
  simp only [decodeBody, bodyChecks, List.append_nil] at hserved
  exact ⟨t, hexec, hbufs, htail ▸ hserved⟩

/-- Settles O14. -/
theorem blkSubcodeDecodesSubcode : Obligations.BlkSubcodeDecodesSubcode := by
  intro s std pos id p i hp blk hi
  obtain ⟨t, hexec, hbufs, hserved⟩ := served_blockRow (n := 1) rfl hp hi s
  simp only [decodeBody, bodyChecks, ssybChecks_eq] at hserved
  refine ⟨t, decodeSubcode params blk, hexec, hbufs, fun k => ?_, readBytes_idBytes hp 1 id .subcodeTail, hserved⟩
  rw [decodeSubcode_ssyb, decodeSsyb, readPack_eq_packAt]
  rfl

/-- Settles O15. -/
theorem blkVauxDecodesVaux : Obligations.BlkVauxDecodesVaux := by
  intro s std pos id p i hp blk hi
  obtain ⟨t, hexec, hbufs, hserved⟩ := served_blockRow (n := 2) rfl hp hi s
  refine ⟨t, decodeVaux params blk, hexec, hbufs, fun k => ?_, readBytes_idBytes hp 2 id .vauxTail, hserved⟩
  rw [decodeVaux_pack, readPack_eq_packAt]
  rfl

/-- Settles O16. -/
theorem blkAudioDecodesAudio : Obligations.BlkAudioDecodesAudio := by
  intro s std pos id p i hp blk hi
  obtain ⟨t, hexec, hbufs, hserved⟩ := served_blockRow (n := 3) rfl hp hi s
  have hsamples : readBytes params blk .audioSamples = p.drop 5 := readBytes_idBytes hp 3 id .audioSamples
  exact ⟨t, hexec, hbufs, hsamples ▸ hserved⟩

/-- Settles O17. -/
theorem blkVideoDecodesVideo : Obligations.BlkVideoDecodesVideo := by
  intro s std pos id p i hp blk hi
  obtain ⟨t, hexec, hbufs, hserved⟩ := served_blockRow (n := 4) rfl hp hi s
  have hdata : readBytes params blk .videoData = p.drop 1 := readBytes_idBytes hp 4 id .videoData
  simp only [decodeBody, bodyChecks, List.append_nil] at hserved
  exact ⟨t, hexec, hbufs, hdata ▸ hserved⟩

/-- Settles O22: each check reads its field of the record at the field's place in the block. -/
theorem violationsAreTheListedCauses : Obligations.ViolationsAreTheListedCauses := by
  intro std pos blk rcd vs h
  obtain ⟨-, t, -, rfl, rfl⟩ := answers_decode_cases h
  exact List.forall_mem_append.2 ⟨isCause_of_mem_checkId, isCause_of_mem_bodyChecks⟩

/-- Settles O29. -/
theorem packTcIsTimeCode : Obligations.PackTcIsTimeCode := by
  intro s std slot pc1 pc2 pc3 pc4 a frames seconds minutes hours
  refine packServed_of_exec_deliverPack rfl ?_
  simp only [tcView, tcChecks, packTyped_eq_bcdTyped, packCheck_eq_bcdViolation, packField_tcLoc, maxFrame_eq_lastFrame]
  rfl

/-- Settles O30. -/
theorem packRecdateIsRecordingDate : Obligations.PackRecdateIsRecordingDate := by
  intro s std slot pc1 pc2 pc3 pc4 a day month year
  refine packServed_of_exec_deliverPack rfl ?_
  simp only [recdateView, recdateChecks, packTyped_eq_bcdTyped, packCheck_eq_bcdViolation, packField_recdateLoc]
  rfl

/-- Settles O31. -/
theorem packRectimeIsRecordingTime : Obligations.PackRectimeIsRecordingTime := by
  intro s std slot pc1 pc2 pc3 pc4 a frames seconds minutes hours
  refine packServed_of_exec_deliverPack rfl ?_
  simp only [rectimeView, rectimeChecks, packTyped_eq_bcdTyped, packCheck_eq_bcdViolation, packField_rectimeLoc,
    maxFrame_eq_lastFrame]
  rfl

/-- Settles O33. -/
theorem packRowsAreThePackDecoder : Obligations.PackRowsAreThePackDecoder := by
  intro s std slot pc0 pc1 pc2 pc3 pc4 p
  exact ⟨_, _, (decode_pack ..).trans (decodePackItem_eq_packRow ..), exec_packRow std slot pc0 pc1 pc2 pc3 pc4 s,
    packServed_deliverPack s _⟩

/-- Settles O39. -/
theorem typedViewsOfADecodedBlock : Obligations.TypedViewsOfADecodedBlock := by
  intro std pos blk rcd vs h
  obtain ⟨-, t, -, rfl, -⟩ := answers_decode_cases h
  refine ⟨fun h hbody => ?_, fun v hbody => ?_, ?_⟩
  · rw [eq_decodeHeader_of_body hbody]
    exact headerViews_decodeHeader blk
  · rw [eq_decodeVideo_of_body hbody]
    rfl
  · rw [packViews, decodeRecord_body, decodeBody_type, ← List.filterMap_eq_map]
    refine List.filterMap_congr fun slot hslot => ?_
    rw [slotPack_decodeBody hslot, Option.map_some]
    rfl

/-- Settles O32. -/
theorem noinfoAndRawPacksFlagNothing : Obligations.NoinfoAndRawPacksFlagNothing :=
  fun _ _ _ _ _ _ _ _ => ⟨packServed_of_exec_deliverPack rfl rfl, packServed_of_exec_deliverPack rfl rfl⟩

end Sys2Proof.Proofs

/-! PROOFS. The statements of 43_block_encoder.md: what ENCODE answers in every case, the two round trips, and the boundary
values of the integer fields. -/

namespace Sys2Proof.Machine

/-! ## What ENCODE answers -/

theorem exec_encode (std : Std) (r : DecodedBlock) (s : State) :
    exec (.encode std r) s = .next (s.deliver (encodeBlock params std r)) := rfl

theorem answers_encode {std : Std} {r : DecodedBlock} {resp : Response} (h : encodeBlock params std r = resp) :
    Answers (.encode std r) resp := (answers_iff (exec_encode std r)).2 h

/-- A body agrees with a mapped `sct` exactly if the list of the section types names it there (R56, R99). -/
theorem recordMatches_iff {r : DecodedBlock} : recordMatches params r = true ↔
    [BlockType.header, .subcode, .vaux, .audio, .video][r.id.sct]? = some r.body.type := by
  rw [recordMatches, beq_iff_eq, ← sctMap_eq_getElem?]

theorem recordFits_iff {P : Params} {r : DecodedBlock} : recordFits P r = true ↔
    recordMatches P r = true ∧ ∀ f ∈ P.layout.order r.body.type, fieldFits P r f = true := by
  rw [recordFits, Bool.and_eq_true, List.all_eq_true]

/-- ENCODE refuses a record whose body does not agree with its `sct` (R150). -/
theorem encodeBlock_of_not_matches {P : Params} (std : Std) {r : DecodedBlock} (hm : ¬ recordMatches P r = true) :
    encodeBlock P std r = refusal .badRecord := if_neg hm

/-- ENCODE raises for the first field in layout order that does not fit (R150). -/
theorem encodeBlock_of_first_failing (std : Std) {r : DecodedBlock} {pre post : List RawField} {f : RawField} {v : Nat}
    (hm : recordMatches params r = true) (hsplit : params.layout.order r.body.type = pre ++ f :: post)
    (hpre : ∀ g ∈ pre, fieldFits params r g = true) (hf : fieldFits params r f = false)
    (hv : namedValue r f = some v) : encodeBlock params std r = raised .rangeError (.field (.raw f) v) := by
  have hc := order_chained r.body.type
  rw [hsplit] at hc
  refine encodeBlock_of_error (info := .field (.raw f) v) hm ?_
  rw [hsplit]
  exact encodeFields_of_first_failing (buf := List.replicate 80 0) hc hpre hf hv (by simp)

/-! ## The round trips -/

/-- A block that holds every field of a record decodes to that record: its fields determine it (R100). -/
theorem decodeRecord_of_holds {r : DecodedBlock} {blk : Bytes}
    (h : ∀ f ∈ params.layout.order r.body.type, holds params r blk f) :
    decodeRecord params r.body.type blk = r := by
  have htype : (decodeRecord params r.body.type blk).body.type = r.body.type := decodeBody_type ..
  refine record_ext htype fun f hf => ?_
  rw [htype] at hf
  have hdec := decodeRecord_holds r.body.type blk hf
  have hr := h f hf
  cases f with
  | int f => exact hdec.trans hr.symm
  | bytes f => exact hdec.trans hr.symm

/-- The record of a block encodes to that block: the answer holds the fields that the block holds, and these cover it
(R153). -/
theorem encodeBlock_decodeRecord {std : Std} {t : BlockType} {blk : Bytes} (hl : blk.length = 80)
    (ht : sctMap (readInt params blk (.id .sct)) = some t) :
    encodeBlock params std (decodeRecord params t blk) = okData blk := by
  obtain ⟨blk', hans, hl', hholds⟩ := encodeBlock_fits (std := std) (decodeRecord_fits hl ht)
  rw [decodeRecord_body, decodeBody_type] at hholds
  have : blk' = blk := block_ext (t := t) hl' hl fun f hf =>
    sameField_of_holds (hholds f hf) (decodeRecord_holds t blk hf)
  rw [hans, this]

/-- A record that fits encodes to a block that decodes to the record, with the violations of the record's checks (R154). -/
theorem roundTrip_of_fits (std std' : Std) (pos : PosWord) {r : DecodedBlock} (h : recordFits params r = true) :
    ∃ blk, Answers (.encode std r) (okData blk) ∧
      Answers (.decode std' pos blk) (okDecoded r (recordChecks params std' r)) := by
  obtain ⟨blk, henc, hl, hholds⟩ := encodeBlock_fits (std := std) h
  obtain ⟨hm, -⟩ := recordFits_iff.1 h
  have hsct : r.id.sct = readInt params blk (.id .sct) := Option.some.inj (hholds _ (mem_order_id _ .sct))
  have hmap : sctMap (readInt params blk (.id .sct)) = some r.body.type := hsct ▸ beq_iff_eq.1 hm
  have hdec := answers_decode (std := std') (pos := pos) hl hmap
  rw [decodeRecord_of_holds hholds] at hdec
  exact ⟨blk, answers_encode henc, hdec⟩

/-! ## A record with one integer field replaced -/

theorem fieldFits_int {P : Params} {r : DecodedBlock} {f : IntField} {v : Nat} (h : recGetInt r f = some v) :
    fieldFits P r (.int f) = decide (v < 2 ^ (P.layout.int f).width) := by
  simp only [fieldFits, h]

theorem fieldFits_congr {P : Params} {r r' : DecodedBlock} {g : RawField} (h : sameValue r r' g) :
    fieldFits P r g = fieldFits P r' g := by
  cases g with
  | int g => simp only [fieldFits, show recGetInt r g = recGetInt r' g from h]
  | bytes g => simp only [fieldFits, show recGetBytes r g = recGetBytes r' g from h]

theorem recGetInt_recSetInt_same {r r' : DecodedBlock} {f : IntField} {v w : Nat} (h : recSetInt r f v = some r')
    (hw : recGetInt r f = some w) : recGetInt r' f = some v := by
  obtain ⟨-, -, hget⟩ := recSetInt_spec h
  rw [hget, if_pos rfl, hw, Option.map_some]

theorem sameValue_recSetInt_of_ne {r r' : DecodedBlock} {f : IntField} {v : Nat} (h : recSetInt r f v = some r')
    {g : RawField} (hg : g ≠ .int f) : sameValue r' r g := by
  obtain ⟨-, hbytes, hget⟩ := recSetInt_spec h
  cases g with
  | int g => exact (hget g).trans (if_neg fun e => hg (congrArg RawField.int e))
  | bytes g => exact hbytes g

/-- A new value of another field than `sct` leaves the agreement of `sct` and body as it was (R99). -/
theorem recordMatches_recSetInt {P : Params} {r r' : DecodedBlock} {f : IntField} {v : Nat}
    (h : recSetInt r f v = some r') (hf : f ≠ .id .sct) : recordMatches P r' = recordMatches P r := by
  obtain ⟨htype, -, -⟩ := recSetInt_spec h
  have hsct : r'.id.sct = r.id.sct :=
    Option.some.inj (sameValue_recSetInt_of_ne h (g := .int (.id .sct)) fun e => hf (RawField.int.inj e).symm)
  rw [recordMatches, recordMatches, htype, hsct]

/-- A field of the layout of a record that fits can be given any value: the record still agrees with its `sct`, the field
holds the value, and every other field fits. -/
theorem recSetInt_of_fits {r : DecodedBlock} {f : IntField} (h : recordFits params r = true)
    (hmem : .int f ∈ params.layout.order r.body.type) (hf : f ≠ .id .sct) (v : Nat) :
    ∃ r', recSetInt r f v = some r' ∧ recordMatches params r' = true ∧ r'.body.type = r.body.type ∧
      recGetInt r' f = some v ∧ ∀ g ∈ params.layout.order r.body.type, g ≠ .int f → fieldFits params r' g = true := by
  obtain ⟨hm, hfits⟩ := recordFits_iff.1 h
  obtain ⟨w, hw⟩ : ∃ w, recGetInt r f = some w := exists_namedValue r hmem
  obtain ⟨r', hset⟩ := recSetInt_of_get hw v
  obtain ⟨htype, -, -⟩ := recSetInt_spec hset
  refine ⟨r', hset, (recordMatches_recSetInt hset hf).trans hm, htype, recGetInt_recSetInt_same hset hw,
    fun g hg hne => ?_⟩
  rw [fieldFits_congr (sameValue_recSetInt_of_ne hset hne)]
  exact hfits g hg

/-- With a value below `2^w` in a field of width `w`, a record that fits still fits. -/
theorem recordFits_recSetInt {r : DecodedBlock} {f : IntField} {v : Nat} (h : recordFits params r = true)
    (hmem : .int f ∈ params.layout.order r.body.type) (hf : f ≠ .id .sct) (hv : v < 2 ^ (params.layout.int f).width) :
    ∃ r', recSetInt r f v = some r' ∧ recGetInt r' f = some v ∧ recordFits params r' = true := by
  obtain ⟨r', hset, hm, htype, hget, hother⟩ := recSetInt_of_fits h hmem hf v
  refine ⟨r', hset, hget, recordFits_iff.2 ⟨hm, fun g hg => ?_⟩⟩
  rw [htype] at hg
  by_cases hne : g = .int f
  · rw [hne, fieldFits_int hget, decide_eq_true hv]
  · exact hother g hg hne

/-- With `2^w` or more in a field of width `w`, ENCODE of a record that fitted names the field and the value (R150). -/
theorem encodeBlock_recSetInt_range (std : Std) {r : DecodedBlock} {f : IntField} {v : Nat}
    (h : recordFits params r = true) (hmem : .int f ∈ params.layout.order r.body.type) (hf : f ≠ .id .sct)
    (hv : 2 ^ (params.layout.int f).width ≤ v) :
    ∃ r', recSetInt r f v = some r' ∧ encodeBlock params std r' = raised .rangeError (.field (.raw (.int f)) v) := by
  obtain ⟨r', hset, hm, htype, hget, hother⟩ := recSetInt_of_fits h hmem hf v
  obtain ⟨pre, post, hsplit, hfirst⟩ := List.eq_append_cons_of_mem hmem
  have hpre : ∀ g ∈ pre, fieldFits params r' g = true := fun g hg =>
    hother g (by rw [hsplit]; exact List.mem_append_left _ hg) fun e => hfirst (e ▸ hg)
  have hbad : fieldFits params r' (.int f) = false := by rw [fieldFits_int hget, decide_eq_false (not_lt.2 hv)]
  exact ⟨r', hset, encodeBlock_of_first_failing std hm (htype ▸ hsplit) hpre hbad hget⟩

end Sys2Proof.Machine

namespace Sys2Proof.Proofs

open Sys2Proof.Machine

/-- Settles O34: the section type, then the first field that does not fit, then the block. -/
theorem encodeAnswersEveryCase : Obligations.EncodeAnswersEveryCase := by
  refine ⟨fun r => ?_, fun s std r => ⟨fun hbad => ?_, fun pre post f v hm hsplit hpre hf hv => ?_, fun hm hfits => ?_⟩⟩
  · obtain ⟨-, -, -, -, -, hop, -⟩ := opSelectsOperationAndItsOperands r
    exact hop
  · have hm : ¬ recordMatches params r = true := by
      rw [recordMatches_iff]
      rcases hbad with hsct | hne
      · rw [← sctMap_eq_getElem?, sctMap_of_lt hsct]
        exact Option.some_ne_none _ ∘ Eq.symm
      · exact hne
    exact served_of_exec_deliver (by rw [exec_encode, encodeBlock_of_not_matches std hm]) rfl
  · have hans := encodeBlock_of_first_failing std (recordMatches_iff.2 hm) hsplit hpre hf hv
    exact served_of_exec_deliver (by rw [exec_encode, hans]) rfl
  · obtain ⟨blk, hans, hl, hholds⟩ := encodeBlock_fits (std := std) (recordFits_iff.2 ⟨recordMatches_iff.2 hm, hfits⟩)
    refine ⟨_, blk, by rw [exec_encode, hans], served_deliver s _, rfl, hl, fun f hf => ?_⟩
    cases f with
    | int f => exact hholds _ hf
    | bytes f => exact hholds _ hf

/-- Settles O35, by the three kinds of answer of ENCODE. -/
theorem encodeIsAllOrNothing : Obligations.EncodeIsAllOrNothing := by
  intro s t std r resp hexec hresp hstatus
  rw [exec_encode] at hexec
  cases hexec
  obtain rfl : encodeBlock params std r = resp := Option.some.inj hresp
  rcases encodeBlock_cases params std r with hans | ⟨info, hans⟩ | ⟨buf, hans⟩ <;> rw [hans] at hstatus ⊢
  · exact ⟨rfl, rfl, rfl, bufs_deliver s rfl⟩
  · exact ⟨rfl, rfl, rfl, bufs_deliver s rfl⟩
  · exact absurd rfl hstatus

/-- Settles O36. -/
theorem roundTripFromBytes : Obligations.RoundTripFromBytes := by
  intro std std' pos blk hl hsct
  obtain ⟨t, ht⟩ := sctMap_of_le hsct
  exact ⟨_, _, answers_decode hl ht, answers_encode (encodeBlock_decodeRecord hl ht)⟩

/-- Settles O37. -/
theorem roundTripFromRecords : Obligations.RoundTripFromRecords :=
  fun std std' pos _ hfits => roundTrip_of_fits std std' pos hfits

/-- Settles O40: the record with the new value fits, or that field is the first that does not. -/
theorem encodeBoundaryValues : Obligations.EncodeBoundaryValues := by
  intro std std' pos rcd f hfits hmem hf
  refine ⟨fun v hv => ?_, ?_⟩
  · have hlt : v < 2 ^ (params.layout.int f).width := by
      have := Nat.two_pow_pos (params.layout.int f).width
      omega
    obtain ⟨rcd', hset, hget, hfits'⟩ := recordFits_recSetInt hfits hmem hf hlt
    obtain ⟨blk, henc, hdec⟩ := roundTrip_of_fits std std' pos hfits'
    exact ⟨rcd', blk, _, hset, hget, henc, hdec⟩
  · obtain ⟨rcd', hset, hans⟩ := encodeBlock_recSetInt_range std hfits hmem hf le_rfl
    exact ⟨rcd', hset, answers_encode hans⟩

end Sys2Proof.Proofs

/-! PROOFS. The statements of 60_exceptions.md: the status of a response, and the request after any answer. -/

namespace Sys2Proof.Machine

/-! ## The status of a response -/

/-- The block reports no code of an error it never raises (4 to 6) and no reserved code (7, 13 to 15) (R161). -/
theorem status_mem_of_given {r : Response} (h : Given r) :
    r.status ∈ ([0, 1, 2, 3, 8, 9, 10, 11, 12] : List StatusWord) := by
  cases h with
  | error info => cases info <;> exact List.mem_of_elem_eq_true rfl
  | refused reason => cases reason <;> exact List.mem_of_elem_eq_true rfl
  | _ => exact List.mem_of_elem_eq_true rfl

/-- The block gives a decoded record with status OK only, however many violations it lists (R104, R161). -/
theorem status_of_given_decoded {r : Response} {b : DecodedBlock} {vs : List Violation} (h : Given r)
    (hdec : r.decode = some (.decoded b vs)) : r.status = 0 := by
  cases h with
  | decoded _ _ _ => rfl
  | _ => cases hdec

/-- An `Unreadable` verdict has one of the two causes of R96 and R97, and its status is the cause (R161). -/
theorem status_of_given_unreadable {r : Response} {pos : PosWord} {cause : ErrorCode} {sct : Option (BitVec 3)}
    (h : Given r) (hdec : r.decode = some (.unreadable pos cause sct)) :
    (cause = .boundsError ∧ r.status = 1) ∨ (cause = .unknownBlockType ∧ r.status = 3) := by
  cases h with
  | short _ => cases hdec; exact .inl ⟨rfl, rfl⟩
  | unknown _ _ => cases hdec; exact .inr ⟨rfl, rfl⟩
  | _ => cases hdec

/-! ## The next request -/

/-- An item that decodes, presented to an idle instance, is accepted, and the next step runs its instruction. -/
theorem exists_present_step {s : State} {item : Presented} {j : Instr} (hs : s.request = none) (dest : Option Name)
    (hdec : decode item = .ok j) :
    ∃ u, s.present ⟨item, dest⟩ = some u ∧ step u = exec j u ∧ u.log = s.log :=
  ⟨_, present_of_idle hs _, step_outstanding rfl hdec, rfl⟩

end Sys2Proof.Machine

namespace Sys2Proof.Proofs

open Sys2Proof.Machine

/-- Settles O43: a response that an instruction logs is one the block gives. -/
theorem statusCodesOfResponses : Obligations.StatusCodesOfResponses := by
  refine ⟨by decide, fun i s t r hexec hlog => ?_⟩
  obtain ⟨hgiven, -⟩ := eq_deliver_of_log hexec hlog
  exact ⟨status_mem_of_given hgiven, fun _ _ => status_of_given_decoded hgiven,
    fun _ _ _ => status_of_given_unreadable hgiven⟩

/-- Settles O47: after any instruction the instance is as idle as after reset, and the answer of the next one, whichever of
the two shapes it has, is the same in every state. -/
theorem nextRequestIsServedAsAfterReset : Obligations.NextRequestIsServedAsAfterReset := by
  intro i j s t item dest hexec hdec
  obtain ⟨u, hu, hstep, hlog⟩ := exists_present_step (request_of_exec hexec) dest hdec
  obtain ⟨v, hv, hstep', hlog'⟩ := exists_present_step (s := State.reset) rfl dest hdec
  rcases exec_shape j with ⟨r, hj⟩ | ⟨p, hj⟩ <;> rw [hj] at hstep hstep'
  · refine ⟨u, v, _, _, hu, hstep, hv, hstep', ?_, fun _ => rfl, fun hnil => ?_⟩
    · simp [hlog, hlog', State.reset]
    · simp at hnil
  · refine ⟨u, v, _, _, hu, hstep, hv, hstep', ?_, fun hne => ?_, fun _ => rfl⟩
    · simp [hlog, hlog', State.reset]
    · simp [hlog', State.reset] at hne

end Sys2Proof.Proofs

/-! PROOFS. The statement of 70_reset_and_hazards.md: the state after reset, and what asserting reset leaves unchanged. -/

namespace Sys2Proof.Proofs

open Sys2Proof.Machine

/-- Settles O55: asserting reset clears the request and response ports and leaves every field of the harness alone. -/
theorem resetAbandonsTheRequest : Obligations.ResetAbandonsTheRequest := by
  refine ⟨⟨rfl, rfl, rfl, rfl⟩, fun s => ?_⟩
  exact ⟨assertReset_request s, assertReset_response s, assertReset_log s, assertReset_bufs s, assertReset_refused s,
    assertReset_program s⟩

end Sys2Proof.Proofs
